-- ==== Sys2Proof/Word.lean ====
section
/-! DEFINITION. The words of the block: the 32-bit host word, the 10-bit converter count, and Num, what a real-valued
register holds. NUMERICS is the record of 00_scope.md R10 over any domain; Num is the arithmetic of the block written down
in its operations (R12), PLAIN DATA, which every instance of the record evaluates in its own domain. -/

namespace Sys2Proof

/-- A word of the host port (20_memory.md R60). -/
abbrev Word := BitVec 32

/-- A converter count, 10-bit unsigned: the number itself, 0 to 1023 (30_encoding.md R100). -/
abbrev Count10 := Fin 1024

/-- NUMERICS (R10): the record of total functions over a numeric domain D that every real-valued computation goes through. -/
structure Numerics (D : Type) where
  add  : D → D → D
  sub  : D → D → D
  mul  : D → D → D
  div  : D → D → D
  sqrt : D → D
  cos  : D → D
  sin  : D → D
  pi   : D
  /-- natural number to D -/
  num  : Nat → D
  /-- the decimal-literal embedding: a literal denotes a rational (R12) -/
  lit  : ℚ → D
  lt   : D → D → Bool
  le   : D → D → Bool
deriving Inhabited

/-- Which instance of NUMERICS a build has: the reference instance, exact real arithmetic, or another, named by a number
(R10; 92_eei_decisions.md D9). -/
inductive NumericsChoice where
  | reference
  | other (k : Nat)
deriving DecidableEq, Repr, Inhabited

/-- An angle of the window or of the transform: 2 × π × num f1 × num f2 … / num d, left to right (R12). pi occurs in the
block's arithmetic only here, and cos and sin are taken only of this (42_spectral_peak.md R160, R161). That the numeral 2
is num 2 is a DESIGN CHOICE (log entry 26). -/
structure Angle where
  factors : List Nat
  divisor : Nat
deriving DecidableEq, Repr, Inhabited

/-- The content of a real-valued register: the operations of NUMERICS that made it, over counts and parameters, in the
order R12 gives. DESIGN CHOICE (log entry 1): its value is what the build's instance makes of it, and nothing is rounded or
rewritten before. -/
inductive Num where
  | num (n : Nat)
  | lit (q : ℚ)
  | add (a b : Num)
  | sub (a b : Num)
  | mul (a b : Num)
  | div (a b : Num)
  | sqrt (a : Num)
  | cos (t : Angle)
  | sin (t : Angle)
deriving DecidableEq, Repr, Inhabited

/-- A decimal literal, one written with a decimal point: the exact rational p / q (R12; 92_eei_decisions.md D24). -/
def Num.dec (p : Int) (q : Nat) : Num := .lit (mkRat p q)

/-- The numeral 0 where a rule writes it as a Num. DESIGN CHOICE (log entry 26): a numeral without a decimal point is num,
where R12 leaves open which of the two embeddings of R10 it is. -/
def Num.zero : Num := .num 0

/-- The working form of the reference instance's comparisons: rationals, cosines of rational multiples of pi, sums,
products, reciprocals and square roots. -/
inductive Exact where
  /-- an exact rational -/
  | rat (q : ℚ)
  /-- the cosine of q times pi -/
  | cosPi (q : ℚ)
  | plus (a b : Exact)
  | times (a b : Exact)
  | recip (a : Exact)
  | root (a : Exact)
deriving DecidableEq, Repr, Inhabited

end Sys2Proof
end

