-- ==== Sys2Proof/Syntax.lean ====
section
/-! DEFINITION. The syntax: Instr, one constructor per row of spec/opcode_table.json (four host commands, twenty
sequencer phases); the statements of the host script (30_encoding.md R104); the agents a schedule names
(00_scope.md R16). No command and no micro-operation has an operand (R101), so no constructor has one. -/

namespace Sys2Proof

inductive Instr where
  /-- FC_INIT, command 0x01 (R121) -/
  | fcInit
  /-- FC_UPDATE, command 0x02 (R122) -/
  | fcUpdate
  /-- WA_INIT, command 0x03 (R123) -/
  | waInit
  /-- WA_UPDATE, command 0x04 (R124) -/
  | waUpdate
  /-- IDLE, phase 0x00 (R128) -/
  | idle
  /-- FC_INIT_RUN, phase 0x01 (R125) -/
  | fcInitRun
  /-- FC_CRIT_ENTER, phase 0x02 (R140) -/
  | fcCritEnter
  /-- FC_ACQ, phase 0x03 (R141) -/
  | fcAcq
  /-- FC_CRIT_EXIT, phase 0x04 (R142) -/
  | fcCritExit
  /-- SPD_WINDOW, phase 0x05 (R160) -/
  | spdWindow
  /-- SPD_FFT, phase 0x06 (R161) -/
  | spdFft
  /-- SPD_MAG, phase 0x07 (R162) -/
  | spdMag
  /-- SPD_PEAK, phase 0x08 (R163) -/
  | spdPeak
  /-- CAL_LOOKUP, phase 0x09 (R191) -/
  | calLookup
  /-- FC_PUBLISH, phase 0x0A (R192) -/
  | fcPublish
  /-- WA_INIT_RUN, phase 0x10 (R126) -/
  | waInitRun
  /-- WA_P1_START, phase 0x11 (R211) -/
  | waP1Start
  /-- WA_P1_SAMPLE, phase 0x12 (R212) -/
  | waP1Sample
  /-- WA_P1_FINISH, phase 0x13 (R214) -/
  | waP1Finish
  /-- WA_P2_SAMPLE, phase 0x14 (R215) -/
  | waP2Sample
  /-- WA_P2_FINISH, phase 0x15 (R216) -/
  | waP2Finish
  /-- WA_CLASSIFY, phase 0x16 (R241) -/
  | waClassify
  /-- WA_PUB_VPP, phase 0x17 (R242) -/
  | waPubVpp
  /-- WA_PUB_CLS, phase 0x18 (R243) -/
  | waPubCls
deriving DecidableEq, Repr, Inhabited

/-- The four commands a host script can name (R104). -/
inductive Command where
  | fcInit
  | fcUpdate
  | waInit
  | waUpdate
deriving DecidableEq, Repr, Inhabited

/-- One statement of a host script (R104). -/
inductive HostStmt where
  /-- RegWrite(idx, w); WR CMD is the write to index 0 -/
  | write (idx : BitVec 3) (w : Word)
  /-- RegRead(idx) -/
  | read (idx : BitVec 3)
  /-- WAIT_IDLE: read STATUS until bit 0 reads 0 -/
  | waitIdle
  /-- CALL c: WR CMD, c and then WAIT_IDLE -/
  | call (c : Command)
  /-- RESET: assert and release the reset input (70_reset_and_hazards.md R290) -/
  | reset
deriving DecidableEq, Repr, Inhabited

/-- Who takes the next step (R16). The two sample sources act only inside a sequencer step. -/
inductive Agent where
  /-- SEQ executes the micro-operation PHASE names -/
  | seq
  /-- CLK advances NOW by d = more + 1 microseconds, so d is at least 1 (60_exceptions.md R272; log entry 17) -/
  | clk (more : Nat)
  /-- HOST executes the next statement of its script -/
  | host
deriving DecidableEq, Repr, Inhabited

end Sys2Proof
end

