-- ==== Sys2Proof/Config.lean ====
section
/-! DEFINITION. The configuration: the implementation parameters of 00_scope.md R5 to R9 (plain data, fixed for the life
of the model; the state carries them, no step changes them), and the FREE VALUES, opaque constants that nothing in Lean
can evaluate: one for each value the spec leaves open. -/

namespace Sys2Proof

/-- One entry of the calibration table: CAL_MEAS[i] and CAL_TRUE[i] (R7, R31). -/
structure CalEntry where
  meas : Num
  tru  : Num
deriving DecidableEq, Repr, Inhabited

/-- The parameters of one build. All are OPEN (92_eei_decisions.md, "Open parameters in one list"); WellFormed.lean has
their constraints. -/
structure Params where
  /-- NUMERICS, which instance (R10) -/
  numerics      : NumericsChoice
  /-- N, the block size (R5) -/
  n             : Nat
  /-- T_S, microseconds between samples (R5) -/
  tS            : Nat
  /-- F_S, hertz (R5) -/
  fS            : Num
  /-- FC_MAXCOUNT, the largest raw count (R5) -/
  fcMaxCount    : Nat
  /-- FC_VFS, the full-scale voltage of the raw source (R5) -/
  fcVfs         : Num
  /-- K_MIN, the first bin searched (R6) -/
  kMin          : Nat
  /-- K_MAX, the last bin searched (R6) -/
  kMax          : Nat
  /-- the calibration ROM, CAL_MEAS and CAL_TRUE; its length is L (R7, 10_state.md R31) -/
  cal           : List CalEntry
  /-- V_REF, the reference voltage (R8) -/
  vRef          : Num
  /-- MAX_COUNT_SCALE (R8) -/
  maxCountScale : Nat
  /-- CLIP_MARGIN (R8) -/
  clipMargin    : Nat
  /-- NOISE_FLOOR (R8) -/
  noiseFloor    : Num
  /-- T_PASS1, microseconds (R8) -/
  tPass1        : Nat
  /-- T_PASS2, microseconds (R8) -/
  tPass2        : Nat
  /-- SINE_LO, SINE_HI, SQUARE_LO, SQUARE_HI, TRI_LO, TRI_HI (R9) -/
  sineLo        : Num
  sineHi        : Num
  squareLo      : Num
  squareHi      : Num
  triLo         : Num
  triHi         : Num
  /-- CNT_BITS, the width of a hardware sample counter (10_state.md R29); the model's counters do not overflow (log entry 13) -/
  cntBits       : Nat
deriving DecidableEq, Repr, Inhabited

/-- CONV_MAX, the largest converter count (R8): fixed, not a parameter. -/
def convMax : Nat := 1023

/-- WA_CHANNEL, the converter channel the analyzer reads (R8): fixed, not a parameter. -/
def waChannel : BitVec 8 := 0

/-! ## Free values (log entries 6 to 9) -/

/-- The k-th instance of NUMERICS other than the reference one (R10; 93_implementation_defined.md U5, U10): any record of
total functions. Its domain is coded by the natural numbers, as every countable domain can be, a machine format among them. -/
opaque Config.numerics : Nat → Numerics Nat

/-- The value of the quotient a / b under the reference instance where b is zero, for the term a: the spec gives none. -/
opaque Config.divByZero : Num → ℚ

/-- The value of the square root of a under the reference instance where a is negative: the spec gives none. -/
opaque Config.sqrtNegative : Num → ℚ

/-- The value of an angle with divisor zero under the reference instance, in units of pi: the spec gives none. -/
opaque Config.angleByZero : Angle → ℚ

/-- What a host read of an unspecified CORR_FREQ or VPP returns, at the k-th draw (93_implementation_defined.md U1). -/
opaque Config.freeNum : Nat → Num

/-- What a host read of an unspecified WCLASS returns, at the k-th draw (U1): any word. -/
opaque Config.freeWord : Nat → Word

/-- The answer of the k-th RawRead that the state does not list (U13); taken modulo FC_MAXCOUNT + 1. -/
opaque Config.freeRaw : Nat → Nat

/-- The answer of the k-th ConvExchange, of the given channel, that the state does not list (U13). -/
opaque Config.freeConv : Nat → BitVec 8 → Count10

/-- Which agent takes the k-th step that the state's schedule does not list (R16, U12). -/
opaque Config.freeAgent : Nat → Agent

/-- NUM_ENCODE, the bit image of a value on the host port (30_encoding.md R97), under the reference instance: an OPEN
parameter, a function of the real number and so not of how it was computed (log entry 9). -/
opaque Config.numEncode : ℝ → Word

/-- NUM_ENCODE under the k-th other instance, of a value of its domain (R97): the parameter is tied to the instance. -/
opaque Config.numEncodeOther : Nat → Nat → Word

end Sys2Proof
end

