-- ==== Sys2Proof/Machine/Numerics.lean ====
section
/-! DEFINITION. NUMERICS (00_scope.md R10): what a Num is worth under an instance of the record, under the reference instance,
and the comparisons of a build. Under another instance a comparison is that instance's, of the two values. Under the
reference instance it is the order of the real numbers, decided by integer arithmetic alone: EXACT, not a comparison up to
rounding (Laws/Numerics.lean proves it equal to the order of ℝ). It approximates the difference of the two terms, and where
that does not separate it from zero, approximates it again past the separation bound of Exact.sepBits, below which a nonzero
algebraic number of that shape cannot lie. -/

namespace Sys2Proof

/-! ## The value of a register under an instance -/

/-- The value of an angle in the domain of an instance: each factor multiplied in turn, then the division (R12). The
numeral 2 is num 2, a DESIGN CHOICE (log entry 26). -/
def Angle.eval {D : Type} (F : Numerics D) (t : Angle) : D :=
  F.div (t.factors.foldl (fun x k => F.mul x (F.num k)) (F.mul (F.num 2) F.pi)) (F.num t.divisor)

/-- The value of a register's content in the domain of an instance. -/
def Num.eval {D : Type} (F : Numerics D) : Num → D
  | .num n => F.num n
  | .lit q => F.lit q
  | .add a b => F.add (a.eval F) (b.eval F)
  | .sub a b => F.sub (a.eval F) (b.eval F)
  | .mul a b => F.mul (a.eval F) (b.eval F)
  | .div a b => F.div (a.eval F) (b.eval F)
  | .sqrt a => F.sqrt (a.eval F)
  | .cos t => F.cos (t.eval F)
  | .sin t => F.sin (t.eval F)

/-- The reference instance (R10): the field of real numbers with exact operations. SPECIFICATION ONLY: no step evaluates
it. Where the spec gives no value (a division by zero, the root of a negative number), this record has Lean's, and
Num.toReal has a free value in its place (log entry 6). -/
noncomputable def Numerics.real : Numerics ℝ where
  add x y := x + y
  sub x y := x - y
  mul x y := x * y
  div x y := x / y
  sqrt x := √x
  cos := Real.cos
  sin := Real.sin
  pi := Real.pi
  num n := n
  lit q := q
  lt x y := by classical exact decide (x < y)
  le x y := by classical exact decide (x ≤ y)

/-- An angle in units of pi: twice the product of the factors, over the divisor. -/
def Angle.turns (t : Angle) : ℚ :=
  if t.divisor = 0 then Config.angleByZero t else 2 * (t.factors.prod : ℚ) / (t.divisor : ℚ)

/-- The real number a register's content stands for under the reference instance. SPECIFICATION ONLY: claims speak of it, no
step evaluates it. It is Num.eval Numerics.real but where the spec gives no value (log entry 6). -/
noncomputable def Num.toReal : Num → ℝ
  | .num n => (n : ℝ)
  | .lit q => (q : ℝ)
  | .add a b => a.toReal + b.toReal
  | .sub a b => a.toReal - b.toReal
  | .mul a b => a.toReal * b.toReal
  | .div a b => if b.toReal = 0 then (Config.divByZero a : ℝ) else a.toReal / b.toReal
  | .sqrt a => if a.toReal < 0 then (Config.sqrtNegative a : ℝ) else √a.toReal
  | .cos t => Real.cos ((t.turns : ℝ) * Real.pi)
  | .sin t => Real.sin ((t.turns : ℝ) * Real.pi)

/-! ## The reference instance's order, decided -/

/-- The real number a working form denotes. SPECIFICATION ONLY. -/
noncomputable def Exact.toReal : Exact → ℝ
  | .rat q => (q : ℝ)
  | .cosPi q => Real.cos ((q : ℝ) * Real.pi)
  | .plus a b => a.toReal + b.toReal
  | .times a b => a.toReal * b.toReal
  | .recip a => (a.toReal)⁻¹
  | .root a => √a.toReal

namespace ExactArith

/-- Enough bits for n: n is less than 2 to this power. -/
def bits (n : Nat) : Nat := Nat.log2 n + 1

/-- 2 to the p, as an integer. -/
def scale (p : Nat) : Int := ((2 ^ p : Nat) : Int)

/-- z divided by 2 to the k, rounded to the nearest (k at least 1). -/
def rshift (z : Int) (k : Nat) : Int := (z + scale (k - 1)) / scale k

/-- The integer square root of n, two bits of n a step; right when n is less than 4 to the fuel. -/
def isqrtFuel : Nat → Nat → Nat
  | 0, _ => 0
  | f + 1, n =>
    let r := 2 * isqrtFuel f (n / 4)
    if (r + 1) * (r + 1) ≤ n then r + 1 else r

/-- The integer square root, rounded down. -/
def isqrt (n : Nat) : Nat := isqrtFuel (bits n) n

/-- The first `steps` terms of the series of k times arctan (1/k), from term m on, times 2 to the p. -/
def arctanTail (k p : Nat) : Nat → Nat → Int
  | 0, _ => 0
  | steps + 1, m => scale p / ((2 * m + 1 : Nat) : Int) - arctanTail k p steps (m + 1) / ((k * k : Nat) : Int)

/-- pi times 2 to the p, to within 1 (Machin's formula). -/
def piScaled (p : Nat) : Int :=
  let w := p + 10
  let a := arctanTail 5 w w 0 / 5
  let b := arctanTail 239 w w 0 / 239
  rshift (16 * a - 4 * b) 10

/-- The cosine series by Horner's rule at scale 2 to the p: y is the square of the angle at that scale. -/
def cosTail (p : Nat) (y : Int) : Nat → Nat → Int
  | 0, _ => 0
  | steps + 1, m =>
    scale p - y * cosTail p y steps (m + 1) / scale p / (((2 * m + 1) * (2 * m + 2) : Nat) : Int)

/-- The angle q (in units of pi) brought into [0, 1/2]: the cosine of q·pi is that of the second component,
negated when the first is true. -/
def foldAngle (q : ℚ) : Bool × ℚ :=
  let t := q - 2 * ((q / 2).floor : ℚ)
  let u := if 1 < t then 2 - t else t
  if 1 / 2 < u then (true, 1 - u) else (false, u)

/-- The cosine of q·pi times 2 to the p, to within 1, for q in [0, 1/2]: by the half angle. -/
def cosScaled (q : ℚ) (p : Nat) : Int :=
  let w := p + 8
  let x := piScaled w * q.num / ((2 * q.den : Nat) : Int)
  let c := cosTail w (x * x / scale w) (w + 2) 0
  rshift (2 * (c * c / scale w) - scale w) 8

end ExactArith

open ExactArith

/-- The shape of a term, which bounds how close to zero its value can lie: the value is U / L with U and L algebraic
integers all of whose conjugates are at most 2^num and 2^den, in a field that the ord-th roots of unity and `roots`
square roots generate. -/
structure Exact.Size where
  num : Nat
  den : Nat
  ord : Nat
  roots : Nat
deriving DecidableEq, Repr

def Exact.size : Exact → Exact.Size
  | .rat q => ⟨bits q.num.natAbs, bits q.den, 1, 0⟩
  | .cosPi q => ⟨1, 1, 2 * q.den, 0⟩
  | .plus a b =>
    let x := a.size
    let y := b.size
    ⟨max (x.num + y.den) (y.num + x.den) + 1, x.den + y.den, Nat.lcm x.ord y.ord, x.roots + y.roots⟩
  | .times a b =>
    let x := a.size
    let y := b.size
    ⟨x.num + y.num, x.den + y.den, Nat.lcm x.ord y.ord, x.roots + y.roots⟩
  | .recip a =>
    let x := a.size
    ⟨x.den, x.num, x.ord, x.roots⟩
  | .root a =>
    let x := a.size
    ⟨(x.num + x.den + 1) / 2, x.den, x.ord, x.roots + 1⟩

/-- A term whose value is not zero is at least 2 to the minus this in modulus (the separation bound). -/
def Exact.sepBits (a : Exact) : Nat :=
  let x := a.size
  x.ord * 2 ^ x.roots * x.num + x.den

/-- The value of a term is at most 2 to this in modulus. -/
def Exact.magBits : Exact → Nat
  | .rat q => bits q.num.natAbs
  | .cosPi _ => 0
  | .plus a b => max a.magBits b.magBits + 1
  | .times a b => a.magBits + b.magBits
  | .recip a => a.sepBits
  | .root a => a.magBits

/-- The value times 2 to the p, to within 1. -/
def Exact.approx : Exact → Nat → Int
  | .rat q, p => scale p * q.num / (q.den : Int)
  | .cosPi q, p =>
    let (neg, u) := foldAngle q
    if neg then - cosScaled u p else cosScaled u p
  | .plus a b, p => rshift (a.approx (p + 2) + b.approx (p + 2)) 2
  | .times a b, p =>
    let ka := a.magBits
    let kb := b.magBits
    rshift (a.approx (p + kb + 3) * b.approx (p + ka + 3)) (p + ka + kb + 6)
  | .recip a, p =>
    let s := a.sepBits
    if (a.approx (s + 2)).natAbs ≤ 1 then 0
    else rshift (scale (p + 2 + (p + 2 * s + 4)) / a.approx (p + 2 * s + 4)) 2
  | .root a, p => rshift (isqrt (a.approx (2 * p + 4)).toNat : Int) 2

/-- The exact sign of a term: -1, 0 or 1. A first look at 64 bits settles every value that is not tiny. -/
def Exact.sign (a : Exact) : Int :=
  let z := a.approx 64
  if 1 < z.natAbs then z.sign
  else
    let z := a.approx (a.sepBits + 2)
    if z.natAbs ≤ 1 then 0 else z.sign

/-- The order of the real numbers on working forms. -/
def Exact.le (a b : Exact) : Bool :=
  match a, b with
  | .rat x, .rat y => decide (x ≤ y)
  | a, b => decide ((Exact.plus a (.times (.rat (-1)) b)).sign ≤ 0)

/-- The sum, with rationals and zeros folded. -/
def Exact.add (a b : Exact) : Exact :=
  match a, b with
  | .rat x, .rat y => .rat (x + y)
  | a, b => if a = .rat 0 then b else if b = .rat 0 then a else .plus a b

/-- The product, with rationals, zeros and ones folded. -/
def Exact.mul (a b : Exact) : Exact :=
  match a, b with
  | .rat x, .rat y => .rat (x * y)
  | a, b =>
    if a = .rat 0 ∨ b = .rat 0 then .rat 0
    else if a = .rat 1 then b else if b = .rat 1 then a else .times a b

/-- The difference. -/
def Exact.sub (a b : Exact) : Exact := Exact.add a (Exact.mul (.rat (-1)) b)

/-- The quotient; by zero, the free value given (log entry 6). -/
def Exact.div (free : ℚ) (a b : Exact) : Exact :=
  match b with
  | .rat y => if y = 0 then .rat free else Exact.mul a (.rat (y⁻¹))
  | b => if b.sign = 0 then .rat free else Exact.mul a (.recip b)

/-- The square root, that of a rational square folded; of a negative number, the free value given (log entry 6). -/
def Exact.sqrt (free : ℚ) (a : Exact) : Exact :=
  match a with
  | .rat x =>
    if x < 0 then .rat free
    else
      let n := isqrt x.num.toNat
      let d := isqrt x.den
      if n * n = x.num.toNat ∧ d * d = x.den then .rat (mkRat n d) else .root a
  | a => if a.sign < 0 then .rat free else .root a

/-- The cosine of q·pi. -/
def Exact.cosOfPi (q : ℚ) : Exact :=
  let (neg, u) := foldAngle q
  let c : Exact :=
    if u = 0 then .rat 1 else if u = 1 / 2 then .rat 0 else if u = 1 / 3 then .rat (1 / 2) else .cosPi u
  if neg then Exact.mul (.rat (-1)) c else c

/-- The sine of q·pi, the cosine of the complement. -/
def Exact.sinOfPi (q : ℚ) : Exact := Exact.cosOfPi (1 / 2 - q)

/-- The working form of a register's content: the same real number. -/
def Num.toExact : Num → Exact
  | .num n => .rat (n : ℚ)
  | .lit q => .rat q
  | .add a b => a.toExact.add b.toExact
  | .sub a b => a.toExact.sub b.toExact
  | .mul a b => a.toExact.mul b.toExact
  | .div a b => Exact.div (Config.divByZero a) a.toExact b.toExact
  | .sqrt a => Exact.sqrt (Config.sqrtNegative a) a.toExact
  | .cos t => Exact.cosOfPi t.turns
  | .sin t => Exact.sinOfPi t.turns

/-! ## The comparisons of a build -/

/-- The comparison ≤ of the build's NUMERICS. -/
def Params.le (c : Params) (a b : Num) : Bool :=
  match c.numerics with
  | .reference => a.toExact.le b.toExact
  | .other k => (Config.numerics k).le (a.eval (Config.numerics k)) (b.eval (Config.numerics k))

/-- The comparison < of the build's NUMERICS. -/
def Params.lt (c : Params) (a b : Num) : Bool :=
  match c.numerics with
  | .reference => !(b.toExact.le a.toExact)
  | .other k => (Config.numerics k).lt (a.eval (Config.numerics k)) (b.eval (Config.numerics k))

end Sys2Proof
end

