-- ==== Sys2Proof/WellFormed.lean ====
section
/-! DEFINITION. Well-formedness: the constraints of 00_scope.md R5 to R9 on the parameters of a build, compared in its own
NUMERICS; the 0 of a constraint is num 0, and a > b is b < a (log entry 26). A parameter set that breaks one is no build of the model (93_implementation_defined.md U7): claims take Params.wf as
a hypothesis (log entry 16). An instruction has no operand (30_encoding.md R101), so every instruction is well formed. -/

namespace Sys2Proof

/-- No field to check: R101. -/
def Instr.wf (_ : Instr) : Bool := true

namespace Params

/-- N is a power of two and at least 8 (R5). -/
def blockSizeOk (c : Params) : Bool := decide (8 ≤ c.n) && decide (2 ^ Nat.log2 c.n = c.n)

/-- T_S is positive (R5). -/
def intervalOk (c : Params) : Bool := decide (1 ≤ c.tS)

/-- FC_MAXCOUNT is at least 1 and FC_VFS positive (R5). -/
def rawScaleOk (c : Params) : Bool := decide (1 ≤ c.fcMaxCount) && c.lt Num.zero c.fcVfs

/-- 0 ≤ K_MIN ≤ K_MAX ≤ N - 1 (R6). -/
def searchRangeOk (c : Params) : Bool := decide (c.kMin ≤ c.kMax) && decide (c.kMax + 1 ≤ c.n)

/-- The measured column is strictly increasing (R7). -/
def risingCal (c : Params) : List CalEntry → Bool
  | a :: b :: rest => c.lt a.meas b.meas && risingCal c (b :: rest)
  | _ => true

/-- The calibration table has at least two entries, starts above zero and is strictly increasing (R7). -/
def tableOk (c : Params) : Bool :=
  decide (2 ≤ c.cal.length) && c.lt Num.zero (c.cal.headD default).meas && risingCal c c.cal

/-- V_REF is positive and MAX_COUNT_SCALE at least 1 (R8). -/
def converterOk (c : Params) : Bool := c.lt Num.zero c.vRef && decide (1 ≤ c.maxCountScale)

/-- 2 · CLIP_MARGIN < CONV_MAX (R8). -/
def marginOk (c : Params) : Bool := decide (2 * c.clipMargin < convMax)

/-- NOISE_FLOOR is positive (R8). -/
def floorOk (c : Params) : Bool := c.lt Num.zero c.noiseFloor

/-- The pass windows are positive (R8). -/
def windowsOk (c : Params) : Bool := decide (1 ≤ c.tPass1) && decide (1 ≤ c.tPass2)

/-- All the constraints. The thresholds of R9 and CAL_TRUE have none. -/
def wf (c : Params) : Bool :=
  c.blockSizeOk && c.intervalOk && c.rawScaleOk && c.searchRangeOk && c.tableOk && c.converterOk && c.marginOk &&
    c.floorOk && c.windowsOk

/-- F_S when a build gives none: 1000000 / T_S (R5; 92_eei_decisions.md D32), both embedded by num (log entry 26). -/
def defaultFs (tS : Nat) : Num := .div (.num 1000000) (.num tS)

/-- K_MIN when a build gives none (R6). -/
def defaultKMin : Nat := 2

/-- K_MAX when a build gives none: N/2 - 1 (R6). -/
def defaultKMax (n : Nat) : Nat := n / 2 - 1

/-- The spec's own test configurations TC-FC and TC-WA taken together (95_test_vectors.md section 0), with the thresholds
of R9 and the reference instance of R10, under which the spec states its vectors. They claim nothing about a real build;
State.reset carries them (log entry 2). A value that TC-FC writes without a decimal point is num, any other a decimal literal (log
entry 26). CNT_BITS is in none of these: the spec gives it no value, and 32 is the model's own
DESIGN CHOICE (log entry 2), which no step reads. -/
def test : Params where
  numerics := .reference
  n := 8
  tS := 125
  fS := Num.num 8000
  fcMaxCount := 4
  fcVfs := Num.num 4
  kMin := defaultKMin
  kMax := defaultKMax 8
  cal := [⟨Num.dec 4912 10, Num.num 500⟩, ⟨Num.dec 7768 10, Num.num 800⟩, ⟨Num.num 1900, Num.num 1850⟩, ⟨Num.num 2100, Num.num 2250⟩]
  vRef := Num.dec 33 10
  maxCountScale := 1023
  clipMargin := 5
  noiseFloor := Num.dec 1 100
  tPass1 := 1000
  tPass2 := 1000
  sineLo := Num.dec 130 100
  sineHi := Num.dec 145 100
  squareLo := Num.dec 95 100
  squareHi := Num.dec 105 100
  triLo := Num.dec 150 100
  triHi := Num.dec 170 100
  cntBits := 32

end Params
end Sys2Proof
end

