-- ==== Sys2Proof/Decode.lean ====
section
/-! DEFINITION. The encodings (30_encoding.md): the command codes of R92, the phase codes of R95, the decoder from both
formats that carry an operation (CMDW and PHASE5, R90), total and rejecting by name, and the encoder written from the same
two tables. -/

namespace Sys2Proof

/-- The phase codes (R95). -/
abbrev Phase.idle        : BitVec 5 := 0x00#5
abbrev Phase.fcInitRun   : BitVec 5 := 0x01#5
abbrev Phase.fcCritEnter : BitVec 5 := 0x02#5
abbrev Phase.fcAcq       : BitVec 5 := 0x03#5
abbrev Phase.fcCritExit  : BitVec 5 := 0x04#5
abbrev Phase.spdWindow   : BitVec 5 := 0x05#5
abbrev Phase.spdFft      : BitVec 5 := 0x06#5
abbrev Phase.spdMag      : BitVec 5 := 0x07#5
abbrev Phase.spdPeak     : BitVec 5 := 0x08#5
abbrev Phase.calLookup   : BitVec 5 := 0x09#5
abbrev Phase.fcPublish   : BitVec 5 := 0x0A#5
abbrev Phase.waInitRun   : BitVec 5 := 0x10#5
abbrev Phase.waP1Start   : BitVec 5 := 0x11#5
abbrev Phase.waP1Sample  : BitVec 5 := 0x12#5
abbrev Phase.waP1Finish  : BitVec 5 := 0x13#5
abbrev Phase.waP2Sample  : BitVec 5 := 0x14#5
abbrev Phase.waP2Finish  : BitVec 5 := 0x15#5
abbrev Phase.waClassify  : BitVec 5 := 0x16#5
abbrev Phase.waPubVpp    : BitVec 5 := 0x17#5
abbrev Phase.waPubCls    : BitVec 5 := 0x18#5

/-- A word that carries an operation (R90): the 32-bit command word a host writes, or the 5-bit phase code. -/
inductive CodeWord where
  | cmdw (w : Word)
  | phase5 (p : BitVec 5)
deriving DecidableEq, Repr

/-- Why a word is no operation (R102). -/
inductive DecodeError where
  /-- a command code that matches no row of R92 -/
  | reservedCommand (op : BitVec 8)
  /-- a phase code that matches no row of R95 -/
  | reservedPhase (code : BitVec 5)
deriving DecidableEq, Repr

/-- R92: the field op of CMDW. -/
def commandTable : List (BitVec 8 × Instr) :=
  [(0x01#8, .fcInit), (0x02#8, .fcUpdate), (0x03#8, .waInit), (0x04#8, .waUpdate)]

/-- R95: the PHASE5 codes. -/
def phaseTable : List (BitVec 5 × Instr) :=
  [(Phase.idle, .idle), (Phase.fcInitRun, .fcInitRun), (Phase.fcCritEnter, .fcCritEnter), (Phase.fcAcq, .fcAcq),
   (Phase.fcCritExit, .fcCritExit), (Phase.spdWindow, .spdWindow), (Phase.spdFft, .spdFft), (Phase.spdMag, .spdMag),
   (Phase.spdPeak, .spdPeak), (Phase.calLookup, .calLookup), (Phase.fcPublish, .fcPublish)] ++
  [(Phase.waInitRun, .waInitRun), (Phase.waP1Start, .waP1Start), (Phase.waP1Sample, .waP1Sample),
   (Phase.waP1Finish, .waP1Finish), (Phase.waP2Sample, .waP2Sample), (Phase.waP2Finish, .waP2Finish),
   (Phase.waClassify, .waClassify), (Phase.waPubVpp, .waPubVpp), (Phase.waPubCls, .waPubCls)]

/-- Field op of CMDW, bits 7:0; bits 31:8 are ignored (R91). -/
def cmdOp (w : Word) : BitVec 8 := w.extractLsb' 0 8

/-- The row of a table whose code is c. -/
def findCode {n : Nat} (c : BitVec n) : List (BitVec n × Instr) → Option Instr
  | [] => none
  | (k, i) :: rest => if k = c then some i else findCode c rest

/-- The code a table gives an instruction. -/
def findInstr {n : Nat} (i : Instr) : List (BitVec n × Instr) → Option (BitVec n)
  | [] => none
  | (k, j) :: rest => if j = i then some k else findInstr i rest

/-- Decode a command word (R91, R92, R105). -/
def decodeCmd (w : Word) : Except DecodeError Instr :=
  match findCode (cmdOp w) commandTable with
  | some i => .ok i
  | none => .error (.reservedCommand (cmdOp w))

/-- Decode a phase code (R95, R105). -/
def decodePhase (p : BitVec 5) : Except DecodeError Instr :=
  match findCode p phaseTable with
  | some i => .ok i
  | none => .error (.reservedPhase p)

/-- The decoder, total on both formats. -/
def decode : CodeWord → Except DecodeError Instr
  | .cmdw w => decodeCmd w
  | .phase5 p => decodePhase p

/-- The encoder: an instruction's word, the ignored bits of a command word 0. Every instruction is in one of the two
tables (Laws/Decode.lean), so the last case is never taken. -/
def encode (i : Instr) : CodeWord :=
  match findInstr i commandTable with
  | some op => .cmdw (op.setWidth 32)
  | none =>
    match findInstr i phaseTable with
    | some p => .phase5 p
    | none => .phase5 Phase.idle

/-- The command a host script names (R104). -/
def Command.instr : Command → Instr
  | .fcInit => .fcInit
  | .fcUpdate => .fcUpdate
  | .waInit => .waInit
  | .waUpdate => .waUpdate

/-- The word WR CMD writes for it: 0x000000<op> (R104). -/
def Command.word : Command → Word
  | .fcInit => 0x00000001#32
  | .fcUpdate => 0x00000002#32
  | .waInit => 0x00000003#32
  | .waUpdate => 0x00000004#32

/-- The decoder on a row of spec/opcode_table.json: a PHASE5 row is the 5 bits of the PHASE register in one byte, whose
upper three bits do not exist and must be 0; a longer row is a CMDW word (log entry 21). -/
def decodeTableWord (nbits w : Nat) : Option Instr :=
  if nbits ≤ 8 then
    if w < 32 then (decodePhase (BitVec.ofNat 5 w)).toOption else none
  else (decodeCmd (BitVec.ofNat 32 w)).toOption

end Sys2Proof
end

