-- ==== Sys2Proof/Machine/State.lean ====
section
/-! DEFINITION. The state, plain data: every piece of state 10_state.md gives the block (R20), under the spec's own names,
and beside it what the block's environment holds (R16, R42): the clock reading, the schedule, the host's script, the
answers of the sample sources. -/

namespace Sys2Proof.Machine

/-- The classification code (R23, 30_encoding.md R94). All four 2-bit values are classes. -/
inductive WaveClass where
  | unrecognized
  | sine
  | square
  | triangle
deriving DecidableEq, Repr, Inhabited

/-- Its 2-bit code (R94). -/
def WaveClass.code : WaveClass → BitVec 2
  | .unrecognized => 0#2
  | .sine => 1#2
  | .square => 2#2
  | .triangle => 3#2

/-- What a host read returns: a word, or the Num itself of a Num register (R23, R97). -/
inductive ReadVal where
  | word (w : Word)
  | num (v : Num)
deriving DecidableEq, Repr

/-- One array of the sample block (R30, R40): (index, element) pairs, indices strictly rising, no element equal to what an
unlisted index reads as (zero, log entry 3). -/
abbrev NumMem := List (Nat × Num)

/-- SBLK_RE and SBLK_IM (R30). -/
structure SampleBlock where
  re : NumMem
  im : NumMem
deriving DecidableEq, Repr

/-- The seven stored flag bits (R27). BUSY and UNIT are derived (Flags.lean). -/
structure Flags where
  crit    : Bool
  fcReady : Bool
  waReady : Bool
  fcValid : Bool
  waValid : Bool
  clipf   : Bool
  found   : Bool
deriving DecidableEq, Repr

/-- The published outputs (R23): CORR_FREQ, VPP, WCLASS. -/
structure Published where
  corrFreq : Num
  vpp      : Num
  wclass   : WaveClass
deriving DecidableEq, Repr

/-- The frequency-path working registers (R28): RAW_FREQ, CORR_T. -/
structure FcRegs where
  rawFreq : Num
  corrT   : Num
deriving DecidableEq, Repr

/-- The waveform-path working registers (R29): MINC, MAXC, SUMV, CNT1, AVGV, VPP_T, DCOFF, SUMSQ, CNT2, RMS, CREST,
CLS_T. -/
structure WaRegs where
  minc  : Count10
  maxc  : Count10
  sumv  : Num
  cnt1  : Nat
  avgv  : Num
  vppT  : Num
  dcoff : Num
  sumsq : Num
  cnt2  : Nat
  rms   : Num
  crest : Num
  clsT  : WaveClass
deriving DecidableEq, Repr

/-- The environment (R15, R16, R42): not state of the block. -/
structure Env where
  /-- NOW, the clock reading in microseconds (60_exceptions.md R272) -/
  now       : Nat
  /-- who takes the next steps; past its end a free value decides (log entry 4) -/
  sched     : List Agent
  /-- the statements the host has still to execute (30_encoding.md R104) -/
  script    : List HostStmt
  /-- the next answers of RawRead; past its end a free value answers (log entry 5) -/
  rawQ      : List Nat
  /-- the next answers of ConvExchange; past its end a free value answers (log entry 5) -/
  convQ     : List Count10
  /-- RawRead calls made so far (20_memory.md R67; log entry 24) -/
  rawCalls  : Nat
  /-- ConvExchange calls made so far (R67; log entry 24) -/
  convCalls : Nat
  /-- free values drawn so far by host reads and by the schedule: the MODEL's own field (log entry 8) -/
  draws     : Nat
  /-- what the host's last RegRead returned (log entry 19) -/
  lastRead  : Option ReadVal
deriving DecidableEq, Repr

/-- The machine. -/
structure State where
  /-- the parameters, the calibration ROM among them (R31, R42); no step writes them -/
  cfg   : Params
  /-- PHASE (R24) -/
  phase : BitVec 5
  /-- IDX (R25) -/
  idx   : Nat
  /-- T_MARK (R26) -/
  tMark : Nat
  flags : Flags
  pub   : Published
  fc    : FcRegs
  wa    : WaRegs
  blk   : SampleBlock
  env   : Env
deriving DecidableEq, Repr

/-- Why the machine stops with a fault. The block itself raises no exception (60_exceptions.md R260). -/
inductive Fault where
  /-- FC_ACQ with IDX outside 0..N-1, an element SBLK_RE and SBLK_IM do not have (20_memory.md R62). No reachable state has
  such an IDX, which Safety.Inv says (log entry 12). Safe. -/
  | noSuchElement (i : Nat)
deriving DecidableEq, Repr

/-- Why the model gives a step no meaning. -/
inductive Refusal where
  /-- an instruction without a meaning yet: exec's arm for it. Safe. -/
  | notModelled (mnemonic : String)
  /-- the sequencer at a reserved phase code, for which no behaviour is defined and which no run reaches (30_encoding.md
  R102 (d); log entry 15). Safe. -/
  | reservedPhase (code : BitVec 5)
  /-- FC_ACQ when the listed RawRead answer is above FC_MAXCOUNT, outside the source's contract and given no meaning
  (41_frequency_acquisition.md R141 (f), 93_implementation_defined.md U4; log entry 14). Safe. -/
  | rawAnswerOutOfRange (c : Nat)
deriving DecidableEq, Repr

abbrev Out := Host.Outcome State Fault Refusal

/-- The machine right after reset (10_state.md R45, 70_reset_and_hazards.md R290): PHASE idle, the flags CRIT, READY and
VALID 0. The registers the spec leaves unspecified hold zero (log entry 3); a host read does not show it (log entry 7).
The parameters are those of Params.test (log entry 2). -/
def State.reset : State where
  cfg := Params.test
  phase := Phase.idle
  idx := 0
  tMark := 0
  flags := ⟨false, false, false, false, false, false, false⟩
  pub := ⟨Num.zero, Num.zero, .unrecognized⟩
  fc := ⟨Num.zero, Num.zero⟩
  wa := ⟨0, 0, Num.zero, 0, Num.zero, Num.zero, Num.zero, Num.zero, 0, Num.zero, Num.zero, .unrecognized⟩
  blk := ⟨[], []⟩
  env := ⟨0, [], [], [], [], 0, 0, 0, none⟩

end Sys2Proof.Machine
end

