-- ==== Sys2Proof/Machine/Ops.lean ====
section
/-! DEFINITION. The operations over the sample-block memories and the registers that the meanings share. The block has no
trap entry and no trap return (60_exceptions.md R260, R268, R269), so there is no operation that takes an exception: the
nearest thing the spec gives is the acceptance of a command (R268), and reset, which ends whatever is running. -/

namespace Sys2Proof.Machine

namespace NumMem

/-- Element i; an unlisted element reads as zero (log entry 3). -/
def read : NumMem → Nat → Num
  | [], _ => Num.zero
  | (j, v) :: rest, i => if j = i then v else read rest i

/-- Write element i, keeping the canonical form. -/
def write : NumMem → Nat → Num → NumMem
  | [], i, v => if v = Num.zero then [] else [(i, v)]
  | (j, w) :: rest, i, v =>
    if i < j then (if v = Num.zero then (j, w) :: rest else (i, v) :: (j, w) :: rest)
    else if i = j then (if v = Num.zero then rest else (i, v) :: rest)
    else (j, w) :: write rest i v

/-- The array whose elements from i on are f i, f (i + 1), …, as many as count, in canonical form. -/
def fillFrom (f : Nat → Num) : Nat → Nat → NumMem
  | 0, _ => []
  | count + 1, i => if f i = Num.zero then fillFrom f count (i + 1) else (i, f i) :: fillFrom f count (i + 1)

/-- The array of elements f 0 .. f (n - 1): the whole block rewritten in one step (20_memory.md R65). -/
def fill (n : Nat) (f : Nat → Num) : NumMem := fillFrom f n 0

/-- The canonical form: indices from lo on, strictly rising and below n, no element zero. -/
def wfFrom (n : Nat) : Nat → NumMem → Bool
  | _, [] => true
  | lo, (j, v) :: rest => decide (lo ≤ j) && decide (j < n) && decide (v ≠ Num.zero) && wfFrom n (j + 1) rest

end NumMem

/-- The canonical form of an array of n elements (R30, R40). -/
def Memory.wf (n : Nat) (m : NumMem) : Bool := NumMem.wfFrom n 0 m

/-- PHASE <- p (00_scope.md R13). -/
def State.goto (s : State) (p : BitVec 5) : State := { s with phase := p }

/-- Command acceptance (40_host_commands.md R120): accepted, PHASE becomes the unit's first phase and nothing else
changes; dropped when the block is busy or the unit is not ready. -/
def accept (ready : Bool) (target : BitVec 5) (s : State) : Out :=
  .next (if s.phase = Phase.idle ∧ ready = true then s.goto target else s)

/-- Reset (70_reset_and_hazards.md R290 to R292): the block as State.reset has it, the parameters and the environment
untouched (log entry 22). -/
def resetBlock (s : State) : State := { State.reset with cfg := s.cfg, env := s.env }

/-- CLK: NOW <- NOW + d with d = more + 1 (60_exceptions.md R272). -/
def tick (more : Nat) (s : State) : State := { s with env := { s.env with now := s.env.now + (more + 1) } }

/-- Σ of f 0 .. f (n - 1), for the transform (42_spectral_peak.md R161). DESIGN CHOICE (log entry 25): R161 (e) leaves the
order of a non-exact instance's additions open; here they go in ascending order from zero, ((0 + f 0) + f 1) + …. -/
def sumTo (f : Nat → Num) : Nat → Num
  | 0 => Num.zero
  | n + 1 => Num.add (sumTo f n) (f n)

end Sys2Proof.Machine
end

