-- ==== Sys2Proof/Machine/Operands.lean ====
section
/-! DEFINITION. The operands. No operation has an operand field (30_encoding.md R101): each reads fixed registers, the
sample block, the calibration ROM, the clock, and the two sample sources. The sources are the environment's: an answer is
the next one the state lists, or a free value (00_scope.md R15, 93_implementation_defined.md U13). -/

namespace Sys2Proof.Machine

/-- RE[n] (R13). -/
def State.reAt (s : State) (n : Nat) : Num := s.blk.re.read n

/-- IM[n] (R13). -/
def State.imAt (s : State) (n : Nat) : Num := s.blk.im.read n

/-- CAL_MEAS[i] (R31). -/
def calMeas (c : Params) (i : Nat) : Num := (c.cal.getD i default).meas

/-- CAL_TRUE[i] (R31). -/
def calTrue (c : Params) (i : Nat) : Num := (c.cal.getD i default).tru

/-- L (R7). -/
def calLen (c : Params) : Nat := c.cal.length

/-- RawRead() (R15): one raw count in 0..FC_MAXCOUNT and the state with the call made; an answer outside the contract is
refused (93_implementation_defined.md U4). -/
def rawRead (s : State) : Except Refusal (Nat × State) :=
  match s.env.rawQ with
  | [] =>
    .ok (Config.freeRaw s.env.rawCalls % (s.cfg.fcMaxCount + 1), { s with env := { s.env with rawCalls := s.env.rawCalls + 1 } })
  | c :: rest =>
    if c ≤ s.cfg.fcMaxCount then .ok (c, { s with env := { s.env with rawQ := rest, rawCalls := s.env.rawCalls + 1 } })
    else .error (.rawAnswerOutOfRange c)

/-- ConvExchange(ch) (R15): one 10-bit sample of channel ch and the state with the call made. -/
def convExchange (ch : BitVec 8) (s : State) : Count10 × State :=
  match s.env.convQ with
  | [] => (Config.freeConv s.env.convCalls ch, { s with env := { s.env with convCalls := s.env.convCalls + 1 } })
  | c :: rest => (c, { s with env := { s.env with convQ := rest, convCalls := s.env.convCalls + 1 } })

/-- ConvRead(ch) (44_waveform_statistics.md R210): a channel above 7 reads zero and no exchange takes place. -/
def convRead (ch : BitVec 8) (s : State) : Count10 × State :=
  if 7 < ch.toNat then (0, s) else convExchange ch s

/-- FC_RATIO (R5): computed once, from FC_VFS and FC_MAXCOUNT. -/
def fcRatio (c : Params) : Num := Num.div c.fcVfs (Num.num c.fcMaxCount)

/-- The voltage of a raw count: num(c) × FC_RATIO (41_frequency_acquisition.md R141). -/
def rawVolt (c : Params) (count : Nat) : Num := Num.mul (Num.num count) (fcRatio c)

/-- Volt(c) = num(c) × V_REF / num(MAX_COUNT_SCALE) (44_waveform_statistics.md R213); taken of a natural number, as
MAXC - MINC is one too (R214). -/
def volt (c : Params) (count : Nat) : Num := Num.div (Num.mul (Num.num count) c.vRef) (Num.num c.maxCountScale)

/-- NUM_ENCODE(v) of the VALUE v that a register's content has in the build's instance (30_encoding.md R97). SPECIFICATION
ONLY: the host is handed the Num, and no step needs its bits (log entry 9). -/
noncomputable def numImage (c : Params) (v : Num) : Word :=
  match c.numerics with
  | .reference => Config.numEncode v.toReal
  | .other k => Config.numEncodeOther k (v.eval (Config.numerics k))

/-- The image of a read value on the 32-bit host port (R97). SPECIFICATION ONLY. -/
noncomputable def ReadVal.image (c : Params) : ReadVal → Word
  | .word w => w
  | .num v => numImage c v

end Sys2Proof.Machine
end

