-- ==== Sys2Proof/Machine/Flags.lean ====
section
/-! DEFINITION. The flags: the derived bits BUSY and UNIT, the STATUS word, the output IRQ_SUSPEND, and the tests that set
or read a flag or hold a phase (10_state.md R22, R27). There are no arithmetic condition codes. -/

namespace Sys2Proof.Machine

/-- BUSY (R27): PHASE is not IDLE. -/
def busy (s : State) : Bool := decide (s.phase ≠ Phase.idle)

/-- UNIT (R22, R27): bit 4 of PHASE while BUSY, else 0. -/
def unit (s : State) : Bool := busy s && s.phase.getLsbD 4

/-- STATUS (R22, 30_encoding.md R93): WA_VALID ++ FC_VALID ++ WA_READY ++ FC_READY ++ CRIT ++ UNIT ++ BUSY, zero-extended. -/
def statusWord (s : State) : Word :=
  (BitVec.ofBool s.flags.waValid ++ BitVec.ofBool s.flags.fcValid ++ BitVec.ofBool s.flags.waReady ++
    BitVec.ofBool s.flags.fcReady ++ BitVec.ofBool s.flags.crit ++ BitVec.ofBool (unit s) ++ BitVec.ofBool (busy s)).setWidth 32

/-- IRQ_SUSPEND, the block's one output: equal to CRIT at all times (60_exceptions.md R266; log entry 23). -/
def irqSuspend (s : State) : Bool := s.flags.crit

/-- The guard of FC_ACQ (41_frequency_acquisition.md R141): IDX = 0, or T_S has passed since the previous sample. -/
def acqEnabled (s : State) : Bool := decide (s.idx = 0) || decide (s.cfg.tS ≤ s.env.now - s.tMark)

/-- The clipping test (44_waveform_statistics.md R212): within the margin of either rail, both ends inclusive. -/
def clips (c : Params) (count : Count10) : Bool :=
  decide (count.val ≤ c.clipMargin) || decide (convMax - c.clipMargin ≤ count.val)

/-- A pass window is over: NOW - T_MARK >= window (R212, R215). -/
def windowOver (window : Nat) (s : State) : Bool := decide (window ≤ s.env.now - s.tMark)

/-- CLIPF = 1 and MINC <= CLIP_MARGIN: clipped at the low rail (R214). -/
def clippedLow (s : State) : Bool := s.flags.clipf && decide (s.wa.minc.val ≤ s.cfg.clipMargin)

end Sys2Proof.Machine
end

