-- ==== Sys2Proof/Machine/Acquisition.lean ====
section
/-! DEFINITION. The frequency path's acquisition (41_frequency_acquisition.md). -/

namespace Sys2Proof.Machine

/-- FC_CRIT_ENTER (R140): the critical section opens. -/
def execFcCritEnter (s : State) : Out :=
  .next { s with flags := { s.flags with crit := true }, idx := 0, phase := Phase.fcAcq }

/-- One sample of FC_ACQ, the count c drawn (R141): the voltage into RE[IDX], zero into IM[IDX], the instant into T_MARK. -/
def takeSample (c : Nat) (s : State) : State :=
  let last := decide (s.idx + 1 = s.cfg.n)
  { s with
    blk := ⟨s.blk.re.write s.idx (rawVolt s.cfg c), s.blk.im.write s.idx Num.zero⟩
    tMark := s.env.now
    phase := if last then Phase.fcCritExit else s.phase
    idx := if last then s.idx else s.idx + 1 }

/-- FC_ACQ (R141). While the guard is false the sequencer has no enabled step: nothing changes (log entry 11). -/
def execFcAcq (s : State) : Out :=
  if acqEnabled s then
    if s.idx < s.cfg.n then
      match rawRead s with
      | .ok (c, t) => .next (takeSample c t)
      | .error r => .refused r
    else .fault (.noSuchElement s.idx)
  else .next s

/-- FC_CRIT_EXIT (R142): the critical section closes. -/
def execFcCritExit (s : State) : Out :=
  .next { s with flags := { s.flags with crit := false }, phase := Phase.spdWindow }

end Sys2Proof.Machine
end

