-- ==== Sys2Proof/Machine/Spectral.lean ====
section
/-! DEFINITION. The spectral peak detector (42_spectral_peak.md): window, transform, magnitude, peak, each a function on
the block as it stands before the step (20_memory.md R65), and the four micro-operations over them. -/

namespace Sys2Proof.Machine

/-- w[n] = 0.5 × (1 - cos(2 × π × num(n) / num(N - 1))), the symmetric Hann window (R160). The numerals 1 and 2 are num,
0.5 a decimal literal: for the first two a DESIGN CHOICE (log entry 26). -/
def hann (n i : Nat) : Num :=
  Num.mul (Num.dec 5 10) (Num.sub (Num.num 1) (Num.cos ⟨[i], n - 1⟩))

/-- Window(x)[i] (R160). -/
def window (n : Nat) (x : Nat → Num) (i : Nat) : Num := Num.mul (x i) (hann n i)

/-- 2 π k i / N, the angle of the transform's term (R161), read as 2 × π × num(k) × num(i) / num(N): DEDUCED for a
non-exact instance (log entry 26). -/
def twiddle (n k i : Nat) : Angle := ⟨[k, i], n⟩

/-- a[k] = Σ ( RE[i] cos(2π k i / N) + IM[i] sin(2π k i / N) ) (R161); the order of Σ: log entry 25. -/
def transformRe (n : Nat) (x y : Nat → Num) (k : Nat) : Num :=
  sumTo (fun i => Num.add (Num.mul (x i) (Num.cos (twiddle n k i))) (Num.mul (y i) (Num.sin (twiddle n k i)))) n

/-- b[k] = Σ ( IM[i] cos(2π k i / N) - RE[i] sin(2π k i / N) ) (R161); the order of Σ: log entry 25. -/
def transformIm (n : Nat) (x y : Nat → Num) (k : Nat) : Num :=
  sumTo (fun i => Num.sub (Num.mul (y i) (Num.cos (twiddle n k i))) (Num.mul (x i) (Num.sin (twiddle n k i)))) n

/-- Magnitude(a, b)[k] = sqrt(a[k]² + b[k]²) (R162). -/
def magnitude (a b : Nat → Num) (k : Nat) : Num :=
  Num.sqrt (Num.add (Num.mul (a k) (a k)) (Num.mul (b k) (b k)))

/-- The ascending scan of R163: `steps` bins from k on, kmax the greatest so far; strictly greater, so a tie keeps the
lower bin. a > b is read b < a, NUMERICS having no other comparisons than < and <= (R10): DEDUCED (log entry 26). -/
def peakScan (c : Params) (m : Nat → Num) : Nat → Nat → Nat → Nat
  | 0, _, kmax => kmax
  | steps + 1, k, kmax => peakScan c m steps (k + 1) (if c.lt (m kmax) (m k) then k else kmax)

/-- PeakBin(m) (R163). -/
def peakBin (c : Params) (m : Nat → Num) : Nat := peakScan c m (c.kMax - c.kMin) (c.kMin + 1) c.kMin

/-- PeakFreq(m) = num(PeakBin(m)) × F_S / num(N) (R163). -/
def peakFreq (c : Params) (m : Nat → Num) : Num :=
  Num.div (Num.mul (Num.num (peakBin c m)) c.fS) (Num.num c.n)

/-- SPD_WINDOW (R160): IM untouched. -/
def execSpdWindow (s : State) : Out :=
  .next { s with blk := { s.blk with re := NumMem.fill s.cfg.n (window s.cfg.n s.reAt) }, phase := Phase.spdFft }

/-- SPD_FFT (R161). -/
def execSpdFft (s : State) : Out :=
  .next { s with
    blk := ⟨NumMem.fill s.cfg.n (transformRe s.cfg.n s.reAt s.imAt), NumMem.fill s.cfg.n (transformIm s.cfg.n s.reAt s.imAt)⟩
    phase := Phase.spdMag }

/-- SPD_MAG (R162): IM untouched. -/
def execSpdMag (s : State) : Out :=
  .next { s with blk := { s.blk with re := NumMem.fill s.cfg.n (magnitude s.reAt s.imAt) }, phase := Phase.spdPeak }

/-- SPD_PEAK (R163). -/
def execSpdPeak (s : State) : Out :=
  .next { s with fc := { s.fc with rawFreq := peakFreq s.cfg s.reAt }, phase := Phase.calLookup }

end Sys2Proof.Machine
end

