-- ==== Sys2Proof/Machine/Calibration.lean ====
section
/-! DEFINITION. The calibration interpolator and the publication of the frequency (43_calibration.md), and FcResult, the
whole frequency update as one function (40_host_commands.md R129). -/

namespace Sys2Proof.Machine

/-- raw lies in the bracket of two consecutive entries, both ends inclusive (R190). -/
def inBracket (c : Params) (lo hi : CalEntry) (raw : Num) : Bool := c.le lo.meas raw && c.le raw hi.meas

/-- The interpolation of R190: multiply, divide, add. -/
def interpolate (lo hi : CalEntry) (raw : Num) : Num :=
  Num.add lo.tru
    (Num.div (Num.mul (Num.sub raw lo.meas) (Num.sub hi.tru lo.tru)) (Num.sub hi.meas lo.meas))

/-- The ascending scan: the first bracket that contains raw wins; none when no bracket does (R190). -/
def calScan (c : Params) : List CalEntry → Num → Option Num
  | lo :: hi :: rest, raw => if inBracket c lo hi raw then some (interpolate lo hi raw) else calScan c (hi :: rest) raw
  | _, _ => none

/-- Calibrate(raw): outside every bracket, raw itself (R190). -/
def calibrate (c : Params) (raw : Num) : Num := (calScan c c.cal raw).getD raw

/-- CAL_LOOKUP (R191). -/
def execCalLookup (s : State) : Out :=
  .next { s with
    flags := { s.flags with found := (calScan s.cfg s.cfg.cal s.fc.rawFreq).isSome }
    fc := { s.fc with corrT := calibrate s.cfg s.fc.rawFreq }
    phase := Phase.fcPublish }

/-- FC_PUBLISH (R192). -/
def execFcPublish (s : State) : Out :=
  .next { s with
    pub := { s.pub with corrFreq := s.fc.corrT }
    flags := { s.flags with fcValid := true }
    phase := Phase.idle }

/-- FcResult(c) = Calibrate(PeakFreq(Magnitude(Transform(Window(Volts(c)))))) (R129), of the counts c 0 .. c (N - 1).
The imaginary part of the windowed block is zero (41_frequency_acquisition.md R143). -/
def fcResult (c : Params) (counts : Nat → Nat) : Num :=
  let x := window c.n fun i => rawVolt c (counts i)
  let y := fun _ => Num.zero
  calibrate c (peakFreq c (magnitude (transformRe c.n x y) (transformIm c.n x y)))

end Sys2Proof.Machine
end

