-- ==== Sys2Proof/Machine/Statistics.lean ====
section
/-! DEFINITION. The waveform statistics unit (44_waveform_statistics.md): the two sampling passes. -/

namespace Sys2Proof.Machine

/-- The peak-to-peak voltage of R214, on the clipped branch and on the other. The numeral 2 is num 2 (log entry 26). -/
def vppOf (c : Params) (clipped : Bool) (minc maxc : Count10) : Num :=
  if clipped then Num.mul (Num.num 2) (volt c maxc.val) else volt c (maxc.val - minc.val)

/-- The DC offset of R214: half the estimated peak-to-peak on the clipped branch, else the average. The numeral 2 is num 2
(log entry 26). -/
def dcoffOf (clipped : Bool) (vpp avg : Num) : Num := if clipped then Num.div vpp (Num.num 2) else avg

/-- RMS <- sqrt(SUMSQ / num(CNT2)) (R216). -/
def rmsOf (sumsq : Num) (cnt2 : Nat) : Num := Num.sqrt (Num.div sumsq (Num.num cnt2))

/-- CREST (R216): 0 when RMS is strictly below the noise floor, else (VPP_T / 2) / RMS. The numerals 0 and 2 are num
(log entry 26). -/
def crestOf (c : Params) (vpp rms : Num) : Num :=
  if c.lt rms c.noiseFloor then Num.zero else Num.div (Num.div vpp (Num.num 2)) rms

/-- The square of a sample's deviation: d × d with d = Volt(c) - DCOFF (R215). -/
def sqDev (c : Params) (dcoff : Num) (count : Count10) : Num :=
  let d := Num.sub (volt c count.val) dcoff
  Num.mul d d

/-- WA_P1_START (R211). -/
def execWaP1Start (s : State) : Out :=
  .next { s with
    wa := { s.wa with minc := 1023, maxc := 0, sumv := Num.zero, cnt1 := 0 }
    flags := { s.flags with clipf := false }
    tMark := s.env.now
    phase := Phase.waP1Sample }

/-- One sample of pass 1, the count c read (R212). -/
def tally1 (c : Count10) (s : State) : State :=
  { s with
    wa := { s.wa with minc := min s.wa.minc c, maxc := max s.wa.maxc c, sumv := Num.add s.wa.sumv (volt s.cfg c.val), cnt1 := s.wa.cnt1 + 1 }
    flags := { s.flags with clipf := s.flags.clipf || clips s.cfg c }
    phase := if windowOver s.cfg.tPass1 s then Phase.waP1Finish else s.phase }

/-- WA_P1_SAMPLE (R212): always enabled; the window is tested after the sample. -/
def execWaP1Sample (s : State) : Out := .next (tally1 (convRead waChannel s).1 (convRead waChannel s).2)

/-- WA_P1_FINISH (R214). -/
def execWaP1Finish (s : State) : Out :=
  let avg := Num.div s.wa.sumv (Num.num s.wa.cnt1)
  let vpp := vppOf s.cfg (clippedLow s) s.wa.minc s.wa.maxc
  .next { s with
    wa := { s.wa with avgv := avg, vppT := vpp, dcoff := dcoffOf (clippedLow s) vpp avg, sumsq := Num.zero, cnt2 := 0 }
    tMark := s.env.now
    phase := Phase.waP2Sample }

/-- One sample of pass 2, the count c read (R215). -/
def tally2 (c : Count10) (s : State) : State :=
  { s with
    wa := { s.wa with sumsq := Num.add s.wa.sumsq (sqDev s.cfg s.wa.dcoff c), cnt2 := s.wa.cnt2 + 1 }
    phase := if windowOver s.cfg.tPass2 s then Phase.waP2Finish else s.phase }

/-- WA_P2_SAMPLE (R215). -/
def execWaP2Sample (s : State) : Out := .next (tally2 (convRead waChannel s).1 (convRead waChannel s).2)

/-- WA_P2_FINISH (R216). -/
def execWaP2Finish (s : State) : Out :=
  let rms := rmsOf s.wa.sumsq s.wa.cnt2
  .next { s with wa := { s.wa with rms := rms, crest := crestOf s.cfg s.wa.vppT rms }, phase := Phase.waClassify }

end Sys2Proof.Machine
end

