-- ==== Sys2Proof/Machine/Classifier.lean ====
section
/-! DEFINITION. The crest-factor comparator and the publication of the waveform outputs (45_classifier.md), and WaResult,
the whole waveform update as one function (40_host_commands.md R130). -/

namespace Sys2Proof.Machine

/-- A band of crest factors, both ends inclusive (R240). -/
def inBand (c : Params) (lo hi cf : Num) : Bool := c.le lo cf && c.le cf hi

/-- Classify(cf) (R240): sine, square, triangle in that order, first match wins. -/
def classify (c : Params) (cf : Num) : WaveClass :=
  if inBand c c.sineLo c.sineHi cf then .sine
  else if inBand c c.squareLo c.squareHi cf then .square
  else if inBand c c.triLo c.triHi cf then .triangle
  else .unrecognized

/-- WA_CLASSIFY (R241). -/
def execWaClassify (s : State) : Out :=
  .next { s with wa := { s.wa with clsT := classify s.cfg s.wa.crest }, phase := Phase.waPubVpp }

/-- WA_PUB_VPP (R242). -/
def execWaPubVpp (s : State) : Out :=
  .next { s with pub := { s.pub with vpp := s.wa.vppT }, phase := Phase.waPubCls }

/-- WA_PUB_CLS (R243). -/
def execWaPubCls (s : State) : Out :=
  .next { s with
    pub := { s.pub with wclass := s.wa.clsT }
    flags := { s.flags with waValid := true }
    phase := Phase.idle }

/-- The least count of a pass; the greatest; some count clips (R214). -/
def minOf (p : List Count10) : Count10 := p.foldl min 1023
def maxOf (p : List Count10) : Count10 := p.foldl max 0
def anyClips (c : Params) (p : List Count10) : Bool := p.foldl (fun f k => f || clips c k) false

/-- AVGV of a pass-1 sequence (R214). -/
def averageOf (c : Params) (p : List Count10) : Num :=
  Num.div (p.foldl (fun v k => Num.add v (volt c k.val)) Num.zero) (Num.num p.length)

/-- Envelope(p1) = (VPP_T, DCOFF) (R214). -/
def envelope (c : Params) (p : List Count10) : Num × Num :=
  let clipped := anyClips c p && decide ((minOf p).val ≤ c.clipMargin)
  let vpp := vppOf c clipped (minOf p) (maxOf p)
  (vpp, dcoffOf clipped vpp (averageOf c p))

/-- Crest(vpp, dc, p2) (R216). -/
def crestFactor (c : Params) (vpp dc : Num) (p : List Count10) : Num :=
  crestOf c vpp (rmsOf (p.foldl (fun v k => Num.add v (sqDev c dc k)) Num.zero) p.length)

/-- WaResult(p1, p2) = (vpp, Classify(cf)) (R130). -/
def waResult (c : Params) (p1 p2 : List Count10) : Num × WaveClass :=
  ((envelope c p1).1, classify c (crestFactor c (envelope c p1).1 (envelope c p1).2 p2))

end Sys2Proof.Machine
end

