-- ==== Sys2Proof/Machine/HostCommands.lean ====
section
/-! DEFINITION. The four host commands and the phases outside the datapaths (40_host_commands.md). -/

namespace Sys2Proof.Machine

/-- FC_INIT (R121): accepted whenever the block is idle. -/
def execFcInit (s : State) : Out := accept true Phase.fcInitRun s

/-- FC_UPDATE (R122): accepted when the block is idle and FC_READY = 1. -/
def execFcUpdate (s : State) : Out := accept s.flags.fcReady Phase.fcCritEnter s

/-- WA_INIT (R123): accepted whenever the block is idle. -/
def execWaInit (s : State) : Out := accept true Phase.waInitRun s

/-- WA_UPDATE (R124): accepted when the block is idle and WA_READY = 1. -/
def execWaUpdate (s : State) : Out := accept s.flags.waReady Phase.waP1Start s

/-- IDLE (R128): the sequencer has no enabled step; nothing changes (log entry 11). -/
def execIdle (s : State) : Out := .next s

/-- FC_INIT_RUN (R125). -/
def execFcInitRun (s : State) : Out :=
  .next { s with flags := { s.flags with fcReady := true }, phase := Phase.idle }

/-- WA_INIT_RUN (R126). -/
def execWaInitRun (s : State) : Out :=
  .next { s with flags := { s.flags with waReady := true }, phase := Phase.idle }

end Sys2Proof.Machine
end

