-- ==== Sys2Proof/Machine/Dispatch.lean ====
section
/-! DEFINITION. exec: one arm per constructor of Instr, each one direct call of its meaning. -/

namespace Sys2Proof.Machine

def exec (i : Instr) (s : State) : Host.Outcome State Fault Refusal :=
  match i with
  | .fcInit => Sys2Proof.Machine.execFcInit s
  | .fcUpdate => Sys2Proof.Machine.execFcUpdate s
  | .waInit => Sys2Proof.Machine.execWaInit s
  | .waUpdate => Sys2Proof.Machine.execWaUpdate s
  | .idle => Sys2Proof.Machine.execIdle s
  | .fcInitRun => Sys2Proof.Machine.execFcInitRun s
  | .fcCritEnter => Sys2Proof.Machine.execFcCritEnter s
  | .fcAcq => Sys2Proof.Machine.execFcAcq s
  | .fcCritExit => Sys2Proof.Machine.execFcCritExit s
  | .spdWindow => Sys2Proof.Machine.execSpdWindow s
  | .spdFft => Sys2Proof.Machine.execSpdFft s
  | .spdMag => Sys2Proof.Machine.execSpdMag s
  | .spdPeak => Sys2Proof.Machine.execSpdPeak s
  | .calLookup => Sys2Proof.Machine.execCalLookup s
  | .fcPublish => Sys2Proof.Machine.execFcPublish s
  | .waInitRun => Sys2Proof.Machine.execWaInitRun s
  | .waP1Start => Sys2Proof.Machine.execWaP1Start s
  | .waP1Sample => Sys2Proof.Machine.execWaP1Sample s
  | .waP1Finish => Sys2Proof.Machine.execWaP1Finish s
  | .waP2Sample => Sys2Proof.Machine.execWaP2Sample s
  | .waP2Finish => Sys2Proof.Machine.execWaP2Finish s
  | .waClassify => Sys2Proof.Machine.execWaClassify s
  | .waPubVpp => Sys2Proof.Machine.execWaPubVpp s
  | .waPubCls => Sys2Proof.Machine.execWaPubCls s

end Sys2Proof.Machine
end

