-- ==== Sys2Proof/Machine/Agents.lean ====
section
/-! DEFINITION. The agents (00_scope.md R16): the sequencer executes the micro-operation PHASE names, the clock advances
NOW, the host executes the next statement of its script through RegRead and RegWrite (20_memory.md R60). Each call is one
atomic step; the schedule in the state says who moves next. -/

namespace Sys2Proof.Machine

/-- VPP has been written since reset: WA_VALID is set, or the step of its first publication is done and WA_PUB_CLS is
next (45_classifier.md R242, R243; log entry 7). -/
def vppSpecified (s : State) : Bool := s.flags.waValid || decide (s.phase = Phase.waPubCls)

/-- What a read of register idx returns (R64) and how many free values it draws: an unspecified published output
returns any value (93_implementation_defined.md U1). -/
def hostRead (idx : BitVec 3) (s : State) : ReadVal × Nat :=
  if idx = 1#3 then (.word (statusWord s), 0)
  else if idx = 2#3 then
    if s.flags.fcValid then (.num s.pub.corrFreq, 0) else (.num (Config.freeNum s.env.draws), 1)
  else if idx = 3#3 then
    if vppSpecified s then (.num s.pub.vpp, 0) else (.num (Config.freeNum s.env.draws), 1)
  else if idx = 4#3 then
    if s.flags.waValid then (.word (s.pub.wclass.code.setWidth 32), 0) else (.word (Config.freeWord s.env.draws), 1)
  else (.word 0, 0)

/-- RegRead(idx): the host learns the value; the block does not change (R60). -/
def regRead (idx : BitVec 3) (s : State) : State :=
  { s with env := { s.env with lastRead := some (hostRead idx s).1, draws := s.env.draws + (hostRead idx s).2 } }

/-- RegWrite(idx, w): index 0 presents a command; a reserved code is dropped (40_host_commands.md R127) and a write to any
other index is ignored (R60; log entry 20). -/
def regWrite (idx : BitVec 3) (w : Word) (s : State) : Out :=
  if idx = 0#3 then
    match decodeCmd w with
    | .ok i => exec i s
    | .error _ => .next s
  else .next s

/-- The script after the host has executed its first statement (30_encoding.md R104): CALL is WR CMD and then WAIT_IDLE;
WAIT_IDLE stays until the STATUS it reads has bit 0 = 0 (log entry 18). -/
def scriptAfter (s : State) : List HostStmt :=
  match s.env.script with
  | [] => []
  | .call _ :: rest => .waitIdle :: rest
  | .waitIdle :: rest => if (statusWord s).getLsbD 0 then .waitIdle :: rest else rest
  | _ :: rest => rest

/-- HOST: one statement. A host with no statement left does nothing. -/
def hostStep (s : State) : Out :=
  let t := { s with env := { s.env with script := scriptAfter s } }
  match s.env.script with
  | [] => .next s
  | .write idx w :: _ => regWrite idx w t
  | .read idx :: _ => .next (regRead idx t)
  | .waitIdle :: _ => .next (regRead 1#3 t)
  | .call c :: _ => regWrite 0#3 c.word t
  | .reset :: _ => .next (resetBlock t)

/-- SEQ: the micro-operation PHASE names. -/
def seqStep (s : State) : Out :=
  match decodePhase s.phase with
  | .ok i => exec i s
  | .error _ => .refused (.reservedPhase s.phase)

/-- One step of the given agent. -/
def agentStep (a : Agent) (s : State) : Out :=
  match a with
  | .seq => seqStep s
  | .clk more => .next (tick more s)
  | .host => hostStep s

/-- Who moves next, and the state with that choice used up. -/
def nextAgent (s : State) : Agent × State :=
  match s.env.sched with
  | [] => (Config.freeAgent s.env.draws, { s with env := { s.env with draws := s.env.draws + 1 } })
  | a :: rest => (a, { s with env := { s.env with sched := rest } })

/-- The state in which the given agent moves next. -/
def State.schedule (s : State) (a : Agent) : State := { s with env := { s.env with sched := a :: s.env.sched } }

/-- Place a table word where the next step finds it (log entry 10): a phase code in PHASE with the sequencer next, a
command word as the host's next write to CMD with the host next. -/
def placeWord (s : State) (nbits w : Nat) : State :=
  if nbits ≤ 8 then ({ s with phase := BitVec.ofNat 5 w }).schedule .seq
  else ({ s with env := { s.env with script := .write 0#3 (BitVec.ofNat 32 w) :: s.env.script } }).schedule .host

end Sys2Proof.Machine
end

