-- ==== Sys2Proof/Machine/Step.lean ====
section
/-! DEFINITION. One step of the whole machine, and the placing of an instruction where the next step runs it. -/

namespace Sys2Proof.Machine

/-- The next agent takes its step. -/
def step (s : State) : Host.Outcome State Fault Refusal := agentStep (nextAgent s).1 (nextAgent s).2

/-- s with the instruction of a table row placed so that the very next step runs it. -/
def State.withFetchWord (s : State) (nbits w : Nat) : State := placeWord s nbits w

end Sys2Proof.Machine
end

