-- ==== Sys2Proof/Safety.lean ====
section
/-! DEFINITION. What counts as a good state and a good run, in the terms claims use: the invariant of every reachable
state, the contract of the environment (60_exceptions.md R262), the end of a run (70_reset_and_hazards.md R297), the
successor relation of the phases (30_encoding.md R96), and a run of one update with the samples it draws. -/

namespace Sys2Proof.Safety
open Machine

/-- The phases of one FC_UPDATE (R122). -/
def fcPhases : List (BitVec 5) :=
  [Phase.fcCritEnter, Phase.fcAcq, Phase.fcCritExit, Phase.spdWindow, Phase.spdFft, Phase.spdMag, Phase.spdPeak,
   Phase.calLookup, Phase.fcPublish]

/-- The phases of one WA_UPDATE (R124). -/
def waPhases : List (BitVec 5) :=
  [Phase.waP1Start, Phase.waP1Sample, Phase.waP1Finish, Phase.waP2Sample, Phase.waP2Finish, Phase.waClassify,
   Phase.waPubVpp, Phase.waPubCls]

/-- Every phase code of R95. -/
def phases : List (BitVec 5) := Phase.idle :: Phase.fcInitRun :: Phase.waInitRun :: fcPhases ++ waPhases

/-- The steps of the sequencer from phase p to phase q (R96), the holding phases among them. -/
def successors : List (BitVec 5 × BitVec 5) :=
  [(Phase.idle, Phase.idle), (Phase.fcInitRun, Phase.idle), (Phase.fcCritEnter, Phase.fcAcq), (Phase.fcAcq, Phase.fcAcq),
   (Phase.fcAcq, Phase.fcCritExit), (Phase.fcCritExit, Phase.spdWindow), (Phase.spdWindow, Phase.spdFft),
   (Phase.spdFft, Phase.spdMag), (Phase.spdMag, Phase.spdPeak), (Phase.spdPeak, Phase.calLookup),
   (Phase.calLookup, Phase.fcPublish), (Phase.fcPublish, Phase.idle)] ++
  [(Phase.waInitRun, Phase.idle), (Phase.waP1Start, Phase.waP1Sample), (Phase.waP1Sample, Phase.waP1Sample),
   (Phase.waP1Sample, Phase.waP1Finish), (Phase.waP1Finish, Phase.waP2Sample), (Phase.waP2Sample, Phase.waP2Sample),
   (Phase.waP2Sample, Phase.waP2Finish), (Phase.waP2Finish, Phase.waClassify), (Phase.waClassify, Phase.waPubVpp),
   (Phase.waPubVpp, Phase.waPubCls), (Phase.waPubCls, Phase.idle)]

/-- raw is the frequency of a searched bin, num(k) × F_S / num(N) (42_spectral_peak.md R163 (b)). -/
def BinFrequency (c : Params) (raw : Num) : Prop :=
  ∃ k, c.kMin ≤ k ∧ k ≤ c.kMax ∧ raw = .div (.mul (.num k) c.fS) (.num c.n)

/-- The invariant of every reachable state. Each field names the rule it rests on. -/
structure Inv (s : State) : Prop where
  /-- the parameters meet the constraints of R5 to R9 -/
  params      : s.cfg.wf = true
  /-- PHASE never holds a reserved code (R24) -/
  phase       : s.phase ∈ phases
  /-- CRIT is 1 exactly from the FC_CRIT_ENTER step to the FC_CRIT_EXIT step (R266) -/
  crit        : s.flags.crit = true ↔ s.phase ∈ [Phase.fcAcq, Phase.fcCritExit]
  /-- an FC_UPDATE runs only when the unit is ready (R120) -/
  fcReady     : s.phase ∈ fcPhases → s.flags.fcReady = true
  /-- a WA_UPDATE runs only when the unit is ready (R120) -/
  waReady     : s.phase ∈ waPhases → s.flags.waReady = true
  /-- a published output needs an earlier INIT (R293) -/
  fcValid     : s.flags.fcValid = true → s.flags.fcReady = true
  waValid     : s.flags.waValid = true → s.flags.waReady = true
  /-- IDX is an index of the block while it is used (R25, R62) -/
  idx         : s.phase = Phase.fcAcq → s.idx < s.cfg.n
  /-- the mark of the previous sample, and of a pass, is not in the future (R212 (g)) -/
  acqMark     : s.phase = Phase.fcAcq → 0 < s.idx → s.tMark ≤ s.env.now
  passMark    : s.phase ∈ [Phase.waP1Sample, Phase.waP1Finish, Phase.waP2Sample, Phase.waP2Finish] → s.tMark ≤ s.env.now
  /-- the two arrays of the sample block are in canonical form -/
  re          : Memory.wf s.cfg.n s.blk.re = true
  im          : Memory.wf s.cfg.n s.blk.im = true
  /-- the imaginary part is zero from the sampling to the transform (R143) -/
  imAcquired  : s.phase = Phase.fcAcq → ∀ i, i < s.idx → s.imAt i = Num.zero
  imZero      : s.phase ∈ [Phase.fcCritExit, Phase.spdWindow, Phase.spdFft] → ∀ i, i < s.cfg.n → s.imAt i = Num.zero
  /-- RAW_FREQ is the frequency of a searched bin (R163 (b)) -/
  rawFreq     : s.phase ∈ [Phase.calLookup, Phase.fcPublish] → BinFrequency s.cfg s.fc.rawFreq
  /-- CORR_T is Calibrate(RAW_FREQ) (R191) -/
  corrT       : s.phase = Phase.fcPublish → s.fc.corrT = calibrate s.cfg s.fc.rawFreq
  /-- a valid CORR_FREQ is one an FC_PUBLISH step wrote (R71 (a)) -/
  published   : s.flags.fcValid = true → ∃ raw, BinFrequency s.cfg raw ∧ s.pub.corrFreq = calibrate s.cfg raw
  /-- a minimum within the margin of zero was flagged (R214 (a)) -/
  lowClip     : s.phase ∈ [Phase.waP1Sample, Phase.waP1Finish] → s.wa.minc.val ≤ s.cfg.clipMargin → s.flags.clipf = true
  /-- MINC ≤ MAXC after the first sample (R214 (c)) -/
  envelope    : s.phase ∈ [Phase.waP1Sample, Phase.waP1Finish] → 0 < s.wa.cnt1 → s.wa.minc ≤ s.wa.maxc
  /-- each pass takes at least one sample (R212 (a), R215) -/
  pass1       : s.phase = Phase.waP1Finish → 0 < s.wa.cnt1
  pass2       : s.phase = Phase.waP2Finish → 0 < s.wa.cnt2
  /-- a sum of squares stands for no negative number (R215) -/
  sumsq       : s.phase ∈ [Phase.waP2Sample, Phase.waP2Finish] → 0 ≤ s.wa.sumsq.toReal
  /-- under the reference instance the peak-to-peak voltage is not negative, before and after its publication (R216 (d)) -/
  vppT        : s.cfg.numerics = .reference → s.phase ∈ [Phase.waP2Sample, Phase.waP2Finish, Phase.waClassify, Phase.waPubVpp] → 0 ≤ s.wa.vppT.toReal
  vpp         : s.cfg.numerics = .reference → (s.flags.waValid = true ∨ s.phase = Phase.waPubCls) → 0 ≤ s.pub.vpp.toReal
  /-- nor is the crest factor (R216 (d)) -/
  crest       : s.cfg.numerics = .reference → s.phase = Phase.waClassify → 0 ≤ s.wa.crest.toReal

/-- The environment's contract: every listed answer of RawRead is at most FC_MAXCOUNT (R15, R262). The answers of
ConvExchange keep theirs by their type. -/
def Contract (s : State) : Prop := ∀ c ∈ s.env.rawQ, c ≤ s.cfg.fcMaxCount

/-- The sample counters fit a hardware counter of CNT_BITS bits (10_state.md R29, 93_implementation_defined.md U6): a
claim about CNT1 or CNT2 in hardware needs it of every state of the run. -/
def CountersFit (s : State) : Prop := s.wa.cnt1 < 2 ^ s.cfg.cntBits ∧ s.wa.cnt2 < 2 ^ s.cfg.cntBits

/-- A run of a host script is over (R297). -/
def runOver (s : State) : Bool := s.env.script.isEmpty && decide (s.phase = Phase.idle)

/-- The script asks for no reset. -/
def NoReset (s : State) : Prop := HostStmt.reset ∉ s.env.script

/-- The samples a run draws, in the order of the calls: the counts of RawRead and the two pass sequences. -/
structure Draws where
  raw : List Nat
  p1  : List Count10
  p2  : List Count10
deriving DecidableEq, Repr

namespace Draws

def none : Draws := ⟨[], [], []⟩

def append (a b : Draws) : Draws := ⟨a.raw ++ b.raw, a.p1 ++ b.p1, a.p2 ++ b.p2⟩

end Draws

/-- The sample the sequencer draws at its next step, if it draws one (R67). -/
def seqDraws (s : State) : Draws :=
  if s.phase = Phase.fcAcq then
    if acqEnabled s then
      match rawRead s with
      | .ok (c, _) => ⟨[c], [], []⟩
      | .error _ => Draws.none
    else Draws.none
  else if s.phase = Phase.waP1Sample then ⟨[], [(convRead waChannel s).1], []⟩
  else if s.phase = Phase.waP2Sample then ⟨[], [], [(convRead waChannel s).1]⟩
  else Draws.none

/-- The sample the next step of the machine draws. -/
def stepDraws (s : State) : Draws := if (nextAgent s).1 = .seq then seqDraws s else Draws.none

/-- k steps of the machine, each from a busy state; the samples drawn on the way and the state reached. -/
def busyRun : Nat → State → Option (Draws × State)
  | 0, s => some (Draws.none, s)
  | k + 1, s =>
    if busy s then
      match step s with
      | .next t =>
        match busyRun k t with
        | some (d, u) => some ((stepDraws s).append d, u)
        | none => none
      | _ => none
    else none

end Sys2Proof.Safety
end

