-- ==== Sys2Proof/Certificates/Slice0/Obligations.lean ====
section
/-! DEFINITION. The statements for the provers. What an instruction does is stated for every instance of NUMERICS
(00_scope.md R10), comparisons through Params.le and Params.lt; what a register's content is worth in the reference instance
is stated through Num.toReal, with the premise numerics = .reference where a comparison comes in. Params.wf is the premise
that the parameters are those of a build (R5 to R9). A statement that says what an instruction does says also that it
completes and what it leaves unchanged. -/

section
open Sys2Proof Sys2Proof.Machine Sys2Proof.Safety

/-! ## Encoding -/

/-- Words written out from the tables of R92 and R95: a sanity statement. -/
def Obligations.TableWordsDecode : Prop :=
  decodeTableWord 32 0x00000001 = some .fcInit ∧ decodeTableWord 32 0x00000002 = some .fcUpdate ∧
  decodeTableWord 32 0x00000003 = some .waInit ∧ decodeTableWord 32 0xFFFFFF04 = some .waUpdate ∧
  decodeTableWord 32 0x0000007F = none ∧ decodeTableWord 8 0x00 = some .idle ∧ decodeTableWord 8 0x03 = some .fcAcq ∧
  decodeTableWord 8 0x0A = some .fcPublish ∧ decodeTableWord 8 0x10 = some .waInitRun ∧
  decodeTableWord 8 0x16 = some .waClassify ∧ decodeTableWord 8 0x18 = some .waPubCls ∧ decodeTableWord 8 0x0B = none

/-- R91, R92: a command is named by the low byte alone, and every other low byte is reserved. -/
def Obligations.CommandCodesByLowByte : Prop :=
  (∀ (w : Word) (i : Instr), decodeCmd w = .ok i ↔
    (w &&& 0x000000FF#32 = 0x00000001#32 ∧ i = .fcInit) ∨ (w &&& 0x000000FF#32 = 0x00000002#32 ∧ i = .fcUpdate) ∨
    (w &&& 0x000000FF#32 = 0x00000003#32 ∧ i = .waInit) ∨ (w &&& 0x000000FF#32 = 0x00000004#32 ∧ i = .waUpdate)) ∧
  (∀ w : Word, (∀ i, decodeCmd w ≠ .ok i) → decodeCmd w = .error (.reservedCommand (w.extractLsb' 0 8)))

/-- R95: the twenty phase codes, and no other. -/
def Obligations.PhaseCodesOfTheTable : Prop :=
  (∀ (p : BitVec 5) (i : Instr), decodePhase p = .ok i ↔
    (p, i) ∈ [(0x00#5, .idle), (0x01#5, .fcInitRun), (0x02#5, .fcCritEnter), (0x03#5, .fcAcq), (0x04#5, .fcCritExit),
      (0x05#5, .spdWindow), (0x06#5, .spdFft), (0x07#5, .spdMag), (0x08#5, .spdPeak), (0x09#5, .calLookup),
      (0x0A#5, .fcPublish), (0x10#5, .waInitRun), (0x11#5, .waP1Start), (0x12#5, .waP1Sample), (0x13#5, .waP1Finish),
      (0x14#5, .waP2Sample), (0x15#5, .waP2Finish), (0x16#5, .waClassify), (0x17#5, .waPubVpp), (0x18#5, Instr.waPubCls)]) ∧
  (∀ p : BitVec 5, (∀ i, decodePhase p ≠ .ok i) → decodePhase p = .error (.reservedPhase p))

/-- Decoding loses nothing but the ignored bits 31:8 of a command word: encoding what a word decodes to gives the word back,
for a command word with those bits cleared; and no two words of a kind that differ in a bit that counts decode alike. -/
def Obligations.EncodeInvertsDecode : Prop :=
  (∀ (p : BitVec 5) (i : Instr), decode (.phase5 p) = .ok i → encode i = .phase5 p) ∧
  (∀ (w : Word) (i : Instr), decode (.cmdw w) = .ok i → encode i = .cmdw (w &&& 0x000000FF#32)) ∧
  (∀ (w w' : Word) (i : Instr), decode (.cmdw w) = .ok i → decode (.cmdw w') = .ok i → w.extractLsb' 0 8 = w'.extractLsb' 0 8)

/-! ## Host commands and the host port -/

/-- R120, whole: the pseudocode of a write to CMD, reserved codes and ignored bits among it. -/
def Obligations.CommandWriteFollowsAcceptance : Prop :=
  ∀ (w : Word) (s : State), regWrite 0#3 w s = .next
    (if s.phase ≠ 0x00#5 then s
     else if w.extractLsb' 0 8 = 0x01#8 then { s with phase := 0x01#5 }
     else if w.extractLsb' 0 8 = 0x02#8 ∧ s.flags.fcReady = true then { s with phase := 0x02#5 }
     else if w.extractLsb' 0 8 = 0x03#8 then { s with phase := 0x10#5 }
     else if w.extractLsb' 0 8 = 0x04#8 ∧ s.flags.waReady = true then { s with phase := 0x11#5 }
     else s)

/-- R121 to R124: an accepted command writes PHASE, and nothing else. -/
def Obligations.AcceptedCommandsEnterTheirUnit : Prop :=
  ∀ s : State, s.phase = 0x00#5 →
    exec .fcInit s = .next { s with phase := 0x01#5 } ∧
    (s.flags.fcReady = true → exec .fcUpdate s = .next { s with phase := 0x02#5 }) ∧
    exec .waInit s = .next { s with phase := 0x10#5 } ∧
    (s.flags.waReady = true → exec .waUpdate s = .next { s with phase := 0x11#5 })

/-- R120 (a), (b), R127: what is dropped changes nothing: any command while busy, an update of a unit that is not ready, a
reserved code. -/
def Obligations.DroppedCommandsChangeNothing : Prop :=
  ∀ s : State,
    (s.phase ≠ 0x00#5 → exec .fcInit s = .next s ∧ exec .fcUpdate s = .next s ∧ exec .waInit s = .next s ∧
      exec .waUpdate s = .next s) ∧
    (s.flags.fcReady = false → exec .fcUpdate s = .next s) ∧ (s.flags.waReady = false → exec .waUpdate s = .next s) ∧
    (∀ w : Word, (w.extractLsb' 0 8 = 0x00#8 ∨ 5 ≤ (w.extractLsb' 0 8).toNat) → regWrite 0#3 w s = .next s)

/-- R125, R126: the two INIT phases. -/
def Obligations.InitPhasesSetReady : Prop :=
  ∀ s : State,
    exec .fcInitRun s = .next { s with flags := { s.flags with fcReady := true }, phase := 0x00#5 } ∧
    exec .waInitRun s = .next { s with flags := { s.flags with waReady := true }, phase := 0x00#5 }

/-- The sequencer at IDLE changes nothing. R128 gives it no enabled step there; that the step is taken and leaves the state is
the model's choice (log entry 11). -/
def Obligations.IdleStepChangesNothing : Prop := ∀ s : State, exec .idle s = .next s

/-- R22, R93: the STATUS word, bit by bit. -/
def Obligations.StatusWordBits : Prop :=
  ∀ s : State,
    (statusWord s).getLsbD 0 = decide (s.phase ≠ 0x00#5) ∧
    (statusWord s).getLsbD 1 = (decide (s.phase ≠ 0x00#5) && s.phase.getLsbD 4) ∧
    (statusWord s).getLsbD 2 = s.flags.crit ∧ (statusWord s).getLsbD 3 = s.flags.fcReady ∧
    (statusWord s).getLsbD 4 = s.flags.waReady ∧ (statusWord s).getLsbD 5 = s.flags.fcValid ∧
    (statusWord s).getLsbD 6 = s.flags.waValid ∧ ∀ k, 7 ≤ k → (statusWord s).getLsbD k = false

/-- R64: what a host read of each index returns, the published outputs once their VALID bit is set. -/
def Obligations.HostReadsReturnTheRegisters : Prop :=
  ∀ s : State,
    (hostRead 0#3 s).1 = .word 0#32 ∧ (hostRead 1#3 s).1 = .word (statusWord s) ∧
    (s.flags.fcValid = true → (hostRead 2#3 s).1 = .num s.pub.corrFreq) ∧
    (s.flags.waValid = true → (hostRead 3#3 s).1 = .num s.pub.vpp) ∧
    (s.flags.waValid = true → (hostRead 4#3 s).1 = .word (match s.pub.wclass with
      | .unrecognized => 0#32 | .sine => 1#32 | .square => 2#32 | .triangle => 3#32)) ∧
    (∀ idx : BitVec 3, 5 ≤ idx.toNat → (hostRead idx s).1 = .word 0#32)

/-- R60: a read changes no state of the block (only what the host holds), and a write to any index but 0 changes nothing. -/
def Obligations.HostPortTouchesNoBlockState : Prop :=
  ∀ (s : State) (idx : BitVec 3),
    (∃ v d, regRead idx s = { s with env := { s.env with lastRead := some v, draws := d } } ∧ v = (hostRead idx s).1) ∧
    ∀ w : Word, idx ≠ 0#3 → regWrite idx w s = .next s

/-- R63: between WA_PUB_VPP and WA_PUB_CLS a host reads the new VPP with the old WCLASS. -/
def Obligations.NewVppWithOldClass : Prop :=
  ∀ s : State, s.flags.waValid = true → ∃ t, exec .waPubVpp s = .next t ∧
    (hostRead 3#3 t).1 = .num s.wa.vppT ∧ (hostRead 4#3 t).1 = (hostRead 4#3 s).1 ∧ (hostRead 3#3 s).1 = .num s.pub.vpp

/-! ## Acquisition -/

/-- R140, R142: the critical section opens and closes; R266, in part: the output IRQ_SUSPEND is CRIT (what the platform makes
of it is not modelled, log entry 23). -/
def Obligations.CriticalSectionOpensAndCloses : Prop :=
  ∀ s : State,
    exec .fcCritEnter s = .next { s with flags := { s.flags with crit := true }, idx := 0, phase := 0x03#5 } ∧
    exec .fcCritExit s = .next { s with flags := { s.flags with crit := false }, phase := 0x05#5 } ∧
    irqSuspend s = s.flags.crit

/-- R141: one timed sample, the answer of RawRead being any count of the contract's range (the listed one where the state
lists one): the voltage, the zero, the instant, the successor, and every other element and register as before. -/
def Obligations.TimedSampleTaken : Prop :=
  ∀ s : State, s.cfg.wf = true → Memory.wf s.cfg.n s.blk.re = true → Memory.wf s.cfg.n s.blk.im = true →
    s.idx < s.cfg.n → (s.idx = 0 ∨ s.tMark + s.cfg.tS ≤ s.env.now) → (∀ c ∈ s.env.rawQ, c ≤ s.cfg.fcMaxCount) →
    ∃ c t, c ≤ s.cfg.fcMaxCount ∧ (∀ d, s.env.rawQ.head? = some d → c = d) ∧ exec .fcAcq s = .next t ∧
      (t.reAt s.idx).toReal = c * (s.cfg.fcVfs.toReal / s.cfg.fcMaxCount) ∧ (t.imAt s.idx).toReal = 0 ∧
      (∀ j, j ≠ s.idx → t.reAt j = s.reAt j ∧ t.imAt j = s.imAt j) ∧
      t = { s with
        blk := t.blk, tMark := s.env.now
        phase := if s.idx = s.cfg.n - 1 then 0x04#5 else s.phase
        idx := if s.idx = s.cfg.n - 1 then s.idx else s.idx + 1
        env := { s.env with rawQ := s.env.rawQ.tail, rawCalls := s.env.rawCalls + 1 } }

/-- R141, the guard: a sample after the first waits until T_S has passed. The wait is rendered as a step that changes
nothing, the model's choice (log entry 11). -/
def Obligations.SampleWaitsForTheInterval : Prop :=
  ∀ s : State, s.cfg.wf = true → 0 < s.idx → s.env.now < s.tMark + s.cfg.tS → exec .fcAcq s = .next s

/-- Where FC_ACQ stops: an index the block does not have, which no run reaches (R62), and a listed answer outside the
contract of RawRead, to which the spec gives no meaning (U4). The stops are the model's rendering (log entries 12, 14). -/
def Obligations.AcquisitionStopsOutsideItsContract : Prop :=
  ∀ s : State, s.cfg.wf = true → (s.idx = 0 ∨ s.tMark + s.cfg.tS ≤ s.env.now) →
    (s.cfg.n ≤ s.idx → exec .fcAcq s = .fault (.noSuchElement s.idx)) ∧
    (∀ c rest, s.idx < s.cfg.n → s.env.rawQ = c :: rest → s.cfg.fcMaxCount < c →
      exec .fcAcq s = .refused (.rawAnswerOutOfRange c))

/-! ## Spectral peak detector -/

/-- R160: the Hann window, IM and every register but RE and PHASE unchanged. -/
def Obligations.WindowWeighsEachSample : Prop :=
  ∀ s : State, s.cfg.wf = true → ∃ t, exec .spdWindow s = .next t ∧
    (∀ i, i < s.cfg.n → (t.reAt i).toReal =
      (s.reAt i).toReal * (0.5 * (1 - Real.cos (2 * Real.pi * i / (s.cfg.n - 1 : ℝ))))) ∧
    t = { s with blk := { s.blk with re := t.blk.re }, phase := 0x06#5 }

/-- R161: the unnormalised discrete Fourier transform of the block as it stands before the step. -/
def Obligations.TransformIsTheDft : Prop :=
  ∀ s : State, ∃ t, exec .spdFft s = .next t ∧
    (∀ k, k < s.cfg.n →
      (t.reAt k).toReal = ∑ i ∈ Finset.range s.cfg.n,
        ((s.reAt i).toReal * Real.cos (2 * Real.pi * k * i / s.cfg.n) +
          (s.imAt i).toReal * Real.sin (2 * Real.pi * k * i / s.cfg.n)) ∧
      (t.imAt k).toReal = ∑ i ∈ Finset.range s.cfg.n,
        ((s.imAt i).toReal * Real.cos (2 * Real.pi * k * i / s.cfg.n) -
          (s.reAt i).toReal * Real.sin (2 * Real.pi * k * i / s.cfg.n))) ∧
    t = { s with blk := t.blk, phase := 0x07#5 }

/-- R162: the modulus of each bin, IM untouched. -/
def Obligations.MagnitudeIsTheModulus : Prop :=
  ∀ s : State, ∃ t, exec .spdMag s = .next t ∧
    (∀ k, k < s.cfg.n → (t.reAt k).toReal =
      √((s.reAt k).toReal * (s.reAt k).toReal + (s.imAt k).toReal * (s.imAt k).toReal)) ∧
    t = { s with blk := { s.blk with re := t.blk.re }, phase := 0x08#5 }

/-- R163: under the reference instance RAW_FREQ is the frequency of the least bin of greatest magnitude in K_MIN..K_MAX. In
any instance of NUMERICS the bin is that of the ascending scan, where the pseudocode's RE[k] > RE[kmax] is read as
RE[kmax] < RE[k]: that reading is the model's (log entry 26, DEDUCED). -/
def Obligations.PeakIsTheLeastGreatestBin : Prop :=
  ∀ s : State, s.cfg.wf = true → ∃ k t, exec .spdPeak s = .next t ∧ s.cfg.kMin ≤ k ∧ k ≤ s.cfg.kMax ∧
    k = (List.range' (s.cfg.kMin + 1) (s.cfg.kMax - s.cfg.kMin)).foldl
      (fun kmax j => if s.cfg.lt (s.reAt kmax) (s.reAt j) = true then j else kmax) s.cfg.kMin ∧
    t = { s with fc := { s.fc with rawFreq := .div (.mul (.num k) s.cfg.fS) (.num s.cfg.n) }, phase := 0x09#5 } ∧
    t.fc.rawFreq.toReal = k * s.cfg.fS.toReal / s.cfg.n ∧
    (s.cfg.numerics = .reference →
      (∀ j, s.cfg.kMin ≤ j → j ≤ s.cfg.kMax → (s.reAt j).toReal ≤ (s.reAt k).toReal) ∧
      (∀ j, s.cfg.kMin ≤ j → j < k → (s.reAt j).toReal < (s.reAt k).toReal))

/-- R160, corner cases: the window is zero at both ends, symmetric, never negative, and below 1 for N a power of two. -/
def Obligations.HannWindowShape : Prop :=
  ∀ c : Params, c.wf = true →
    (hann c.n 0).toReal = 0 ∧ (hann c.n (c.n - 1)).toReal = 0 ∧
    ∀ i, i < c.n → (hann c.n i).toReal = (hann c.n (c.n - 1 - i)).toReal ∧ 0 ≤ (hann c.n i).toReal ∧ (hann c.n i).toReal < 1

/-- R161 (a), R162: the spectrum of a real block is conjugate symmetric, so the magnitudes above N/2 repeat those below. -/
def Obligations.RealSpectrumIsMirrored : Prop :=
  ∀ s t u : State, s.cfg.wf = true → (∀ i, i < s.cfg.n → (s.imAt i).toReal = 0) →
    exec .spdFft s = .next t → exec .spdMag t = .next u →
    (t.imAt 0).toReal = 0 ∧ (t.imAt (s.cfg.n / 2)).toReal = 0 ∧
    ∀ k, 0 < k → k < s.cfg.n → (t.reAt (s.cfg.n - k)).toReal = (t.reAt k).toReal ∧
      (t.imAt (s.cfg.n - k)).toReal = -(t.imAt k).toReal ∧ (u.reAt (s.cfg.n - k)).toReal = (u.reAt k).toReal

/-- R164 (a), under the reference instance: the detected frequency does not change if every sample is multiplied by the same
positive constant; (c): samples 0 and N - 1 never matter. -/
def Obligations.PeakIgnoresScaleAndEndSamples : Prop :=
  ∀ (c : Params) (r : ℝ) (x x' : Nat → Sys2Proof.Num), c.wf = true → c.numerics = .reference → 0 < r →
    (∀ i, 0 < i → i < c.n - 1 → (x' i).toReal = r * (x i).toReal) →
    peakFreq c (magnitude (transformRe c.n (window c.n x) fun _ => Sys2Proof.Num.zero)
      (transformIm c.n (window c.n x) fun _ => Sys2Proof.Num.zero)) =
    peakFreq c (magnitude (transformRe c.n (window c.n x') fun _ => Sys2Proof.Num.zero)
      (transformIm c.n (window c.n x') fun _ => Sys2Proof.Num.zero))

/-! ## Calibration -/

/-- R191: CAL_LOOKUP answers the interpolation in the first bracket that contains RAW_FREQ and sets FOUND, or passes
RAW_FREQ through and clears FOUND; the table and everything else stay. Stated for any instance of NUMERICS, and once more in
real numbers under the reference instance. -/
def Obligations.LookupTakesTheFirstBracket : Prop :=
  ∀ s : State, ∃ t, exec .calLookup s = .next t ∧
    t = { s with
      flags := { s.flags with found := t.flags.found }, fc := { s.fc with corrT := t.fc.corrT }, phase := 0x0A#5 } ∧
    (∀ i, i + 1 < calLen s.cfg →
      s.cfg.le (calMeas s.cfg i) s.fc.rawFreq = true → s.cfg.le s.fc.rawFreq (calMeas s.cfg (i + 1)) = true →
      (∀ j, j < i → ¬ (s.cfg.le (calMeas s.cfg j) s.fc.rawFreq = true ∧ s.cfg.le s.fc.rawFreq (calMeas s.cfg (j + 1)) = true)) →
      t.flags.found = true ∧ t.fc.corrT = .add (calTrue s.cfg i)
        (.div (.mul (.sub s.fc.rawFreq (calMeas s.cfg i)) (.sub (calTrue s.cfg (i + 1)) (calTrue s.cfg i)))
          (.sub (calMeas s.cfg (i + 1)) (calMeas s.cfg i)))) ∧
    ((∀ i, i + 1 < calLen s.cfg → ¬ (s.cfg.le (calMeas s.cfg i) s.fc.rawFreq = true ∧
      s.cfg.le s.fc.rawFreq (calMeas s.cfg (i + 1)) = true)) → t.flags.found = false ∧ t.fc.corrT = s.fc.rawFreq) ∧
    (s.cfg.wf = true → s.cfg.numerics = .reference →
      (∀ i, i + 1 < calLen s.cfg →
        (calMeas s.cfg i).toReal ≤ s.fc.rawFreq.toReal → s.fc.rawFreq.toReal ≤ (calMeas s.cfg (i + 1)).toReal →
        t.flags.found = true ∧ t.fc.corrT.toReal = (calTrue s.cfg i).toReal +
          (s.fc.rawFreq.toReal - (calMeas s.cfg i).toReal) * ((calTrue s.cfg (i + 1)).toReal - (calTrue s.cfg i).toReal) /
            ((calMeas s.cfg (i + 1)).toReal - (calMeas s.cfg i).toReal)) ∧
      (s.fc.rawFreq.toReal < (calMeas s.cfg 0).toReal ∨ (calMeas s.cfg (calLen s.cfg - 1)).toReal < s.fc.rawFreq.toReal →
        t.flags.found = false ∧ t.fc.corrT = s.fc.rawFreq))

/-- R193 (a), (d), under the reference instance: within the table Calibrate is the affine function of EVERY bracket that
contains raw, so it is continuous where two meet, and hits each breakpoint's true value. -/
def Obligations.CalibratePiecewiseLinear : Prop :=
  ∀ (c : Params) (raw : Sys2Proof.Num), c.wf = true → c.numerics = .reference →
    ((calMeas c 0).toReal ≤ raw.toReal → raw.toReal ≤ (calMeas c (calLen c - 1)).toReal →
      ∃ i, i + 1 < calLen c ∧ (calMeas c i).toReal ≤ raw.toReal ∧ raw.toReal ≤ (calMeas c (i + 1)).toReal) ∧
    (∀ i, i + 1 < calLen c → (calMeas c i).toReal ≤ raw.toReal → raw.toReal ≤ (calMeas c (i + 1)).toReal →
      (calibrate c raw).toReal = (calTrue c i).toReal + (raw.toReal - (calMeas c i).toReal) *
        (((calTrue c (i + 1)).toReal - (calTrue c i).toReal) / ((calMeas c (i + 1)).toReal - (calMeas c i).toReal))) ∧
    (∀ i, i < calLen c → raw.toReal = (calMeas c i).toReal → (calibrate c raw).toReal = (calTrue c i).toReal)

/-- R193 (b), R190 (e), under the reference instance: outside the table the frequency passes through unchanged, zero and
negative ones among them. -/
def Obligations.CalibratePassesThroughOutside : Prop :=
  ∀ (c : Params) (raw : Sys2Proof.Num), c.wf = true → c.numerics = .reference →
    (raw.toReal < (calMeas c 0).toReal ∨ (calMeas c (calLen c - 1)).toReal < raw.toReal ∨ raw.toReal ≤ 0) →
    calibrate c raw = raw

/-- R192: FC_PUBLISH. -/
def Obligations.PublishWritesCorrFreq : Prop :=
  ∀ s : State, exec .fcPublish s = .next { s with
    pub := { s.pub with corrFreq := s.fc.corrT }, flags := { s.flags with fcValid := true }, phase := 0x00#5 }

/-! ## Waveform statistics -/

/-- R211: WA_P1_START. -/
def Obligations.PassOneStarts : Prop :=
  ∀ s : State, ∃ t, exec .waP1Start s = .next t ∧ t.wa.sumv.toReal = 0 ∧
    t = { s with
      wa := { s.wa with minc := 1023, maxc := 0, sumv := t.wa.sumv, cnt1 := 0 }
      flags := { s.flags with clipf := false }, tMark := s.env.now, phase := 0x12#5 }

/-- R212: one sample of pass 1, the count being any 10-bit answer (the listed one where the state lists one). -/
def Obligations.PassOneSample : Prop :=
  ∀ s : State, s.cfg.wf = true → ∃ (c : Count10) (t : State),
    (∀ d, s.env.convQ.head? = some d → c = d) ∧ exec .waP1Sample s = .next t ∧
    t.wa.minc.val = min s.wa.minc.val c.val ∧ t.wa.maxc.val = max s.wa.maxc.val c.val ∧
    t.wa.sumv.toReal = s.wa.sumv.toReal + c.val * s.cfg.vRef.toReal / s.cfg.maxCountScale ∧
    (t.flags.clipf = true ↔ s.flags.clipf = true ∨ c.val ≤ s.cfg.clipMargin ∨ 1023 - s.cfg.clipMargin ≤ c.val) ∧
    t = { s with
      wa := { s.wa with minc := t.wa.minc, maxc := t.wa.maxc, sumv := t.wa.sumv, cnt1 := s.wa.cnt1 + 1 }
      flags := { s.flags with clipf := t.flags.clipf }
      phase := if s.tMark + s.cfg.tPass1 ≤ s.env.now then 0x13#5 else s.phase
      env := { s.env with convQ := s.env.convQ.tail, convCalls := s.env.convCalls + 1 } }

/-- R214: average, peak-to-peak and DC offset, on the clipped branch and on the normal one; pass 2 begins. -/
def Obligations.PassOneFinish : Prop :=
  ∀ s : State, s.cfg.wf = true → 0 < s.wa.cnt1 → s.wa.minc ≤ s.wa.maxc → ∃ t, exec .waP1Finish s = .next t ∧
    t.wa.avgv.toReal = s.wa.sumv.toReal / s.wa.cnt1 ∧
    (s.flags.clipf = true ∧ s.wa.minc.val ≤ s.cfg.clipMargin →
      t.wa.vppT.toReal = 2 * (s.wa.maxc.val * s.cfg.vRef.toReal / s.cfg.maxCountScale) ∧
      t.wa.dcoff.toReal = t.wa.vppT.toReal / 2) ∧
    (¬ (s.flags.clipf = true ∧ s.wa.minc.val ≤ s.cfg.clipMargin) →
      t.wa.vppT.toReal = ((s.wa.maxc.val : ℝ) - s.wa.minc.val) * s.cfg.vRef.toReal / s.cfg.maxCountScale ∧
      t.wa.dcoff = t.wa.avgv) ∧
    t.wa.sumsq.toReal = 0 ∧
    t = { s with
      wa := { s.wa with avgv := t.wa.avgv, vppT := t.wa.vppT, dcoff := t.wa.dcoff, sumsq := t.wa.sumsq, cnt2 := 0 }
      tMark := s.env.now, phase := 0x14#5 }

/-- R215: one sample of pass 2. -/
def Obligations.PassTwoSample : Prop :=
  ∀ s : State, s.cfg.wf = true → ∃ (c : Count10) (t : State),
    (∀ d, s.env.convQ.head? = some d → c = d) ∧ exec .waP2Sample s = .next t ∧
    t.wa.sumsq.toReal = s.wa.sumsq.toReal +
      (c.val * s.cfg.vRef.toReal / s.cfg.maxCountScale - s.wa.dcoff.toReal) ^ 2 ∧
    t = { s with
      wa := { s.wa with sumsq := t.wa.sumsq, cnt2 := s.wa.cnt2 + 1 }
      phase := if s.tMark + s.cfg.tPass2 ≤ s.env.now then 0x15#5 else s.phase
      env := { s.env with convQ := s.env.convQ.tail, convCalls := s.env.convCalls + 1 } }

/-- R216: RMS and crest factor, the guard strict at the noise floor: the pseudocode in any instance of NUMERICS, and the real
numbers under the reference instance, where the sum of squares is that of at least one sample (Inv: pass2, sumsq). That the
numerals 0 and 2 of CREST are num 0 and num 2 in any instance is the model's choice (log entry 26, DESIGN CHOICE). -/
def Obligations.PassTwoFinish : Prop :=
  ∀ s : State, ∃ t, exec .waP2Finish s = .next t ∧
    t = { s with wa := { s.wa with rms := t.wa.rms, crest := t.wa.crest }, phase := 0x16#5 } ∧
    t.wa.rms = .sqrt (.div s.wa.sumsq (.num s.wa.cnt2)) ∧
    (s.cfg.lt t.wa.rms s.cfg.noiseFloor = true → t.wa.crest = Sys2Proof.Num.zero) ∧
    (s.cfg.lt t.wa.rms s.cfg.noiseFloor = false → t.wa.crest = .div (.div s.wa.vppT (.num 2)) t.wa.rms) ∧
    (s.cfg.wf = true → s.cfg.numerics = .reference → 0 < s.wa.cnt2 → 0 ≤ s.wa.sumsq.toReal →
      t.wa.rms.toReal = √(s.wa.sumsq.toReal / s.wa.cnt2) ∧
      (t.wa.rms.toReal < s.cfg.noiseFloor.toReal → t.wa.crest.toReal = 0) ∧
      (s.cfg.noiseFloor.toReal ≤ t.wa.rms.toReal → t.wa.crest.toReal = s.wa.vppT.toReal / 2 / t.wa.rms.toReal))

/-- R210: a channel above 7 reads zero and no exchange takes place; each of the eight channels consumes one. -/
def Obligations.ConvReadOutOfRangeIsZero : Prop :=
  ∀ (ch : BitVec 8) (s : State),
    (7 < ch.toNat → convRead ch s = (0, s)) ∧
    (ch.toNat ≤ 7 → (convRead ch s).2 =
      { s with env := { s.env with convQ := s.env.convQ.tail, convCalls := s.env.convCalls + 1 } } ∧
      ∀ d, s.env.convQ.head? = some d → (convRead ch s).1 = d)

/-- R214 as a function of the pass-1 sequence, and its cases (a), (b), (f): a least count within the margin of zero gives
twice the voltage of the greatest and half of that as offset; otherwise (whatever happens at the high rail) the difference
and the average. -/
def Obligations.EnvelopeOfAPass : Prop :=
  ∀ (c : Params) (p : List Count10) (lo hi : Count10), c.wf = true → lo ∈ p → hi ∈ p → (∀ k ∈ p, lo ≤ k ∧ k ≤ hi) →
    (lo.val ≤ c.clipMargin →
      (envelope c p).1.toReal = 2 * hi.val * c.vRef.toReal / c.maxCountScale ∧
      (envelope c p).2.toReal = hi.val * c.vRef.toReal / c.maxCountScale) ∧
    (c.clipMargin < lo.val →
      (envelope c p).1.toReal = ((hi.val : ℝ) - lo.val) * c.vRef.toReal / c.maxCountScale ∧
      (envelope c p).2.toReal = (p.map fun k => (k.val : ℝ) * c.vRef.toReal / c.maxCountScale).sum / p.length)

/-! ## Classifier -/

/-- R240, R241: the bands in table order, all six bounds inclusive: in any instance of NUMERICS, and in real numbers under the
reference instance. -/
def Obligations.ClassifyByBands : Prop :=
  ∀ s : State, ∃ t, exec .waClassify s = .next t ∧
    t = { s with wa := { s.wa with clsT := t.wa.clsT }, phase := 0x17#5 } ∧
    (let cf := s.wa.crest
     let sine := s.cfg.le s.cfg.sineLo cf = true ∧ s.cfg.le cf s.cfg.sineHi = true
     let square := s.cfg.le s.cfg.squareLo cf = true ∧ s.cfg.le cf s.cfg.squareHi = true
     let triangle := s.cfg.le s.cfg.triLo cf = true ∧ s.cfg.le cf s.cfg.triHi = true
     (sine → t.wa.clsT = .sine) ∧ (¬ sine → square → t.wa.clsT = .square) ∧
     (¬ sine → ¬ square → triangle → t.wa.clsT = .triangle) ∧
     (¬ sine → ¬ square → ¬ triangle → t.wa.clsT = .unrecognized)) ∧
    (s.cfg.numerics = .reference →
      let cf := s.wa.crest.toReal
      let sine := s.cfg.sineLo.toReal ≤ cf ∧ cf ≤ s.cfg.sineHi.toReal
      let square := s.cfg.squareLo.toReal ≤ cf ∧ cf ≤ s.cfg.squareHi.toReal
      let triangle := s.cfg.triLo.toReal ≤ cf ∧ cf ≤ s.cfg.triHi.toReal
      (sine → t.wa.clsT = .sine) ∧ (¬ sine → square → t.wa.clsT = .square) ∧
      (¬ sine → ¬ square → triangle → t.wa.clsT = .triangle) ∧
      (¬ sine → ¬ square → ¬ triangle → t.wa.clsT = .unrecognized))

/-- R242, R243: the two publication steps. -/
def Obligations.WaveformPublication : Prop :=
  ∀ s : State,
    exec .waPubVpp s = .next { s with pub := { s.pub with vpp := s.wa.vppT }, phase := 0x18#5 } ∧
    exec .waPubCls s = .next { s with
      pub := { s.pub with wclass := s.wa.clsT }, flags := { s.flags with waValid := true }, phase := 0x00#5 }

/-- R240 (d) with the thresholds of R9 and the reference instance: the ideal sine is a sine, the ideal square a square, and
the ideal triangle, above 1.70, is unrecognized. -/
def Obligations.IdealCrestFactors : Prop :=
  ∀ (c : Params) (cf : Sys2Proof.Num), c.numerics = .reference → c.sineLo.toReal = 1.30 → c.sineHi.toReal = 1.45 →
    c.squareLo.toReal = 0.95 → c.squareHi.toReal = 1.05 → c.triLo.toReal = 1.50 → c.triHi.toReal = 1.70 →
    (cf.toReal = √2 → classify c cf = .sine) ∧ (cf.toReal = 1 → classify c cf = .square) ∧
    (cf.toReal = √3 → classify c cf = .unrecognized) ∧ (cf.toReal < 0.95 → classify c cf = .unrecognized)

/-- R261 (c), R216 (c): a pass 2 whose RMS is below the noise floor is unrecognized, whatever the peak-to-peak voltage. The
thresholds are those of R9, the instance the reference one. -/
def Obligations.DegenerateRmsIsUnrecognized : Prop :=
  ∀ (c : Params) (vpp dc : Sys2Proof.Num) (p : List Count10), c.wf = true → c.numerics = .reference → p ≠ [] →
    c.sineLo.toReal = 1.30 → c.squareLo.toReal = 0.95 → c.triLo.toReal = 1.50 →
    √((p.map fun k => ((k.val : ℝ) * c.vRef.toReal / c.maxCountScale - dc.toReal) ^ 2).sum / p.length) < c.noiseFloor.toReal →
    (crestFactor c vpp dc p).toReal = 0 ∧ classify c (crestFactor c vpp dc p) = .unrecognized

/-! ## Reset -/

/-- R45, R290: what the spec gives the state after reset, and the STATUS word it shows. -/
def Obligations.ResetLeavesTheBlockIdle : Prop :=
  State.reset.phase = 0x00#5 ∧ State.reset.flags.crit = false ∧ State.reset.flags.fcReady = false ∧
  State.reset.flags.waReady = false ∧ State.reset.flags.fcValid = false ∧ State.reset.flags.waValid = false ∧
  statusWord State.reset = 0x00000000#32 ∧ irqSuspend State.reset = false

/-- R290, R291, R45, R292: RESET at any point of a run, the middle of an update and the critical section among them, abandons
the command, releases IRQ_SUSPEND, clears READY and VALID, and touches neither the clock, the parameters with the calibration
ROM, nor the sources. That RESET is one step of the host, which moves its script on and keeps it, is the model's reading of
R290 (log entry 22, DEDUCED). -/
def Obligations.ResetAtAnyPoint : Prop :=
  ∀ (s : State) (rest : List Agent) (more : List HostStmt), s.env.sched = .host :: rest → s.env.script = .reset :: more →
    ∃ t, step s = .next t ∧
      t.phase = 0x00#5 ∧ t.flags.crit = false ∧ irqSuspend t = false ∧ t.flags.fcReady = false ∧ t.flags.waReady = false ∧
      t.flags.fcValid = false ∧ t.flags.waValid = false ∧ statusWord t = 0x00000000#32 ∧ t.cfg = s.cfg ∧
      t.env = { s.env with sched := rest, script := more }

/-! ## The step -/

/-- A step of the sequencer is exec of the instruction that PHASE encodes (R24, R95); the schedule moves on. -/
def Obligations.StepRunsThePhase : Prop :=
  ∀ (s : State) (i : Instr) (rest : List Agent), s.env.sched = .seq :: rest → decode (.phase5 s.phase) = .ok i →
    step s = exec i { s with env := { s.env with sched := rest } }

/-- A step of the host, for each statement that is not WAIT_IDLE or RESET (R104; those are WaitIdlePollsBusy and
ResetAtAnyPoint). A write to CMD of a word that decodes, and a CALL, are exec of the instruction the word encodes (R120), a
call leaving the wait for BUSY = 0 behind it; a write of a reserved code (R127) or to another index (R60) leaves the block
alone; a read is regRead (R60); a host with no statement left changes nothing (log entry 18). The schedule and the script
move on. -/
def Obligations.StepRunsTheCommand : Prop :=
  ∀ (s : State) (rest : List Agent) (more : List HostStmt), s.env.sched = .host :: rest →
    (∀ (w : Word) (i : Instr), s.env.script = .write 0#3 w :: more → decode (.cmdw w) = .ok i →
      step s = exec i { s with env := { s.env with sched := rest, script := more } }) ∧
    (∀ c : Command, s.env.script = .call c :: more →
      decode (.cmdw c.word) = .ok c.instr ∧
      step s = exec c.instr { s with env := { s.env with sched := rest, script := .waitIdle :: more } }) ∧
    (∀ (idx : BitVec 3) (w : Word), s.env.script = .write idx w :: more → (idx ≠ 0#3 ∨ ∀ i, decode (.cmdw w) ≠ .ok i) →
      step s = .next { s with env := { s.env with sched := rest, script := more } }) ∧
    (∀ idx : BitVec 3, s.env.script = .read idx :: more →
      step s = .next (regRead idx { s with env := { s.env with sched := rest, script := more } })) ∧
    (s.env.script = [] → step s = .next { s with env := { s.env with sched := rest } })

/-- R104: WAIT_IDLE reads STATUS and stays while bit 0 reads 1. -/
def Obligations.WaitIdlePollsBusy : Prop :=
  ∀ (s : State) (rest : List Agent) (more : List HostStmt), s.env.sched = .host :: rest →
    s.env.script = .waitIdle :: more → step s = .next { s with env := { s.env with
      sched := rest, lastRead := some (.word (statusWord s))
      script := if s.phase = 0x00#5 then more else .waitIdle :: more } }

/-- The word the host places is the word the next step runs (log entry 10). -/
def Obligations.PlacedWordRunsNext : Prop :=
  ∀ (s : State) (nbits w : Nat) (i : Instr), decodeTableWord nbits w = some i →
    (nbits ≤ 8 → step (s.withFetchWord nbits w) = exec i { s with phase := BitVec.ofNat 5 w }) ∧
    (8 < nbits → step (s.withFetchWord nbits w) = exec i s)

/-- R272: a step of the clock advances NOW by at least one microsecond and touches nothing else. -/
def Obligations.ClockStepAdvancesNow : Prop :=
  ∀ (s : State) (d : Nat) (rest : List Agent), s.env.sched = .clk d :: rest →
    step s = .next { s with env := { s.env with sched := rest, now := s.env.now + (d + 1) } }

/-- R102 (d): the sequencer at a reserved phase code stops by name. No run reaches one, and the spec defines no behaviour
there; the stop is the model's rendering (log entry 15). -/
def Obligations.ReservedPhaseStops : Prop :=
  ∀ (s : State) (rest : List Agent), s.env.sched = .seq :: rest →
    ((0x0B ≤ s.phase.toNat ∧ s.phase.toNat ≤ 0x0F) ∨ 0x19 ≤ s.phase.toNat) → step s = .refused (.reservedPhase s.phase)

/-! ## Whole-machine rules -/

/-- R96: a step of the sequencer moves PHASE along a row of the successor table, only FC_ACQ, WA_P1_SAMPLE and WA_P2_SAMPLE
holding it (and IDLE, log entry 11); a step of the clock leaves it; a step of the host leaves it, takes it from IDLE to the
first phase of a command it may accept (R120), or resets it (R290). -/
def Obligations.PhaseFollowsTheSuccessorTable : Prop :=
  ∀ s t : State, step s = .next t →
    ((nextAgent s).1 = .seq → (s.phase, t.phase) ∈ successors) ∧
    ((∃ d, (nextAgent s).1 = .clk d) → t.phase = s.phase) ∧
    ((nextAgent s).1 = .host → t.phase = s.phase ∨
      (s.phase = 0x00#5 ∧ (t.phase = 0x01#5 ∨ t.phase = 0x10#5 ∨
        (t.phase = 0x02#5 ∧ s.flags.fcReady = true) ∨ (t.phase = 0x11#5 ∧ s.flags.waReady = true))) ∨
      (s.env.script.head? = some .reset ∧ t.phase = 0x00#5))

/-- R23: each published output has one writer: in every step but the host's execution of a RESET, CORR_FREQ changes only by
FC_PUBLISH, VPP only by WA_PUB_VPP, WCLASS only by WA_PUB_CLS. -/
def Obligations.PublishedOutputsHaveOneWriter : Prop :=
  ∀ s t : State, step s = .next t → ¬ ((nextAgent s).1 = .host ∧ s.env.script.head? = some .reset) →
    (t.pub.corrFreq ≠ s.pub.corrFreq → (nextAgent s).1 = .seq ∧ s.phase = 0x0A#5 ∧ t.pub.corrFreq = s.fc.corrT) ∧
    (t.pub.vpp ≠ s.pub.vpp → (nextAgent s).1 = .seq ∧ s.phase = 0x17#5 ∧ t.pub.vpp = s.wa.vppT) ∧
    (t.pub.wclass ≠ s.pub.wclass → (nextAgent s).1 = .seq ∧ s.phase = 0x18#5 ∧ t.pub.wclass = s.wa.clsT)

/-- R27: which micro-operation sets and clears each flag, in every step but the host's execution of a RESET. -/
def Obligations.FlagsHaveTheirWriters : Prop :=
  ∀ s t : State, step s = .next t → ¬ ((nextAgent s).1 = .host ∧ s.env.script.head? = some .reset) →
    (t.flags.crit ≠ s.flags.crit → (nextAgent s).1 = .seq ∧
      ((s.phase = 0x02#5 ∧ t.flags.crit = true) ∨ (s.phase = 0x04#5 ∧ t.flags.crit = false))) ∧
    (t.flags.fcReady ≠ s.flags.fcReady → (nextAgent s).1 = .seq ∧ s.phase = 0x01#5 ∧ t.flags.fcReady = true) ∧
    (t.flags.waReady ≠ s.flags.waReady → (nextAgent s).1 = .seq ∧ s.phase = 0x10#5 ∧ t.flags.waReady = true) ∧
    (t.flags.fcValid ≠ s.flags.fcValid → (nextAgent s).1 = .seq ∧ s.phase = 0x0A#5 ∧ t.flags.fcValid = true) ∧
    (t.flags.waValid ≠ s.flags.waValid → (nextAgent s).1 = .seq ∧ s.phase = 0x18#5 ∧ t.flags.waValid = true) ∧
    (t.flags.clipf ≠ s.flags.clipf → (nextAgent s).1 = .seq ∧
      ((s.phase = 0x12#5 ∧ t.flags.clipf = true) ∨ (s.phase = 0x11#5 ∧ t.flags.clipf = false))) ∧
    (t.flags.found ≠ s.flags.found → (nextAgent s).1 = .seq ∧ s.phase = 0x09#5)

/-- R66, R272, R67: no step writes the parameters or the calibration ROM; NOW never decreases and only the clock moves it;
RawRead is called only by the sequencer at FC_ACQ and ConvExchange only by it at the two pass samples, once a step. -/
def Obligations.EnvironmentMovesByItsRules : Prop :=
  ∀ s t : State, step s = .next t →
    t.cfg = s.cfg ∧ s.env.now ≤ t.env.now ∧ (t.env.now ≠ s.env.now → ∃ d, (nextAgent s).1 = .clk d) ∧
    (t.env.rawCalls = s.env.rawCalls ∨ ((nextAgent s).1 = .seq ∧ s.phase = 0x03#5 ∧ t.env.rawCalls = s.env.rawCalls + 1)) ∧
    (t.env.convCalls = s.env.convCalls ∨
      ((nextAgent s).1 = .seq ∧ (s.phase = 0x12#5 ∨ s.phase = 0x14#5) ∧ t.env.convCalls = s.env.convCalls + 1))

/-- R71 (c): while an update of one unit runs, nothing of the other unit changes: no step from a frequency phase touches a
waveform register, VPP, WCLASS or WA_VALID, and no step from a waveform phase touches the sample block, a frequency register,
CORR_FREQ, FC_VALID or CRIT. Every step but the host's execution of a RESET. -/
def Obligations.UnitsDoNotInterfere : Prop :=
  ∀ s t : State, step s = .next t → ¬ ((nextAgent s).1 = .host ∧ s.env.script.head? = some .reset) →
    (s.phase ∈ fcPhases → t.wa = s.wa ∧ t.pub.vpp = s.pub.vpp ∧ t.pub.wclass = s.pub.wclass ∧
      t.flags.waValid = s.flags.waValid ∧ t.flags.waReady = s.flags.waReady ∧ t.flags.clipf = s.flags.clipf) ∧
    (s.phase ∈ waPhases → t.blk = s.blk ∧ t.fc = s.fc ∧ t.idx = s.idx ∧ t.pub.corrFreq = s.pub.corrFreq ∧
      t.flags.fcValid = s.flags.fcValid ∧ t.flags.fcReady = s.flags.fcReady ∧ t.flags.crit = s.flags.crit ∧
      t.flags.found = s.flags.found)

/-! ## Headline results -/

/-- The state after reset meets the invariant. It carries the model's choice of parameters and register values (log entries
2 and 3), so the statement is the model's, not a rule's. -/
def Obligations.ResetMeetsInv : Prop := Safety.Inv State.reset

/-- Every step of every agent keeps the invariant: PHASE legal and CRIT, READY, VALID consistent with it (R24, R266, R120,
R293), IDX in range (R25), the arrays canonical, the imaginary part zero until the transform (R143), RAW_FREQ a searched bin
(R163), a valid CORR_FREQ one that was published (R71), MINC ≤ MAXC and CLIPF sound (R214), the counters positive where they
divide (R212), and nothing under a square root or in an output negative (R216). -/
def Obligations.StepKeepsInv : Prop :=
  ∀ s t : State, Safety.Inv s → step s = .next t → Safety.Inv t

/-- R260: every step is total: from every state that meets the invariant, and every answer of the environment that meets its
contract, the step has a next state, which meets the contract again. -/
def Obligations.EveryStepIsTotal : Prop :=
  ∀ s : State, Safety.Inv s → Contract s → ∃ t, step s = .next t ∧ Contract t

/-- R122, R129: a FC_UPDATE, under any interleaving of the clock and of a host that does not reset the block, draws exactly N
counts and publishes FcResult of them, sets FC_VALID, closes the critical section, and leaves the waveform outputs alone. -/
def Obligations.FrequencyUpdatePublishesFcResult : Prop :=
  ∀ (k : Nat) (s t : State) (d : Draws), Safety.Inv s → NoReset s → s.phase = 0x02#5 → busyRun k s = some (d, t) →
    t.phase = 0x00#5 →
    d.raw.length = s.cfg.n ∧ (∀ c ∈ d.raw, c ≤ s.cfg.fcMaxCount) ∧ d.p1 = [] ∧ d.p2 = [] ∧
    t.pub.corrFreq = fcResult s.cfg (fun i => d.raw.getD i 0) ∧ t.flags.fcValid = true ∧ t.flags.crit = false ∧
    t.pub.vpp = s.pub.vpp ∧ t.pub.wclass = s.pub.wclass ∧ t.flags.waValid = s.flags.waValid ∧
    t.flags.fcReady = s.flags.fcReady ∧ t.flags.waReady = s.flags.waReady ∧
    t.env.rawCalls = s.env.rawCalls + s.cfg.n ∧ t.env.convCalls = s.env.convCalls

/-- R124, R130: a WA_UPDATE, under any interleaving, takes at least one sample in each pass and publishes WaResult of the two
sequences, sets WA_VALID, and leaves the frequency output alone. -/
def Obligations.WaveformUpdatePublishesWaResult : Prop :=
  ∀ (k : Nat) (s t : State) (d : Draws), Safety.Inv s → NoReset s → s.phase = 0x11#5 → busyRun k s = some (d, t) →
    t.phase = 0x00#5 →
    d.p1 ≠ [] ∧ d.p2 ≠ [] ∧ d.raw = [] ∧ (t.pub.vpp, t.pub.wclass) = waResult s.cfg d.p1 d.p2 ∧
    t.flags.waValid = true ∧ t.pub.corrFreq = s.pub.corrFreq ∧ t.flags.fcValid = s.flags.fcValid ∧
    t.flags.crit = s.flags.crit ∧ t.flags.fcReady = s.flags.fcReady ∧ t.flags.waReady = s.flags.waReady ∧
    t.env.convCalls = s.env.convCalls + d.p1.length + d.p2.length ∧ t.env.rawCalls = s.env.rawCalls

/-- R300 (a), (b): the durations of an update: at least (N - 1) · T_S microseconds, and at least T_PASS1 + T_PASS2. -/
def Obligations.UpdatesTakeTheirTime : Prop :=
  ∀ (k : Nat) (s t : State) (d : Draws), Safety.Inv s → NoReset s → busyRun k s = some (d, t) → t.phase = 0x00#5 →
    (s.phase = 0x02#5 → s.env.now + (s.cfg.n - 1) * s.cfg.tS ≤ t.env.now) ∧
    (s.phase = 0x11#5 → s.env.now + (s.cfg.tPass1 + s.cfg.tPass2) ≤ t.env.now)

/-- R297, R272: the block is never stuck: from every state that meets the invariant, with sources that keep their contract,
some schedule of the sequencer and the clock ends the command in progress, and no step is taken past that schedule. -/
def Obligations.EveryCommandCanEnd : Prop :=
  ∀ s : State, Safety.Inv s → Contract s → ∃ (sched : List Agent) (k : Nat) (d : Draws) (t : State),
    Agent.host ∉ sched ∧ k ≤ sched.length ∧ busyRun k { s with env := { s.env with sched := sched } } = some (d, t) ∧
    t.phase = 0x00#5

/-! ## The word on the host port -/

/-- R97: the word of a host read of CORR_FREQ or VPP is NUM_ENCODE of the VALUE the register holds in the build's instance of
NUMERICS; under the reference instance two contents that compare equal, however computed, have one word. That the model
hands its host the Num, and speaks of the word here only, is log entry 9. -/
def Obligations.HostWordEncodesTheValue : Prop :=
  ∀ s : State,
    (s.cfg.numerics = .reference →
      (s.flags.fcValid = true → (hostRead 2#3 s).1.image s.cfg = Config.numEncode s.pub.corrFreq.toReal) ∧
      (s.flags.waValid = true → (hostRead 3#3 s).1.image s.cfg = Config.numEncode s.pub.vpp.toReal) ∧
      (∀ a b : Sys2Proof.Num, s.cfg.le a b = true → s.cfg.le b a = true →
        (ReadVal.num a).image s.cfg = (ReadVal.num b).image s.cfg)) ∧
    (∀ k : Nat, s.cfg.numerics = .other k →
      let F := Config.numerics k
      (s.flags.fcValid = true → (hostRead 2#3 s).1.image s.cfg = Config.numEncodeOther k (s.pub.corrFreq.eval F)) ∧
      (s.flags.waValid = true → (hostRead 3#3 s).1.image s.cfg = Config.numEncodeOther k (s.pub.vpp.eval F)) ∧
      (∀ a b : Sys2Proof.Num, a.eval F = b.eval F → (ReadVal.num a).image s.cfg = (ReadVal.num b).image s.cfg))

end
end

