-- ==== Sys2Proof/Laws/Separation.lean ====
section
/-! SUPPORT. The separation bound of Exact.sepBits: a term whose value is not zero is at least 2^-sepBits in modulus. The
value is U / L with U and L algebraic integers; the product of the conjugates of U is a nonzero integer, so none of them can
be small when all are bounded and few (the degree is bounded by the roots of unity and square roots in the term). -/

open Polynomial IntermediateField

namespace Sys2Proof.Laws.Separation

/-- The algebraic numbers inside ℂ. -/
abbrev Alg : Type := algebraicClosure ℚ ℂ

/-- Every conjugate of z is at most B in modulus. -/
def House (z : Alg) (B : ℝ) : Prop := ∀ σ : Alg →ₐ[ℚ] ℂ, ‖σ z‖ ≤ B

theorem one_le_conj_mul_pow {β : Alg} (hint : IsIntegral ℤ β) (h0 : β ≠ 0) {B : ℝ} (hB1 : 1 ≤ B)
    (hB : House β B) {d : ℕ} (hd : (minpoly ℚ β).natDegree ≤ d) (σ : Alg →ₐ[ℚ] ℂ) :
    1 ≤ ‖σ β‖ * B ^ d := by
  have hintQ : IsIntegral ℚ β := hint.tower_top
  set p := minpoly ℤ β with hp
  have hpQ : minpoly ℚ β = p.map (algebraMap ℤ ℚ) := minpoly.isIntegrallyClosed_eq_field_fractions' ℚ hint
  have hmon : p.Monic := minpoly.monic hint
  set f : ℂ[X] := (minpoly ℚ β).map (algebraMap ℚ ℂ) with hf
  have hfmon : f.Monic := (minpoly.monic hintQ).map _
  have hfsplit : f.Splits := IsAlgClosed.splits f
  have hc0 : p.coeff 0 ≠ 0 := by
    intro h
    have : (minpoly ℚ β).coeff 0 = 0 := by rw [hpQ, coeff_map, h, map_zero]
    exact h0 ((minpoly.coeff_zero_eq_zero hintQ).1 this)
  have hone : 1 ≤ ‖f.coeff 0‖ := by
    have : f.coeff 0 = ((p.coeff 0 : ℤ) : ℂ) := by
      rw [hf, hpQ, coeff_map, coeff_map]; simp
    rw [this, Complex.norm_intCast]
    exact_mod_cast Int.one_le_abs hc0
  have hprod : f.coeff 0 = (-1) ^ f.natDegree * f.roots.prod := hfsplit.coeff_zero_eq_prod_roots_of_monic hfmon
  have hroot : ∀ w ∈ f.roots, ‖w‖ ≤ B := by
    intro w hw
    have : w ∈ (minpoly ℚ β).rootSet ℂ := by
      rw [mem_rootSet']
      have h1 := (mem_roots'.1 hw)
      refine ⟨h1.1, ?_⟩
      have := h1.2
      rwa [IsRoot.def, hf, eval_map_algebraMap] at this
    have halg : Algebra.IsAlgebraic ℚ Alg := algebraicClosure.isAlgebraic ℚ ℂ
    rw [← Algebra.IsAlgebraic.range_eval_eq_rootSet_minpoly ℂ β] at this
    obtain ⟨τ, rfl⟩ := this
    exact hB τ
  have hmem : σ β ∈ f.roots := by
    rw [mem_roots hfmon.ne_zero, IsRoot.def, hf, eval_map_algebraMap, aeval_algHom_apply, minpoly.aeval, map_zero]
  obtain ⟨t, ht⟩ := Multiset.exists_cons_of_mem hmem
  have hcard : t.card ≤ d := by
    have h1 : f.roots.card = f.natDegree := (splits_iff_card_roots.1 hfsplit)
    have h2 : f.natDegree ≤ d := by rw [hf, natDegree_map]; exact hd
    rw [ht, Multiset.card_cons] at h1
    omega
  have htp : ‖t.prod‖ ≤ B ^ t.card := by
    have hall : ∀ w ∈ t, ‖w‖ ≤ B := fun w hw => hroot w (ht ▸ Multiset.mem_cons_of_mem hw)
    clear_value f
    clear ht hcard
    induction t using Multiset.induction with
    | empty => simp
    | cons a s ih =>
      rw [Multiset.prod_cons, norm_mul, Multiset.card_cons, pow_succ, mul_comm (B ^ _)]
      exact mul_le_mul (hall a (Multiset.mem_cons_self a s)) (ih fun w hw => hall w (Multiset.mem_cons_of_mem hw))
        (norm_nonneg _) (by linarith)
  calc (1 : ℝ) ≤ ‖f.coeff 0‖ := hone
    _ = ‖σ β‖ * ‖t.prod‖ := by rw [hprod, norm_mul, norm_pow, norm_neg, norm_one, one_pow, one_mul, ht, Multiset.prod_cons, norm_mul]
    _ ≤ ‖σ β‖ * B ^ d := by
      refine mul_le_mul_of_nonneg_left (htp.trans ?_) (norm_nonneg _)
      exact pow_le_pow_right₀ hB1 hcard


open Module

/-- The field the m-th roots of unity generate. -/
noncomputable abbrev Cyc (m : ℕ) : IntermediateField ℚ Alg := adjoin ℚ {z : Alg | z ^ m = 1}

/-- x = U / L with U, L algebraic integers of bounded house, in a field of degree at most 2^r over the
m-th cyclotomic field. -/
def Rep (m : ℕ) (x : ℝ) (u l r : ℕ) : Prop :=
  ∃ (F : IntermediateField (Cyc m) Alg) (U L : Alg), FiniteDimensional (Cyc m) F ∧
    finrank (Cyc m) F ≤ 2 ^ r ∧ U ∈ F ∧ L ∈ F ∧ IsIntegral ℤ U ∧ IsIntegral ℤ L ∧ L ≠ 0 ∧
    (U : ℂ) = (x : ℂ) * (L : ℂ) ∧ House U (2 ^ u) ∧ House L (2 ^ l)

theorem House.mono {z : Alg} {B C : ℝ} (h : House z B) (hBC : B ≤ C) : House z C := fun σ => (h σ).trans hBC

theorem House.mul {y z : Alg} {u l : ℕ} (hy : House y (2 ^ u)) (hz : House z (2 ^ l)) : House (y * z) (2 ^ (u + l)) := by
  intro σ
  rw [map_mul, norm_mul, pow_add]
  exact mul_le_mul (hy σ) (hz σ) (norm_nonneg _) (by positivity)

theorem House.add {y z : Alg} {u : ℕ} (hy : House y (2 ^ u)) (hz : House z (2 ^ u)) : House (y + z) (2 ^ (u + 1)) := by
  intro σ
  rw [map_add, pow_succ]
  linarith [norm_add_le (σ y) (σ z), hy σ, hz σ]

theorem pow_le_pow_two {a b : ℕ} (h : a ≤ b) : (2 : ℝ) ^ a ≤ 2 ^ b := pow_le_pow_right₀ (by norm_num) h

theorem Rep.add {m : ℕ} {x y : ℝ} {u l r u' l' r' : ℕ} (hx : Rep m x u l r) (hy : Rep m y u' l' r') :
    Rep m (x + y) (max (u + l') (u' + l) + 1) (l + l') (r + r') := by
  obtain ⟨F, U, L, fF, hF, hUF, hLF, iU, iL, hL, hxU, bU, bL⟩ := hx
  obtain ⟨F', U', L', fF', hF', hUF', hLF', iU', iL', hL', hyU, bU', bL'⟩ := hy
  have l1 : F ≤ F ⊔ F' := le_sup_left
  have l2 : F' ≤ F ⊔ F' := le_sup_right
  refine ⟨F ⊔ F', U * L' + U' * L, L * L', inferInstance, ?_, ?_, ?_, ?_, ?_, ?_, ?_, ?_, bL.mul bL'⟩
  · exact (finrank_sup_le F F').trans (by rw [pow_add]; exact Nat.mul_le_mul hF hF')
  · exact add_mem (mul_mem (l1 hUF) (l2 hLF')) (mul_mem (l2 hUF') (l1 hLF))
  · exact mul_mem (l1 hLF) (l2 hLF')
  · exact (iU.mul iL').add (iU'.mul iL)
  · exact iL.mul iL'
  · exact mul_ne_zero hL hL'
  · push_cast; rw [hxU, hyU]; ring
  · exact House.add ((bU.mul bL').mono (pow_le_pow_two (le_max_left _ _))) ((bU'.mul bL).mono (pow_le_pow_two (le_max_right _ _)))

theorem Rep.mul {m : ℕ} {x y : ℝ} {u l r u' l' r' : ℕ} (hx : Rep m x u l r) (hy : Rep m y u' l' r') :
    Rep m (x * y) (u + u') (l + l') (r + r') := by
  obtain ⟨F, U, L, fF, hF, hUF, hLF, iU, iL, hL, hxU, bU, bL⟩ := hx
  obtain ⟨F', U', L', fF', hF', hUF', hLF', iU', iL', hL', hyU, bU', bL'⟩ := hy
  have l1 : F ≤ F ⊔ F' := le_sup_left
  have l2 : F' ≤ F ⊔ F' := le_sup_right
  refine ⟨F ⊔ F', U * U', L * L', inferInstance, ?_, ?_, ?_, iU.mul iU', iL.mul iL', mul_ne_zero hL hL', ?_, bU.mul bU', bL.mul bL'⟩
  · exact (finrank_sup_le F F').trans (by rw [pow_add]; exact Nat.mul_le_mul hF hF')
  · exact mul_mem (l1 hUF) (l2 hUF')
  · exact mul_mem (l1 hLF) (l2 hLF')
  · push_cast; rw [hxU, hyU]; ring

theorem house_natCast (n k : ℕ) (h : n ≤ 2 ^ k) : House (n : Alg) (2 ^ k) := by
  intro σ
  rw [map_natCast, Complex.norm_natCast]
  exact_mod_cast h

theorem Rep.zero (m u l r : ℕ) : Rep m 0 u l r :=
  ⟨⊥, 0, 1, inferInstance, by rw [IntermediateField.finrank_bot]; exact Nat.one_le_two_pow, zero_mem _, one_mem _, isIntegral_zero, isIntegral_one,
    one_ne_zero, by simp, fun σ => by simp, by simpa using house_natCast 1 l Nat.one_le_two_pow⟩

theorem Rep.inv {m : ℕ} {x : ℝ} {u l r : ℕ} (hx : Rep m x u l r) : Rep m x⁻¹ l u r := by
  by_cases h0 : x = 0
  · rw [h0, inv_zero]; exact Rep.zero m l u r
  obtain ⟨F, U, L, fF, hF, hUF, hLF, iU, iL, hL, hxU, bU, bL⟩ := hx
  have hxc : (x : ℂ) ≠ 0 := by exact_mod_cast h0
  refine ⟨F, L, U, fF, hF, hLF, hUF, iL, iU, ?_, ?_, bL, bU⟩
  · rintro rfl
    have : (L : ℂ) = 0 := by
      rcases mul_eq_zero.1 (hxU.symm.trans (by simp)) with h | h
      · exact absurd h hxc
      · exact h
    exact hL (by exact_mod_cast this)
  · rw [hxU]; push_cast; field_simp

theorem Rep.rat (m : ℕ) (q : ℚ) {u l : ℕ} (hu : q.num.natAbs ≤ 2 ^ u) (hl : q.den ≤ 2 ^ l) : Rep m q u l 0 := by
  refine ⟨⊥, (q.num : Alg), (q.den : Alg), inferInstance, by rw [IntermediateField.finrank_bot]; simp, intCast_mem _ _, IntermediateField.natCast_mem _ _, ?_, ?_, ?_, ?_, ?_, house_natCast _ _ hl⟩
  · exact isIntegral_algebraMap (R := ℤ) (x := q.num)
  · exact_mod_cast isIntegral_algebraMap (R := ℤ) (A := Alg) (x := (q.den : ℤ))
  · exact_mod_cast q.den_ne_zero
  · have : (q : ℂ) * (q.den : ℂ) = (q.num : ℂ) := by exact_mod_cast Rat.mul_den_eq_num q
    push_cast; exact this.symm
  · intro σ
    rw [map_intCast, Complex.norm_intCast, ← Int.cast_abs, Int.abs_eq_natAbs]
    exact_mod_cast hu

theorem quadratic_step {k K : Type*} [Field k] [Field K] [Algebra k K] (F : IntermediateField k K)
    [FiniteDimensional k F] (V : K) (hV : V ^ 2 ∈ F) :
    ∃ F' : IntermediateField k K, F ≤ F' ∧ V ∈ F' ∧ FiniteDimensional k F' ∧ finrank k F' ≤ finrank k F * 2 := by
  set c : F := ⟨V ^ 2, hV⟩ with hc
  have haev : Polynomial.aeval V (X ^ 2 - C c : F[X]) = 0 := by
    simp only [map_sub, map_pow, aeval_X, aeval_C]
    exact sub_self _
  have hmon : (X ^ 2 - C c : F[X]).Monic := monic_X_pow_sub_C c (by norm_num)
  have iVF : IsIntegral F V := ⟨_, hmon, by rwa [← aeval_def]⟩
  have hdeg : finrank F (adjoin F {V}) ≤ 2 := by
    rw [adjoin.finrank iVF]
    calc (minpoly F V).natDegree ≤ (X ^ 2 - C c : F[X]).natDegree :=
          natDegree_le_of_dvd (minpoly.dvd F V haev) hmon.ne_zero
      _ = 2 := natDegree_X_pow_sub_C
  have fV : FiniteDimensional F (adjoin F {V}) := adjoin.finiteDimensional iVF
  refine ⟨(adjoin F {V}).restrictScalars k, ?_, mem_adjoin_simple_self F V, FiniteDimensional.trans k F (adjoin F {V}), ?_⟩
  · intro y hy
    exact IntermediateField.algebraMap_mem (adjoin F {V}) (⟨y, hy⟩ : F)
  · have hfree : Module.Free F (adjoin F {V}) := Module.Free.of_divisionRing _ _
    have hfree' : Module.Free k F := Module.Free.of_divisionRing _ _
    have h1 : finrank k F * finrank F (adjoin F {V}) = finrank k (adjoin F {V}) := finrank_mul_finrank _ _ _
    exact h1.symm.le.trans (Nat.mul_le_mul_left _ hdeg)

theorem natDegree_minpoly_le {k C K : Type*} [Field k] [Field C] [Field K] [Algebra k C] [Algebra C K] [Algebra k K]
    [IsScalarTower k C K] [FiniteDimensional k C] (F : IntermediateField C K) [FiniteDimensional C F] {U : K} (hU : U ∈ F) :
    (minpoly k U).natDegree ≤ finrank k C * finrank C F := by
  have fQ : FiniteDimensional k (F.restrictScalars k) := FiniteDimensional.trans k C F
  have h1 : minpoly k (⟨U, hU⟩ : F.restrictScalars k) = minpoly k U :=
    (minpoly.algebraMap_eq (A := k) (B := F.restrictScalars k) (B' := K) Subtype.val_injective ⟨U, hU⟩).symm
  have h2 : finrank k C * finrank C F = finrank k F := finrank_mul_finrank _ _ _
  rw [← h1, h2, show finrank k F = finrank k (F.restrictScalars k) from rfl]
  exact minpoly.natDegree_le _

theorem Rep.sqrt {m : ℕ} {x : ℝ} {u l r : ℕ} (hx : Rep m x u l r) : Rep m (√x) ((u + l + 1) / 2) l (r + 1) := by
  by_cases h0 : x ≤ 0
  · rw [Real.sqrt_eq_zero'.2 h0]; exact Rep.zero _ _ _ _
  obtain ⟨F, U, L, fF, hF, hUF, hLF, iU, iL, hL, hxU, bU, bL⟩ := hx
  have hsq : ((√x : ℝ) : ℂ) ^ 2 = x := by rw [← Complex.ofReal_pow, Real.sq_sqrt (not_le.1 h0).le]
  set w : ℂ := ((√x : ℝ) : ℂ) * (L : ℂ) with hw
  have hw2 : w ^ 2 = ((U * L : Alg) : ℂ) := by rw [hw, mul_pow, hsq]; push_cast; rw [hxU]; ring
  have iUL : IsIntegral ℤ (U * L) := iU.mul iL
  have iw : IsIntegral ℤ w := by
    refine IsIntegral.of_pow (n := 2) (by norm_num) ?_
    rw [hw2]
    exact iUL.map (algebraicClosure ℚ ℂ).val.toRingHom.toIntAlgHom
  have hwm : w ∈ algebraicClosure ℚ ℂ := mem_algebraicClosure_iff'.2 (iw.tower_top)
  set V : Alg := ⟨w, hwm⟩ with hV
  have hV2 : V ^ 2 = U * L := Subtype.ext (by rw [← hw2]; rfl)
  have iV : IsIntegral ℤ V := IsIntegral.of_pow (n := 2) (by norm_num) (hV2 ▸ iUL)
  obtain ⟨F', hle, hVF', fF', hF'⟩ := quadratic_step F V (hV2 ▸ mul_mem hUF hLF)
  refine ⟨F', V, L, fF', hF'.trans ?_, hVF', hle hLF, iV, iL, hL, rfl, ?_, bL⟩
  · rw [pow_succ]; exact Nat.mul_le_mul_right 2 hF
  · intro σ
    have h2 : ‖σ V‖ ^ 2 ≤ (2 ^ ((u + l + 1) / 2)) ^ 2 := by
      rw [← norm_pow, ← map_pow, hV2]
      refine ((bU.mul bL) σ).trans ?_
      rw [← pow_mul]
      exact pow_le_pow_two (by omega)
    exact (pow_le_pow_iff_left₀ (norm_nonneg _) (by positivity) (by norm_num)).1 h2

theorem Rep.cosPi {m : ℕ} (q : ℚ) (hm : 2 * q.den ∣ m) : Rep m (Real.cos (q * Real.pi)) 1 1 0 := by
  set z : ℂ := Complex.exp ((q * Real.pi : ℝ) * Complex.I) with hz
  have hzn : z ^ (2 * q.den) = 1 := by
    rw [hz, ← Complex.exp_nat_mul, Complex.exp_eq_one_iff]
    refine ⟨q.num, ?_⟩
    have : (q : ℂ) * (q.den : ℂ) = (q.num : ℂ) := by exact_mod_cast Rat.mul_den_eq_num q
    push_cast
    linear_combination (2 * Real.pi * Complex.I : ℂ) * this
  have hzm : z ^ m = 1 := by obtain ⟨k, rfl⟩ := hm; rw [pow_mul, hzn, one_pow]
  have hpos : 0 < 2 * q.den := by have := q.den_pos; omega
  have iz : IsIntegral ℤ z := IsIntegral.of_pow hpos (hzn ▸ isIntegral_one)
  set Z : Alg := ⟨z, mem_algebraicClosure_iff'.2 iz.tower_top⟩ with hZ
  have hZn : Z ^ (2 * q.den) = 1 := Subtype.ext (by simpa [hZ] using hzn)
  have hZm : Z ^ m = 1 := Subtype.ext (by simpa [hZ] using hzm)
  have iZ : IsIntegral ℤ Z := IsIntegral.of_pow hpos (hZn ▸ isIntegral_one)
  have hZ0 : Z ≠ 0 := by rintro h; rw [h, zero_pow hpos.ne'] at hZn; exact zero_ne_one hZn
  have hZin : Z⁻¹ ^ (2 * q.den) = 1 := by rw [inv_pow, hZn, inv_one]
  have iZi : IsIntegral ℤ Z⁻¹ := IsIntegral.of_pow hpos (hZin ▸ isIntegral_one)
  have hmemC : Z ∈ Cyc m := subset_adjoin _ _ hZm
  have hhouse : ∀ Y : Alg, Y ^ (2 * q.den) = 1 → House Y (2 ^ 0) := by
    intro Y hY σ
    have : ‖σ Y‖ ^ (2 * q.den) = 1 := by rw [← norm_pow, ← map_pow, hY, map_one, norm_one]
    rw [(pow_eq_one_iff_of_nonneg (norm_nonneg _) hpos.ne').1 this]; norm_num
  refine ⟨⊥, Z + Z⁻¹, 2, inferInstance, by rw [IntermediateField.finrank_bot]; simp, ?_, ?_, iZ.add iZi, ?_, two_ne_zero, ?_, ?_, ?_⟩
  · exact IntermediateField.algebraMap_mem (⊥ : IntermediateField (Cyc m) Alg) (⟨Z + Z⁻¹, add_mem hmemC (inv_mem hmemC)⟩ : Cyc m)
  · exact_mod_cast IntermediateField.natCast_mem (⊥ : IntermediateField (Cyc m) Alg) 2
  · exact_mod_cast isIntegral_algebraMap (R := ℤ) (A := Alg) (x := (2 : ℤ))
  · have hinv : ((Z⁻¹ : Alg) : ℂ) = Complex.exp (-((q * Real.pi : ℝ) * Complex.I)) := by
      rw [Complex.exp_neg]; rfl
    rw [show ((Z + Z⁻¹ : Alg) : ℂ) = (Z : ℂ) + ((Z⁻¹ : Alg) : ℂ) from rfl, hinv]
    have h2 := Complex.two_cos ((q * Real.pi : ℝ) : ℂ)
    rw [show ((Z : Alg) : ℂ) = Complex.exp ((q * Real.pi : ℝ) * Complex.I) from rfl, ← neg_mul, ← h2]
    rw [show ((2 : Alg) : ℂ) = 2 from rfl]
    push_cast; ring
  · exact (hhouse Z hZn).add (hhouse _ hZin)
  · exact_mod_cast house_natCast 2 1 (by norm_num)

theorem finrank_Cyc_le {m : ℕ} (hm : 0 < m) : FiniteDimensional ℚ (Cyc m) ∧ finrank ℚ (Cyc m) ≤ m := by
  obtain ⟨ζ, hζ⟩ : ∃ ζ : Alg, IsPrimitiveRoot ζ m := by
    have h := Complex.isPrimitiveRoot_exp m hm.ne'
    have iz : IsIntegral ℤ (Complex.exp (2 * Real.pi * Complex.I / m)) := IsIntegral.of_pow hm (h.pow_eq_one ▸ isIntegral_one)
    refine ⟨⟨_, mem_algebraicClosure_iff'.2 iz.tower_top⟩, ?_⟩
    exact IsPrimitiveRoot.of_map_of_injective (f := (algebraicClosure ℚ ℂ).val) h (algebraicClosure ℚ ℂ).val.injective
  have : NeZero m := ⟨hm.ne'⟩
  have heq : Cyc m = adjoin ℚ {ζ} := by
    refine le_antisymm (adjoin_le_iff.2 ?_) (adjoin_le_iff.2 ?_)
    · intro z hz
      obtain ⟨i, -, rfl⟩ := hζ.eq_pow_of_pow_eq_one (by simpa using hz)
      exact pow_mem (mem_adjoin_simple_self ℚ ζ) i
    · rintro z rfl
      exact subset_adjoin _ _ hζ.pow_eq_one
  have hmon : (X ^ m - 1 : ℚ[X]).Monic := monic_X_pow_sub_C 1 hm.ne'
  have haev : Polynomial.aeval ζ (X ^ m - 1 : ℚ[X]) = 0 := by simp [hζ.pow_eq_one]
  have iζ : IsIntegral ℚ ζ := ⟨_, hmon, by rwa [← aeval_def]⟩
  rw [heq]
  refine ⟨adjoin.finiteDimensional iζ, ?_⟩
  rw [adjoin.finrank iζ]
  exact (natDegree_le_of_dvd (minpoly.dvd ℚ ζ haev) hmon.ne_zero).trans (by
    rw [show (1 : ℚ[X]) = C 1 by simp, natDegree_X_pow_sub_C])

theorem Rep.one_le {m : ℕ} (hm : 0 < m) {x : ℝ} {u l r : ℕ} (hx : Rep m x u l r) (h0 : x ≠ 0) :
    1 ≤ |x| * 2 ^ (m * 2 ^ r * u + l) := by
  obtain ⟨F, U, L, fF, hF, hUF, hLF, iU, iL, hL, hxU, bU, bL⟩ := hx
  obtain ⟨fC, hC⟩ := finrank_Cyc_le hm
  have hU0 : U ≠ 0 := by
    rintro rfl
    rcases mul_eq_zero.1 (hxU.symm.trans (by simp)) with h | h
    · exact h0 (by exact_mod_cast h)
    · exact hL (by exact_mod_cast h)
  have hdeg : (minpoly ℚ U).natDegree ≤ m * 2 ^ r :=
    (natDegree_minpoly_le F hUF).trans (Nat.mul_le_mul hC hF)
  have h1 := one_le_conj_mul_pow iU hU0 (one_le_pow₀ (by norm_num)) bU hdeg (algebraicClosure ℚ ℂ).val
  have h2 : ‖(algebraicClosure ℚ ℂ).val U‖ ≤ |x| * 2 ^ l := by
    have : (algebraicClosure ℚ ℂ).val U = (x : ℂ) * (L : ℂ) := hxU
    rw [this, norm_mul, Complex.norm_real, Real.norm_eq_abs]
    exact mul_le_mul_of_nonneg_left (bL (algebraicClosure ℚ ℂ).val) (abs_nonneg _)
  calc (1 : ℝ) ≤ (|x| * 2 ^ l) * (2 ^ u) ^ (m * 2 ^ r) := h1.trans (mul_le_mul_of_nonneg_right h2 (by positivity))
    _ = |x| * 2 ^ (m * 2 ^ r * u + l) := by rw [← pow_mul, mul_comm u, pow_add]; ring

/-- Every term has the shape Exact.size says it has. -/
theorem rep_size (a : Exact) : ∀ m, a.size.ord ∣ m → Rep m a.toReal a.size.num a.size.den a.size.roots := by
  induction a with
  | rat q =>
    intro m _
    exact Rep.rat m q (Nat.lt_log2_self.le) (Nat.lt_log2_self.le)
  | cosPi q => intro m hm; exact Rep.cosPi q hm
  | plus a b iha ihb =>
    intro m hm
    exact (iha m ((Nat.dvd_lcm_left _ _).trans hm)).add (ihb m ((Nat.dvd_lcm_right _ _).trans hm))
  | times a b iha ihb =>
    intro m hm
    exact (iha m ((Nat.dvd_lcm_left _ _).trans hm)).mul (ihb m ((Nat.dvd_lcm_right _ _).trans hm))
  | recip a iha => intro m hm; exact (iha m hm).inv
  | root a iha => intro m hm; exact (iha m hm).sqrt

theorem size_ord_pos (a : Exact) : 0 < a.size.ord := by
  induction a with
  | rat q => exact Nat.one_pos
  | cosPi q => exact Nat.mul_pos (by norm_num) q.den_pos
  | plus a b iha ihb => exact Nat.lcm_pos iha ihb
  | times a b iha ihb => exact Nat.lcm_pos iha ihb
  | recip a iha => exact iha
  | root a iha => exact iha

/-- The separation bound. -/
theorem one_le_abs_mul_sepBits (a : Exact) (h : a.toReal ≠ 0) : 1 ≤ |a.toReal| * 2 ^ a.sepBits :=
  (rep_size a _ (dvd_refl _)).one_le (size_ord_pos a) h

end Sys2Proof.Laws.Separation
end

