-- ==== Sys2Proof/Laws/Approximation.lean ====
section
/-! SUPPORT. Exact.approx is right to within one unit in the last place at every scale. -/

namespace Sys2Proof.Laws.Approximation
open ExactArith

/-- z is x times 2^p to within 1. -/
def Near (x : ℝ) (p : ℕ) (z : ℤ) : Prop := |x * 2 ^ p - z| ≤ 1

theorem scale_cast (p : ℕ) : ((scale p : ℤ) : ℝ) = 2 ^ p := by simp [scale]

theorem scale_pos (p : ℕ) : 0 < scale p := by simp [scale]

theorem ediv_near (z d : ℤ) (hd : d ≠ 0) : |(z : ℝ) / d - ((z / d : ℤ) : ℝ)| ≤ 1 := by
  have h := Int.emod_add_mul_ediv z d
  have h0 := Int.emod_nonneg z hd
  have h1 := Int.emod_lt_abs z hd
  have hdR : (d : ℝ) ≠ 0 := by exact_mod_cast hd
  have e : (z : ℝ) / d - ((z / d : ℤ) : ℝ) = ((z % d : ℤ) : ℝ) / d := by
    have : (z : ℝ) = ((z % d : ℤ) : ℝ) + d * ((z / d : ℤ) : ℝ) := by exact_mod_cast h.symm
    rw [this]; field_simp; ring
  rw [e, abs_div, div_le_one (abs_pos.2 hdR)]
  rw [abs_of_nonneg (by exact_mod_cast h0), ← Int.cast_abs]
  exact_mod_cast h1.le

theorem rshift_near (z : ℤ) {k : ℕ} (hk : 0 < k) : |(z : ℝ) / 2 ^ k - (rshift z k : ℤ)| ≤ 1 / 2 := by
  obtain ⟨j, rfl⟩ : ∃ j, k = j + 1 := ⟨k - 1, by omega⟩
  have hs : scale (j + 1) = 2 * scale j := by simp [scale, pow_succ, mul_comm]
  have h := Int.emod_add_mul_ediv (z + scale j) (scale (j + 1))
  have h0 := Int.emod_nonneg (z + scale j) (scale_pos (j + 1)).ne'
  have h1 := Int.emod_lt_of_pos (z + scale j) (scale_pos (j + 1))
  have hr : rshift z (j + 1) = (z + scale j) / scale (j + 1) := rfl
  rw [← hr] at h
  set m := (z + scale j) % scale (j + 1)
  have hR : (m : ℝ) + 2 ^ (j + 1) * (rshift z (j + 1) : ℝ) = z + 2 ^ j := by
    rw [← scale_cast (j + 1), ← scale_cast j]; exact_mod_cast h
  have h0R : (0 : ℝ) ≤ m := by exact_mod_cast h0
  have h1R : (m : ℝ) < 2 ^ (j + 1) := by rw [← scale_cast]; exact_mod_cast h1
  have hp : (0 : ℝ) < 2 ^ j := by positivity
  rw [pow_succ] at *
  rw [abs_le]
  constructor
  · rw [le_sub_iff_add_le, le_div_iff₀ (by positivity)]; nlinarith
  · rw [sub_le_iff_le_add, div_le_iff₀ (by positivity)]; nlinarith

/-- Rounding a finer approximation: `e` in the last place at scale p + k. -/
theorem near_of_rshift {x : ℝ} {p k : ℕ} {z : ℤ} (hk : 0 < k) (h : |x * 2 ^ (p + k) - z| ≤ 2 ^ k / 2) :
    Near x p (rshift z k) := by
  have h1 := rshift_near z hk
  have h2 : |x * 2 ^ p - (z : ℝ) / 2 ^ k| ≤ 1 / 2 := by
    have e : x * 2 ^ p - (z : ℝ) / 2 ^ k = (x * 2 ^ (p + k) - z) / 2 ^ k := by
      rw [pow_add]; field_simp
    rw [e, abs_div, abs_of_pos (by positivity : (0 : ℝ) < 2 ^ k), div_le_iff₀ (by positivity)]
    linarith
  unfold Near
  calc _ = |(x * 2 ^ p - (z : ℝ) / 2 ^ k) + ((z : ℝ) / 2 ^ k - (rshift z k : ℤ))| := by ring_nf
    _ ≤ _ := abs_add_le _ _
    _ ≤ 1 := by linarith

theorem isqrtFuel_spec (f n : ℕ) (h : n < 4 ^ f) :
    isqrtFuel f n * isqrtFuel f n ≤ n ∧ n < (isqrtFuel f n + 1) * (isqrtFuel f n + 1) := by
  induction f generalizing n with
  | zero => simp at h; subst h; simp [isqrtFuel]
  | succ f ih =>
    obtain ⟨h1, h2⟩ := ih (n / 4) (by rw [pow_succ] at h; omega)
    set r := isqrtFuel f (n / 4) with hr
    have h3 : isqrtFuel (f + 1) n = if (2 * r + 1) * (2 * r + 1) ≤ n then 2 * r + 1 else 2 * r := rfl
    have h4 : 4 * (n / 4) ≤ n := Nat.mul_div_le n 4
    have h5 : n < 4 * (n / 4) + 4 := by omega
    rw [h3]
    split
    · exact ⟨by assumption, by nlinarith⟩
    · exact ⟨by nlinarith, by omega⟩

theorem isqrt_spec (n : ℕ) : isqrt n * isqrt n ≤ n ∧ n < (isqrt n + 1) * (isqrt n + 1) := by
  refine isqrtFuel_spec _ _ (lt_of_lt_of_le (Nat.lt_log2_self (n := n)) ?_)
  exact Nat.pow_le_pow_left (by norm_num) _

theorem isqrt_near (n : ℕ) : |√(n : ℝ) - isqrt n| ≤ 1 := by
  obtain ⟨h1, h2⟩ := isqrt_spec n
  have h1R : ((isqrt n : ℝ)) ^ 2 ≤ n := by rw [sq]; exact_mod_cast h1
  have h2R : (n : ℝ) ≤ ((isqrt n : ℝ) + 1) ^ 2 := by rw [sq]; exact_mod_cast h2.le
  rw [abs_le]
  constructor
  · have := Real.le_sqrt_of_sq_le h1R; linarith
  · have := Real.sqrt_le_left (x := (n : ℝ)) (y := (isqrt n : ℝ) + 1) |>.mt
    have h3 : √(n : ℝ) ≤ (isqrt n : ℝ) + 1 := by
      rw [Real.sqrt_le_left (by positivity)]; exact h2R
    linarith

/-! ## pi -/

/-- The real counterpart of arctanTail at scale 1. -/
noncomputable def arctanSum (k : ℕ) : ℕ → ℕ → ℝ
  | 0, _ => 0
  | s + 1, m => 1 / (2 * m + 1) - arctanSum k s (m + 1) / (k * k)

theorem arctanSum_eq (k s m : ℕ) :
    arctanSum k s m = ∑ j ∈ Finset.range s, (-1) ^ j * (1 / (k : ℝ)) ^ (2 * j) / (2 * (m + j : ℕ) + 1) := by
  induction s generalizing m with
  | zero => simp [arctanSum]
  | succ s ih =>
    rw [arctanSum, ih, Finset.sum_range_succ', sub_eq_add_neg, add_comm, Finset.sum_div, ← Finset.sum_neg_distrib]
    congr 1
    · refine Finset.sum_congr rfl fun j _ => ?_
      push_cast
      have h1 : (1 / (k : ℝ)) ^ (2 * (j + 1)) = (1 / (k : ℝ)) ^ (2 * j) / (k * k) := by
        rw [mul_add, pow_add, mul_one, one_div_pow (k : ℝ) 2, sq, mul_one_div]
      rw [h1, pow_succ, show (2 * ((m : ℝ) + (j + 1)) + 1) = 2 * ((m : ℝ) + 1 + j) + 1 by ring]
      ring
    · simp

theorem arctanTail_near (k p s m : ℕ) (hk : 2 ≤ k) : |(arctanTail k p s m : ℝ) - 2 ^ p * arctanSum k s m| ≤ 3 := by
  induction s generalizing m with
  | zero => simp [arctanTail, arctanSum]
  | succ s ih =>
    have h1 := ediv_near (scale p) ((2 * m + 1 : ℕ) : ℤ) (by positivity)
    have h2 := ediv_near (arctanTail k p s (m + 1)) ((k * k : ℕ) : ℤ) (by positivity)
    have h3 := ih (m + 1)
    have hk2 : (4 : ℝ) ≤ (k : ℝ) * k := by
      have : (2 : ℝ) ≤ k := by exact_mod_cast hk
      nlinarith
    have h4 : |(arctanTail k p s (m + 1) : ℝ) / (k * k) - 2 ^ p * arctanSum k s (m + 1) / (k * k)| ≤ 3 / 4 := by
      rw [← sub_div, abs_div, abs_of_pos (by linarith : (0 : ℝ) < (k : ℝ) * k), div_le_div_iff₀ (by linarith) (by norm_num)]
      nlinarith [abs_nonneg ((arctanTail k p s (m + 1) : ℝ) - 2 ^ p * arctanSum k s (m + 1))]
    rw [arctanTail, arctanSum]
    rw [scale_cast] at h1
    push_cast at h1 h2 ⊢
    rw [abs_le] at *
    have e : (2 : ℝ) ^ p * (1 / (2 * (m : ℝ) + 1) - arctanSum k s (m + 1) / (k * k)) =
      2 ^ p / (2 * (m : ℝ) + 1) - 2 ^ p * arctanSum k s (m + 1) / (k * k) := by ring
    rw [e]
    constructor <;> linarith [h1.1, h1.2, h2.1, h2.2, h4.1, h4.2]

theorem arctanSum_near (k s : ℕ) (hk : 2 ≤ k) : |arctanSum k s 0 / k - Real.arctan ((k : ℝ)⁻¹)| ≤ 2 * (1 / 2) ^ s := by
  have hkR : (2 : ℝ) ≤ k := by exact_mod_cast hk
  have hx0 : (0 : ℝ) ≤ (k : ℝ)⁻¹ := by positivity
  have hx : (k : ℝ)⁻¹ ≤ 1 / 2 := by rw [inv_le_comm₀ (by linarith) (by norm_num)]; simpa using hkR
  have hsum := Real.hasSum_arctan (x := (k : ℝ)⁻¹) (by rw [Real.norm_eq_abs, abs_of_nonneg hx0]; linarith)
  have hb : ∀ n : ℕ, ‖(-1 : ℝ) ^ n * ((k : ℝ)⁻¹) ^ (2 * n + 1) / ((2 * n + 1 : ℕ) : ℝ)‖ ≤ 1 * (1 / 2) ^ n := by
    intro n
    rw [norm_div, norm_mul, norm_pow, norm_neg, norm_one, one_pow, one_mul, one_mul, norm_pow, Real.norm_eq_abs, abs_of_nonneg hx0,
      Real.norm_eq_abs, abs_of_nonneg (by positivity)]
    have h1 : ((k : ℝ)⁻¹) ^ (2 * n + 1) ≤ (1 / 2) ^ n := by
      calc ((k : ℝ)⁻¹) ^ (2 * n + 1) ≤ (1 / 2) ^ (2 * n + 1) := pow_le_pow_left₀ hx0 hx _
        _ ≤ (1 / 2) ^ n := pow_le_pow_of_le_one (by norm_num) (by norm_num) (by omega)
    refine (div_le_self (by positivity) ?_).trans h1
    exact_mod_cast Nat.succ_le_succ (Nat.zero_le _)
  have h := norm_sub_le_of_geometric_bound_of_hasSum (by norm_num : (1 / 2 : ℝ) < 1) hb hsum s
  have e : arctanSum k s 0 / k = ∑ x ∈ Finset.range s, (-1 : ℝ) ^ x * ((k : ℝ)⁻¹) ^ (2 * x + 1) / ((2 * x + 1 : ℕ) : ℝ) := by
    rw [arctanSum_eq, Finset.sum_div]
    refine Finset.sum_congr rfl fun j _ => ?_
    rw [pow_succ, one_div]; push_cast; rw [zero_add]; field_simp
  rw [e, ← Real.norm_eq_abs]
  refine h.trans (le_of_eq ?_)
  ring

theorem two_pow_mul_half_pow (w : ℕ) : (2 : ℝ) ^ w * (1 / 2) ^ w = 1 := by rw [← mul_pow]; norm_num

theorem piScaled_near (p : ℕ) : Near Real.pi p (piScaled p) := by
  have key : ∀ k : ℕ, 2 ≤ k →
      |((arctanTail k (p + 10) (p + 10) 0 / (k : ℤ) : ℤ) : ℝ) - 2 ^ (p + 10) * Real.arctan ((k : ℝ)⁻¹)| ≤ 5 := by
    intro k hk
    have hkR : (2 : ℝ) ≤ k := by exact_mod_cast hk
    have h1 := ediv_near (arctanTail k (p + 10) (p + 10) 0) (k : ℤ) (by positivity)
    have h2 := arctanTail_near k (p + 10) (p + 10) 0 hk
    have h3 := arctanSum_near k (p + 10) hk
    have h4 : |(arctanTail k (p + 10) (p + 10) 0 : ℝ) / k - 2 ^ (p + 10) * arctanSum k (p + 10) 0 / k| ≤ 2 := by
      rw [← sub_div, abs_div, abs_of_pos (by linarith : (0 : ℝ) < k), div_le_iff₀ (by linarith)]
      linarith
    have h5 : |2 ^ (p + 10) * arctanSum k (p + 10) 0 / k - 2 ^ (p + 10) * Real.arctan ((k : ℝ)⁻¹)| ≤ 2 := by
      rw [mul_div_assoc, ← mul_sub, abs_mul, abs_of_pos (by positivity : (0 : ℝ) < 2 ^ (p + 10))]
      calc _ ≤ 2 ^ (p + 10) * (2 * (1 / 2 : ℝ) ^ (p + 10)) := mul_le_mul_of_nonneg_left h3 (by positivity)
        _ = 2 * (2 ^ (p + 10) * (1 / 2 : ℝ) ^ (p + 10)) := by ring
        _ = 2 := by rw [two_pow_mul_half_pow]; norm_num
    push_cast at h1
    rw [abs_le] at *
    constructor <;> linarith [h1.1, h1.2, h4.1, h4.2, h5.1, h5.2]
  have h5 := key 5 (by norm_num)
  have h239 := key 239 (by norm_num)
  have hm := Real.four_mul_arctan_inv_5_sub_arctan_inv_239
  refine near_of_rshift (by norm_num) ?_
  push_cast at h5 h239 ⊢
  have e : Real.pi * 2 ^ (p + 10) = 16 * (2 ^ (p + 10) * Real.arctan 5⁻¹) - 4 * (2 ^ (p + 10) * Real.arctan 239⁻¹) := by
    have : Real.pi = 16 * Real.arctan 5⁻¹ - 4 * Real.arctan 239⁻¹ := by linarith
    rw [this]; ring
  rw [e]
  rw [abs_le] at *
  constructor <;> linarith [h5.1, h5.2, h239.1, h239.2]

/-! ## cosine -/

/-- The real counterpart of cosTail at scale 1. -/
noncomputable def cosSum (y : ℝ) : ℕ → ℕ → ℝ
  | 0, _ => 0
  | s + 1, m => 1 - y * cosSum y s (m + 1) / ((2 * m + 1) * (2 * m + 2))

theorem cosSum_eq (y : ℝ) (s m : ℕ) :
    cosSum y s m = ∑ j ∈ Finset.range s, (-1) ^ j * y ^ j * ((2 * m).factorial : ℝ) / ((2 * m + 2 * j).factorial : ℝ) := by
  induction s generalizing m with
  | zero => simp [cosSum]
  | succ s ih =>
    rw [cosSum, ih, Finset.sum_range_succ', sub_eq_add_neg, add_comm, Finset.mul_sum, Finset.sum_div, ← Finset.sum_neg_distrib]
    congr 1
    · refine Finset.sum_congr rfl fun j _ => ?_
      have h1 : ((2 * (m + 1)).factorial : ℝ) = (2 * m + 2) * (2 * m + 1) * ((2 * m).factorial : ℝ) := by
        rw [show 2 * (m + 1) = 2 * m + 1 + 1 by ring, Nat.factorial_succ, Nat.factorial_succ]; push_cast; ring
      rw [h1, show 2 * (m + 1) + 2 * j = 2 * m + 2 * (j + 1) by ring]
      have h2 : ((2 * m + 2 * (j + 1)).factorial : ℝ) ≠ 0 := by positivity
      field_simp
      ring
    · have h3 : ((2 * m).factorial : ℝ) ≠ 0 := by positivity
      simp [h3]

theorem cosSum_abs_le {y : ℝ} (h0 : 0 ≤ y) (h1 : y ≤ 1) (s m : ℕ) : |cosSum y s m| ≤ 2 := by
  induction s generalizing m with
  | zero => simp [cosSum]
  | succ s ih =>
    have h := ih (m + 1)
    have hD : (2 : ℝ) ≤ (2 * m + 1) * (2 * m + 2) := by nlinarith [(Nat.cast_nonneg m : (0 : ℝ) ≤ m)]
    have h2 : |y * cosSum y s (m + 1) / ((2 * m + 1) * (2 * m + 2))| ≤ 1 := by
      rw [abs_div, abs_mul, abs_of_nonneg h0, abs_of_pos (by linarith : (0 : ℝ) < (2 * m + 1) * (2 * m + 2)),
        div_le_one (by linarith)]
      nlinarith [abs_nonneg (cosSum y s (m + 1))]
    rw [cosSum]
    rw [abs_le] at *
    constructor <;> linarith [h2.1, h2.2]

theorem cosTail_near {y : ℝ} (h0 : 0 ≤ y) (h1 : y ≤ 1) {p : ℕ} (hp : 8 ≤ p) {Y : ℤ} (hY : |(Y : ℝ) - 2 ^ p * y| ≤ 6) (s m : ℕ) :
    |(cosTail p Y s m : ℝ) - 2 ^ p * cosSum y s m| ≤ 16 := by
  induction s generalizing m with
  | zero => simp [cosTail, cosSum]
  | succ s ih =>
    have hE := ih (m + 1)
    have hC := cosSum_abs_le h0 h1 s (m + 1)
    have hp256 : (256 : ℝ) ≤ 2 ^ p := by
      calc (256 : ℝ) = 2 ^ 8 := by norm_num
        _ ≤ 2 ^ p := pow_le_pow_right₀ (by norm_num) hp
    have hpp : (0 : ℝ) < 2 ^ p := by positivity
    set c : ℤ := cosTail p Y s (m + 1)
    set C : ℝ := cosSum y s (m + 1)
    set D : ℕ := (2 * m + 1) * (2 * m + 2) with hDdef
    have hD2 : 2 ≤ D := by nlinarith
    have hDR : (2 : ℝ) ≤ D := by exact_mod_cast hD2
    have hf1 := ediv_near (Y * c) (scale p) (scale_pos p).ne'
    have hf2 := ediv_near (Y * c / scale p) (D : ℤ) (by positivity)
    rw [scale_cast] at hf1
    have hmain : |((Y * c : ℤ) : ℝ) / 2 ^ p - 2 ^ p * (y * C)| ≤ 29 := by
      have e : ((Y * c : ℤ) : ℝ) / 2 ^ p - 2 ^ p * (y * C) =
          ((Y : ℝ) / 2 ^ p) * (c - 2 ^ p * C) + ((Y : ℝ) - 2 ^ p * y) * C := by
        push_cast; field_simp; ring
      have hYp : |(Y : ℝ) / 2 ^ p| ≤ 1 + 6 / 256 := by
        rw [abs_div, abs_of_pos hpp, div_le_iff₀ hpp]
        have : |(Y : ℝ)| ≤ 6 + 2 ^ p := by
          have hy : |2 ^ p * y| ≤ 2 ^ p := by rw [abs_mul, abs_of_pos hpp, abs_of_nonneg h0]; nlinarith
          calc |(Y : ℝ)| = |((Y : ℝ) - 2 ^ p * y) + 2 ^ p * y| := by ring_nf
            _ ≤ _ := abs_add_le _ _
            _ ≤ _ := add_le_add hY hy
        nlinarith
      rw [e]
      refine (abs_add_le _ _).trans ?_
      rw [abs_mul, abs_mul]
      have t1 : |(Y : ℝ) / 2 ^ p| * |(c : ℝ) - 2 ^ p * C| ≤ (1 + 6 / 256) * 16 := mul_le_mul hYp hE (abs_nonneg _) (by norm_num)
      have t2 : |(Y : ℝ) - 2 ^ p * y| * |C| ≤ 6 * 2 := mul_le_mul hY hC (abs_nonneg _) (by norm_num)
      linarith
    have hq : |((Y * c / scale p : ℤ) : ℝ) - 2 ^ p * (y * C)| ≤ 30 := by
      rw [abs_le] at *; constructor <;> linarith [hf1.1, hf1.2, hmain.1, hmain.2]
    have hq2 : |((Y * c / scale p : ℤ) : ℝ) / D - 2 ^ p * (y * C) / D| ≤ 15 := by
      rw [← sub_div, abs_div, abs_of_pos (by linarith : (0 : ℝ) < D), div_le_iff₀ (by linarith)]
      linarith
    have e1 : cosTail p Y (s + 1) m = scale p - Y * c / scale p / (D : ℤ) := rfl
    have e2 : cosSum y (s + 1) m = 1 - y * C / D := by rw [cosSum, hDdef]; push_cast; rfl
    rw [e1, e2, Int.cast_sub, scale_cast]
    rw [show (2 : ℝ) ^ p * (1 - y * C / D) = 2 ^ p - 2 ^ p * (y * C) / D by ring]
    push_cast at hf2
    rw [abs_le] at *
    constructor <;> linarith [hf2.1, hf2.2, hq2.1, hq2.2]

theorem two_pow_le_factorial_two_mul (n : ℕ) : (2 : ℕ) ^ n ≤ (2 * n).factorial := by
  induction n with
  | zero => simp
  | succ n ih =>
    rw [show 2 * (n + 1) = 2 * n + 1 + 1 by ring, Nat.factorial_succ, Nat.factorial_succ, pow_succ]
    have h := Nat.factorial_pos (2 * n)
    have h1 : (2 * n).factorial * 2 ≤ (2 * n + 1 + 1) * ((2 * n + 1) * (2 * n).factorial) := by
      nlinarith [Nat.zero_le (n * (2 * n).factorial), Nat.zero_le (n * n * (2 * n).factorial)]
    omega

theorem cosSum_near {x : ℝ} (hx : x * x ≤ 1) (s : ℕ) : |cosSum (x * x) s 0 - Real.cos x| ≤ 2 * (1 / 2) ^ s := by
  have hsum := Real.hasSum_cos x
  have hb : ∀ n : ℕ, ‖(-1 : ℝ) ^ n * x ^ (2 * n) / ((2 * n).factorial : ℝ)‖ ≤ 1 * (1 / 2) ^ n := by
    intro n
    rw [norm_div, norm_mul, norm_pow, norm_neg, norm_one, one_pow, one_mul, one_mul, pow_mul, norm_pow, Real.norm_eq_abs, Real.norm_eq_abs,
      abs_of_pos (by positivity : (0 : ℝ) < ((2 * n).factorial : ℝ)), div_le_iff₀ (by positivity)]
    have h1 : |x ^ 2| ^ n ≤ 1 := pow_le_one₀ (abs_nonneg _) (by rw [abs_of_nonneg (sq_nonneg x), sq]; exact hx)
    have h2 : (2 : ℝ) ^ n ≤ ((2 * n).factorial : ℝ) := by exact_mod_cast two_pow_le_factorial_two_mul n
    have h3 : (1 : ℝ) = (1 / 2) ^ n * 2 ^ n := by rw [← mul_pow]; norm_num
    calc |x ^ 2| ^ n ≤ 1 := h1
      _ = (1 / 2) ^ n * 2 ^ n := h3
      _ ≤ _ := mul_le_mul_of_nonneg_left h2 (by positivity)
  have h := norm_sub_le_of_geometric_bound_of_hasSum (by norm_num : (1 / 2 : ℝ) < 1) hb hsum s
  have e : cosSum (x * x) s 0 = ∑ j ∈ Finset.range s, (-1 : ℝ) ^ j * x ^ (2 * j) / ((2 * j).factorial : ℝ) := by
    rw [cosSum_eq]
    refine Finset.sum_congr rfl fun j _ => ?_
    rw [pow_mul, sq]; simp
  rw [e, ← Real.norm_eq_abs]
  refine h.trans (le_of_eq ?_)
  ring

theorem cosScaled_near {q : ℚ} (h0 : 0 ≤ q) (h1 : q ≤ 1 / 2) (p : ℕ) : Near (Real.cos (q * Real.pi)) p (cosScaled q p) := by
  have h0R : (0 : ℝ) ≤ q := by exact_mod_cast h0
  have h1R : (q : ℝ) ≤ 1 / 2 := by
    have : ((q : ℚ) : ℝ) ≤ ((1 / 2 : ℚ) : ℝ) := Rat.cast_le.2 h1
    simpa using this
  set w := p + 8 with hw
  set x : ℝ := q / 2 * Real.pi with hx
  have hx0 : 0 ≤ x := by positivity
  have hpi4 := Real.pi_lt_d2
  have hx1 : x ≤ 1 := by rw [hx]; nlinarith [Real.pi_pos]
  have hww : (256 : ℝ) ≤ 2 ^ w := by
    calc (256 : ℝ) = 2 ^ 8 := by norm_num
      _ ≤ 2 ^ w := pow_le_pow_right₀ (by norm_num) (by omega)
  have hpp : (0 : ℝ) < 2 ^ w := by positivity
  set X : ℤ := piScaled w * q.num / ((2 * q.den : ℕ) : ℤ) with hX
  have hqd : (q : ℝ) = q.num / q.den := by exact_mod_cast (Rat.num_div_den q).symm
  have hXn : |(X : ℝ) - 2 ^ w * x| ≤ 2 := by
    have hf := ediv_near (piScaled w * q.num) ((2 * q.den : ℕ) : ℤ) (by have := q.den_pos; positivity)
    have hpi := piScaled_near w
    unfold Near at hpi
    have e : ((piScaled w * q.num : ℤ) : ℝ) / (((2 * q.den : ℕ) : ℤ) : ℝ) = piScaled w * (q / 2) := by
      rw [hqd]; push_cast; ring
    rw [e] at hf
    have h3 : |(piScaled w : ℝ) * (q / 2) - 2 ^ w * x| ≤ 1 := by
      rw [hx, show (piScaled w : ℝ) * (q / 2) - 2 ^ w * (q / 2 * Real.pi) = -(q / 2) * (Real.pi * 2 ^ w - piScaled w) by ring,
        abs_mul, abs_neg, abs_of_nonneg (by positivity : (0 : ℝ) ≤ (q : ℝ) / 2)]
      nlinarith [abs_nonneg (Real.pi * 2 ^ w - (piScaled w : ℝ))]
    rw [abs_le] at *
    constructor <;> linarith [hf.1, hf.2, h3.1, h3.2]
  have hYn : |((X * X / scale w : ℤ) : ℝ) - 2 ^ w * (x * x)| ≤ 6 := by
    have hf := ediv_near (X * X) (scale w) (scale_pos w).ne'
    rw [scale_cast] at hf
    have e : ((X * X : ℤ) : ℝ) / 2 ^ w - 2 ^ w * (x * x) = ((X : ℝ) - 2 ^ w * x) * (((X : ℝ) - 2 ^ w * x) / 2 ^ w + 2 * x) := by
      push_cast; field_simp; ring
    have h4 : |((X * X : ℤ) : ℝ) / 2 ^ w - 2 ^ w * (x * x)| ≤ 2 * (2 / 256 + 2) := by
      rw [e, abs_mul]
      refine mul_le_mul hXn ?_ (abs_nonneg _) (by norm_num)
      refine (abs_add_le _ _).trans (add_le_add ?_ ?_)
      · rw [abs_div, abs_of_pos hpp]; exact div_le_div₀ (by norm_num) hXn (by norm_num) hww
      · rw [abs_of_nonneg (by linarith)]; linarith
    rw [abs_le] at *
    constructor <;> linarith [hf.1, hf.2, h4.1, h4.2]
  have hxx1 : x * x ≤ 1 := by nlinarith
  have hc1 := cosTail_near (mul_nonneg hx0 hx0) hxx1 (by omega : 8 ≤ w) hYn (w + 2) 0
  have hc2 := cosSum_near hxx1 (w + 2)
  set c : ℤ := cosTail w (X * X / scale w) (w + 2) 0 with hc
  have hcn : |(c : ℝ) - 2 ^ w * Real.cos x| ≤ 17 := by
    have h5 : |2 ^ w * cosSum (x * x) (w + 2) 0 - 2 ^ w * Real.cos x| ≤ 1 := by
      rw [← mul_sub, abs_mul, abs_of_pos hpp]
      calc _ ≤ 2 ^ w * (2 * (1 / 2 : ℝ) ^ (w + 2)) := mul_le_mul_of_nonneg_left hc2 hpp.le
        _ = (2 ^ w * (1 / 2 : ℝ) ^ w) * (1 / 2) := by ring
        _ ≤ 1 := by rw [two_pow_mul_half_pow]; norm_num
    rw [abs_le] at *
    constructor <;> linarith [hc1.1, hc1.2, h5.1, h5.2]
  have hcos := Real.abs_cos_le_one x
  have hsq : |((c * c / scale w : ℤ) : ℝ) - 2 ^ w * (Real.cos x * Real.cos x)| ≤ 37 := by
    have hf := ediv_near (c * c) (scale w) (scale_pos w).ne'
    rw [scale_cast] at hf
    have e : ((c * c : ℤ) : ℝ) / 2 ^ w - 2 ^ w * (Real.cos x * Real.cos x) =
        ((c : ℝ) - 2 ^ w * Real.cos x) * (((c : ℝ) - 2 ^ w * Real.cos x) / 2 ^ w + 2 * Real.cos x) := by
      push_cast; field_simp; ring
    have h4 : |((c * c : ℤ) : ℝ) / 2 ^ w - 2 ^ w * (Real.cos x * Real.cos x)| ≤ 17 * (17 / 256 + 2) := by
      rw [e, abs_mul]
      refine mul_le_mul hcn ?_ (abs_nonneg _) (by norm_num)
      refine (abs_add_le _ _).trans (add_le_add ?_ ?_)
      · rw [abs_div, abs_of_pos hpp]; exact div_le_div₀ (by norm_num) hcn (by norm_num) hww
      · rw [abs_mul, abs_two]; linarith
    rw [abs_le] at *
    constructor <;> linarith [hf.1, hf.2, h4.1, h4.2]
  have hcos2 : Real.cos (q * Real.pi) = 2 * (Real.cos x * Real.cos x) - 1 := by
    rw [show (q : ℝ) * Real.pi = 2 * x by rw [hx]; ring, Real.cos_two_mul]; ring
  have hdef : cosScaled q p = rshift (2 * (c * c / scale w) - scale w) 8 := rfl
  rw [hdef]
  refine near_of_rshift (by norm_num) ?_
  rw [hcos2, ← hw]
  push_cast
  rw [scale_cast]
  rw [abs_le] at *
  constructor <;> linarith [hsq.1, hsq.2]

/-! ## The angle brought into the first quarter turn -/

theorem foldAngle_spec (q : ℚ) : 0 ≤ (foldAngle q).2 ∧ (foldAngle q).2 ≤ 1 / 2 ∧
    Real.cos (q * Real.pi) =
      (if (foldAngle q).1 = true then -Real.cos ((foldAngle q).2 * Real.pi) else Real.cos ((foldAngle q).2 * Real.pi)) := by
  set k : ℤ := (q / 2).floor with hk
  have hle : (k : ℚ) ≤ q / 2 := Rat.floor_le (q / 2)
  have hlt : q / 2 < (k : ℚ) + 1 := by
    have := Rat.lt_floor_add_one (q / 2)
    push_cast at this; exact this
  set t : ℚ := q - 2 * (k : ℚ) with ht
  have ht0 : 0 ≤ t := by rw [ht]; linarith
  have ht2 : t < 2 := by rw [ht]; linarith
  have hcos1 : Real.cos (q * Real.pi) = Real.cos (t * Real.pi) := by
    rw [ht]; push_cast
    rw [show ((q : ℝ) - 2 * k) * Real.pi = q * Real.pi - k * (2 * Real.pi) by ring, Real.cos_sub_int_mul_two_pi]
  set u : ℚ := if 1 < t then 2 - t else t with hu
  have hu01 : 0 ≤ u ∧ u ≤ 1 := by rw [hu]; split <;> constructor <;> linarith
  have hcos2 : Real.cos (t * Real.pi) = Real.cos (u * Real.pi) := by
    rw [hu]; split
    · push_cast
      rw [show (2 - (t : ℝ)) * Real.pi = 2 * Real.pi - t * Real.pi by ring, Real.cos_two_pi_sub]
    · rfl
  have hdef : foldAngle q = if 1 / 2 < u then (true, 1 - u) else (false, u) := rfl
  rw [hdef, hcos1, hcos2]
  split
  · refine ⟨by simp only; linarith, by simp only; linarith, ?_⟩
    simp only [if_true]
    push_cast
    rw [show (1 - (u : ℝ)) * Real.pi = Real.pi - u * Real.pi by ring, Real.cos_pi_sub, neg_neg]
  · exact ⟨hu01.1, by simp only; linarith, by simp⟩

/-! ## Magnitudes and the main lemma -/

theorem abs_toReal_le (a : Exact) : |a.toReal| ≤ 2 ^ a.magBits := by
  induction a with
  | rat q =>
    have h1 : |(q : ℝ)| ≤ (q.num.natAbs : ℝ) := by
      have hd : (1 : ℝ) ≤ q.den := by exact_mod_cast q.den_pos
      have e : (q : ℝ) = q.num / q.den := by exact_mod_cast (Rat.num_div_den q).symm
      rw [e, abs_div, abs_of_nonneg (by linarith : (0 : ℝ) ≤ (q.den : ℝ)), Nat.cast_natAbs, Int.cast_abs]
      exact div_le_self (abs_nonneg _) hd
    have h2 : (q.num.natAbs : ℝ) ≤ 2 ^ bits q.num.natAbs := by exact_mod_cast (Nat.lt_log2_self (n := q.num.natAbs)).le
    exact h1.trans h2
  | cosPi q => simpa [Exact.toReal, Exact.magBits] using Real.abs_cos_le_one _
  | plus a b iha ihb =>
    rw [Exact.toReal, Exact.magBits, pow_succ]
    have h1 : (2 : ℝ) ^ a.magBits ≤ 2 ^ max a.magBits b.magBits := pow_le_pow_right₀ (by norm_num) (le_max_left _ _)
    have h2 : (2 : ℝ) ^ b.magBits ≤ 2 ^ max a.magBits b.magBits := pow_le_pow_right₀ (by norm_num) (le_max_right _ _)
    linarith [abs_add_le a.toReal b.toReal]
  | times a b iha ihb =>
    rw [Exact.toReal, Exact.magBits, abs_mul, pow_add]
    exact mul_le_mul iha ihb (abs_nonneg _) (by positivity)
  | recip a _ =>
    rw [Exact.toReal, Exact.magBits]
    by_cases h : a.toReal = 0
    · simp [h]
    · have h1 := Separation.one_le_abs_mul_sepBits a h
      rw [abs_inv, inv_le_iff_one_le_mul₀ (abs_pos.2 h), mul_comm]; exact h1
  | root a iha =>
    rw [Exact.toReal, Exact.magBits, abs_of_nonneg (Real.sqrt_nonneg _)]
    have h1 : (1 : ℝ) ≤ 2 ^ a.magBits := one_le_pow₀ (by norm_num)
    rw [Real.sqrt_le_left (by positivity)]
    calc a.toReal ≤ |a.toReal| := le_abs_self _
      _ ≤ 2 ^ a.magBits := iha
      _ ≤ (2 ^ a.magBits) ^ 2 := by nlinarith

/-- Every approximation is within one unit of its scale. -/
theorem approx_near (a : Exact) : ∀ p, Near a.toReal p (a.approx p) := by
  induction a with
  | rat q =>
    intro p
    have h := ediv_near (scale p * q.num) (q.den : ℤ) (by exact_mod_cast q.den_ne_zero)
    have e : (q : ℝ) = q.num / q.den := by exact_mod_cast (Rat.num_div_den q).symm
    have e2 : ((scale p * q.num : ℤ) : ℝ) / ((q.den : ℤ) : ℝ) = (q : ℝ) * 2 ^ p := by
      rw [e, Int.cast_mul, scale_cast, Int.cast_natCast]; ring
    rw [e2] at h
    exact h
  | cosPi q =>
    intro p
    obtain ⟨h0, h1, h2⟩ := foldAngle_spec q
    have h := cosScaled_near h0 h1 p
    have e : (Exact.cosPi q).approx p = if (foldAngle q).1 = true then - cosScaled (foldAngle q).2 p else cosScaled (foldAngle q).2 p := rfl
    rw [e, Exact.toReal, h2]
    unfold Near at *
    split
    · rw [Int.cast_neg, neg_mul, sub_neg_eq_add, neg_add_eq_sub, abs_sub_comm]; exact h
    · exact h
  | plus a b iha ihb =>
    intro p
    refine near_of_rshift (by norm_num) ?_
    have h1 := iha (p + 2)
    have h2 := ihb (p + 2)
    unfold Near at h1 h2
    rw [Exact.toReal, add_mul, Int.cast_add]
    rw [abs_le] at *
    constructor <;> linarith [h1.1, h1.2, h2.1, h2.2]
  | times a b iha ihb =>
    intro p
    set ka := a.magBits with hka
    set kb := b.magBits with hkb
    have h1 := iha (p + kb + 3)
    have h2 := ihb (p + ka + 3)
    have ma := abs_toReal_le a
    have mb := abs_toReal_le b
    unfold Near at h1 h2
    set za := a.approx (p + kb + 3) with hza
    set zb := b.approx (p + ka + 3) with hzb
    have hdef : (Exact.times a b).approx p = rshift (za * zb) (p + ka + kb + 6) := rfl
    rw [hdef, show p + ka + kb + 6 = (p + ka + kb + 6) from rfl]
    refine near_of_rshift (by omega) ?_
    have P : (0 : ℝ) < 2 ^ p := by positivity
    have A : (1 : ℝ) ≤ 2 ^ ka := one_le_pow₀ (by norm_num)
    have B : (1 : ℝ) ≤ 2 ^ kb := one_le_pow₀ (by norm_num)
    have P1 : (1 : ℝ) ≤ 2 ^ p := one_le_pow₀ (by norm_num)
    set x := a.toReal
    set y := b.toReal
    have e : x * y * 2 ^ (p + (p + ka + kb + 6)) - ((za * zb : ℤ) : ℝ) =
        (x * 2 ^ (p + kb + 3) - za) * (y * 2 ^ (p + ka + 3)) + za * (y * 2 ^ (p + ka + 3) - zb) := by
      push_cast; ring
    have hy : |y * 2 ^ (p + ka + 3)| ≤ 2 ^ kb * 2 ^ (p + ka + 3) := by
      rw [abs_mul, abs_of_pos (by positivity : (0 : ℝ) < 2 ^ (p + ka + 3))]; exact mul_le_mul_of_nonneg_right mb (by positivity)
    have hz : |(za : ℝ)| ≤ 2 ^ ka * 2 ^ (p + kb + 3) + 1 := by
      have hx : |x * 2 ^ (p + kb + 3)| ≤ 2 ^ ka * 2 ^ (p + kb + 3) := by
        rw [abs_mul, abs_of_pos (by positivity : (0 : ℝ) < 2 ^ (p + kb + 3))]; exact mul_le_mul_of_nonneg_right ma (by positivity)
      calc |(za : ℝ)| = |x * 2 ^ (p + kb + 3) - (x * 2 ^ (p + kb + 3) - za)| := by ring_nf
        _ ≤ _ := abs_sub _ _
        _ ≤ _ := add_le_add hx h1
    have key : |x * y * 2 ^ (p + (p + ka + kb + 6)) - ((za * zb : ℤ) : ℝ)| ≤
        1 * (2 ^ kb * 2 ^ (p + ka + 3)) + (2 ^ ka * 2 ^ (p + kb + 3) + 1) * 1 := by
      rw [e]
      refine (abs_add_le _ _).trans (add_le_add ?_ ?_)
      · rw [abs_mul]; exact mul_le_mul h1 hy (abs_nonneg _) (by norm_num)
      · rw [abs_mul]; exact mul_le_mul hz h2 (abs_nonneg _) (by positivity)
    refine key.trans ?_
    have e3 : (2 : ℝ) ^ kb * 2 ^ (p + ka + 3) = 8 * (2 ^ p * 2 ^ ka * 2 ^ kb) := by ring
    have e4 : (2 : ℝ) ^ ka * 2 ^ (p + kb + 3) = 8 * (2 ^ p * 2 ^ ka * 2 ^ kb) := by ring
    have e5 : (2 : ℝ) ^ (p + ka + kb + 6) = 64 * (2 ^ p * 2 ^ ka * 2 ^ kb) := by ring
    have hone : (1 : ℝ) ≤ 2 ^ p * 2 ^ ka * 2 ^ kb := one_le_mul_of_one_le_of_one_le (one_le_mul_of_one_le_of_one_le P1 A) B
    rw [e3, e4, e5]; linarith
  | recip a iha =>
    intro p
    set s := a.sepBits with hs
    have hsmall := iha (s + 2)
    have hdef : (Exact.recip a).approx p = if (a.approx (s + 2)).natAbs ≤ 1 then 0
      else rshift (scale (p + 2 + (p + 2 * s + 4)) / a.approx (p + 2 * s + 4)) 2 := rfl
    have hS : (0 : ℝ) < 2 ^ s := by positivity
    rw [hdef]
    by_cases hx : a.toReal = 0
    · have hz : (a.approx (s + 2)).natAbs ≤ 1 := by
        unfold Near at hsmall
        rw [hx, zero_mul, zero_sub, abs_neg, ← Int.cast_abs] at hsmall
        have : |a.approx (s + 2)| ≤ 1 := by exact_mod_cast hsmall
        rw [Int.abs_eq_natAbs] at this
        exact_mod_cast this
      rw [if_pos hz]; simp [Near, Exact.toReal, hx]
    · have hsep := Separation.one_le_abs_mul_sepBits a hx
      rw [← hs] at hsep
      have hz : ¬ (a.approx (s + 2)).natAbs ≤ 1 := by
        intro h
        have h' : |(a.approx (s + 2) : ℝ)| ≤ 1 := by
          rw [← Int.cast_abs, Int.abs_eq_natAbs]; exact_mod_cast h
        unfold Near at hsmall
        have h3 : |a.toReal| * 2 ^ (s + 2) ≤ 2 := by
          rw [← abs_of_pos (by positivity : (0 : ℝ) < 2 ^ (s + 2)), ← abs_mul]
          calc _ = |(a.toReal * 2 ^ (s + 2) - a.approx (s + 2)) + a.approx (s + 2)| := by ring_nf
            _ ≤ _ := abs_add_le _ _
            _ ≤ 2 := by linarith
        have h4 : |a.toReal| * 2 ^ (s + 2) = 4 * (|a.toReal| * 2 ^ s) := by ring
        linarith
      rw [if_neg hz]
      have hfine := iha (p + 2 * s + 4)
      unfold Near at hfine
      set q := p + 2 * s + 4 with hq
      set z := a.approx q with hzd
      set x := a.toReal with hxd
      have hqs : (2 : ℝ) ^ q = 16 * 2 ^ p * (2 ^ s * 2 ^ s) := by rw [hq]; ring
      have hP1 : (1 : ℝ) ≤ 2 ^ p := one_le_pow₀ (by norm_num)
      have hS1 : (1 : ℝ) ≤ 2 ^ s := one_le_pow₀ (by norm_num)
      have hxq : 16 * 2 ^ p * 2 ^ s ≤ |x * 2 ^ q| := by
        rw [abs_mul, abs_of_pos (by positivity : (0 : ℝ) < 2 ^ q), hqs]
        have : 16 * 2 ^ p * 2 ^ s * 1 ≤ 16 * 2 ^ p * 2 ^ s * (|x| * 2 ^ s) := mul_le_mul_of_nonneg_left hsep (by positivity)
        linarith
      have hzabs : 8 * 2 ^ p * 2 ^ s ≤ |(z : ℝ)| := by
        have h5 : |x * 2 ^ q| ≤ 1 + |(z : ℝ)| := by
          calc _ = |(x * 2 ^ q - z) + z| := by ring_nf
            _ ≤ _ := abs_add_le _ _
            _ ≤ _ := by linarith
        have h6 : (1 : ℝ) ≤ 2 ^ p * 2 ^ s := one_le_mul_of_one_le_of_one_le hP1 hS1
        linarith
      have hz0R : (z : ℝ) ≠ 0 := by
        intro h; rw [h, abs_zero] at hzabs
        have : (0 : ℝ) < 8 * 2 ^ p * 2 ^ s := by positivity
        linarith
      have hz0 : z ≠ 0 := by exact_mod_cast hz0R
      have hf := ediv_near (scale (p + 2 + q)) z hz0
      rw [scale_cast] at hf
      refine near_of_rshift (by norm_num) ?_
      rw [Exact.toReal, ← hxd]
      have hdiff : |x⁻¹ * 2 ^ (p + 2) - 2 ^ (p + 2 + q) / (z : ℝ)| ≤ 1 / 2 := by
        have e : x⁻¹ * 2 ^ (p + 2) - 2 ^ (p + 2 + q) / (z : ℝ) = 2 ^ (p + 2) * (z - x * 2 ^ q) / (x * z) := by
          rw [pow_add 2 (p + 2) q]; field_simp
        rw [e, abs_div, abs_mul, abs_mul, abs_of_pos (by positivity : (0 : ℝ) < 2 ^ (p + 2)), abs_sub_comm, div_le_iff₀ (mul_pos (abs_pos.2 hx) (abs_pos.2 hz0R))]
        have h7 : (2 : ℝ) ^ (p + 2) * |x * 2 ^ q - z| ≤ 2 ^ (p + 2) * 1 := mul_le_mul_of_nonneg_left hfine (by positivity)
        have h8 : 8 * 2 ^ p ≤ |x| * |(z : ℝ)| := by
          calc 8 * 2 ^ p = 8 * 2 ^ p * 1 := by ring
            _ ≤ 8 * 2 ^ p * (|x| * 2 ^ s) := mul_le_mul_of_nonneg_left hsep (by positivity)
            _ = |x| * (8 * 2 ^ p * 2 ^ s) := by ring
            _ ≤ |x| * |(z : ℝ)| := mul_le_mul_of_nonneg_left hzabs (abs_nonneg _)
        have h9 : (2 : ℝ) ^ (p + 2) = 4 * 2 ^ p := by ring
        linarith
      rw [abs_le] at *
      constructor <;> linarith [hf.1, hf.2, hdiff.1, hdiff.2]
  | root a iha =>
    intro p
    have h := iha (2 * p + 4)
    unfold Near at h
    have hdef : (Exact.root a).approx p = rshift (isqrt (a.approx (2 * p + 4)).toNat : ℤ) 2 := rfl
    rw [hdef]
    refine near_of_rshift (by norm_num) ?_
    set z := a.approx (2 * p + 4) with hz
    set x := a.toReal with hx
    have hq := isqrt_near z.toNat
    rw [Exact.toReal, ← hx]
    have hsx : √x * 2 ^ (p + 2) = √(x * 2 ^ (2 * p + 4)) := by
      rw [Real.sqrt_mul' _ (by positivity), show (2 : ℝ) ^ (2 * p + 4) = (2 ^ (p + 2)) ^ 2 by ring, Real.sqrt_sq (by positivity)]
    have hzR : √((z.toNat : ℕ) : ℝ) = √(z : ℝ) := by
      rcases le_total 0 z with h0 | h0
      · congr 1; exact_mod_cast Int.toNat_of_nonneg h0
      · rw [Int.toNat_of_nonpos h0, Nat.cast_zero, Real.sqrt_zero, Real.sqrt_eq_zero'.2 (by exact_mod_cast h0)]
    have hsqrt : |√(x * 2 ^ (2 * p + 4)) - √(z : ℝ)| ≤ 1 := by
      have hle : ∀ u v : ℝ, |u - v| ≤ 1 → √u ≤ √v + 1 := by
        intro u v huv
        rw [Real.sqrt_le_left (by positivity)]
        have h1 := (abs_le.1 huv).2
        rcases le_total 0 v with hv | hv
        · nlinarith [Real.sq_sqrt hv, Real.sqrt_nonneg v]
        · nlinarith [Real.sqrt_nonneg v]
      rw [abs_le]
      constructor
      · linarith [hle z (x * 2 ^ (2 * p + 4)) (by rw [abs_sub_comm]; exact h)]
      · linarith [hle (x * 2 ^ (2 * p + 4)) z h]
    rw [hzR] at hq
    rw [hsx]
    push_cast
    rw [abs_le] at *
    constructor <;> linarith [hq.1, hq.2, hsqrt.1, hsqrt.2]

end Sys2Proof.Laws.Approximation
end

