-- ==== Sys2Proof/Laws/Memory.lean ====
section
/-! SUPPORT. The laws of the sample-block arrays: reading what was written, the rest left alone, and the canonical form
kept by every operation. -/

namespace Sys2Proof.Machine.NumMem

@[simp] theorem read_nil (i : Nat) : read [] i = Num.zero := rfl

theorem wfFrom_cons {n lo j : Nat} {v : Num} {rest : NumMem} :
    wfFrom n lo ((j, v) :: rest) = true ↔ lo ≤ j ∧ j < n ∧ v ≠ Num.zero ∧ wfFrom n (j + 1) rest = true := by
  simp [wfFrom, and_assoc]

/-- The lower bound can be weakened. -/
theorem wfFrom_mono {n lo lo' : Nat} {m : NumMem} (h : wfFrom n lo m = true) (hle : lo' ≤ lo) : wfFrom n lo' m = true := by
  cases m with
  | nil => rfl
  | cons p rest =>
    obtain ⟨j, v⟩ := p
    rw [wfFrom_cons] at h ⊢
    exact ⟨hle.trans h.1, h.2⟩

/-- Nothing is listed below the lower bound. -/
theorem read_of_lt {n lo : Nat} {m : NumMem} (h : wfFrom n lo m = true) {i : Nat} (hi : i < lo) : read m i = Num.zero := by
  induction m generalizing lo with
  | nil => rfl
  | cons p rest ih =>
    obtain ⟨j, v⟩ := p
    rw [wfFrom_cons] at h
    rw [read, if_neg (by omega)]
    exact ih h.2.2.2 (by omega)

/-- A canonical array has nothing at an index it does not have. -/
theorem read_of_le {n lo : Nat} {m : NumMem} (h : wfFrom n lo m = true) {i : Nat} (hi : n ≤ i) : read m i = Num.zero := by
  induction m generalizing lo with
  | nil => rfl
  | cons p rest ih =>
    obtain ⟨j, v⟩ := p
    rw [wfFrom_cons] at h
    rw [read, if_neg (by omega)]
    exact ih h.2.2.2

/-- A write changes the one element it names. -/
theorem read_write {n lo : Nat} {m : NumMem} (h : wfFrom n lo m = true) (i : Nat) (v : Num) (k : Nat) :
    read (write m i v) k = if k = i then v else read m k := by
  induction m generalizing lo with
  | nil =>
    by_cases hv : v = Num.zero
    · simp [write, hv]
    · by_cases hk : k = i
      · simp [write, hv, read, hk]
      · simp [write, hv, read, hk, Ne.symm hk]
  | cons p rest ih =>
    obtain ⟨j, w⟩ := p
    rw [wfFrom_cons] at h
    obtain ⟨-, -, hw, hr⟩ := h
    have below : ∀ q, q < j + 1 → read rest q = Num.zero := fun q hq => read_of_lt hr hq
    rw [write]
    split
    · rename_i hij
      split
      · rename_i hv
        by_cases hk : k = i
        · subst hk; rw [if_pos rfl, hv, read, if_neg (by omega), below k (by omega)]
        · rw [if_neg hk]
      · by_cases hk : k = i
        · subst hk; simp [read]
        · rw [if_neg hk, read, if_neg (by omega)]
    · split
      · rename_i hij; subst hij
        split
        · rename_i hv
          by_cases hk : k = i
          · subst hk; rw [if_pos rfl, hv, below k (by omega)]
          · rw [if_neg hk, read, if_neg (by omega)]
        · by_cases hk : k = i
          · subst hk; simp [read]
          · rw [if_neg hk, read, if_neg (by omega), read, if_neg (by omega)]
      · rename_i h1 h2
        by_cases hj : j = k
        · subst hj; simp [read, show j ≠ i by omega]
        · rw [read, if_neg hj, ih hr, read, if_neg hj]

/-- A write keeps the canonical form. -/
theorem wfFrom_write {n lo : Nat} {m : NumMem} (h : wfFrom n lo m = true) {i : Nat} (hlo : lo ≤ i) (hi : i < n) (v : Num) :
    wfFrom n lo (write m i v) = true := by
  induction m generalizing lo with
  | nil =>
    rw [write]
    split
    · rfl
    · rename_i hv
      exact wfFrom_cons.2 ⟨hlo, hi, hv, rfl⟩
  | cons p rest ih =>
    obtain ⟨j, w⟩ := p
    rw [wfFrom_cons] at h
    obtain ⟨h1, h2, hw, hr⟩ := h
    rw [write]
    split
    · rename_i hij
      split
      · exact wfFrom_cons.2 ⟨h1, h2, hw, hr⟩
      · rename_i hv
        exact wfFrom_cons.2 ⟨hlo, hi, hv, wfFrom_cons.2 ⟨by omega, h2, hw, hr⟩⟩
    · split
      · rename_i hij; subst hij
        split
        · exact wfFrom_mono hr (by omega)
        · rename_i hv
          exact wfFrom_cons.2 ⟨h1, h2, hv, hr⟩
      · exact wfFrom_cons.2 ⟨h1, h2, hw, ih hr (by omega)⟩

theorem wfFrom_fillFrom (n : Nat) (f : Nat → Num) (count lo : Nat) (h : lo + count ≤ n) :
    wfFrom n lo (fillFrom f count lo) = true := by
  induction count generalizing lo with
  | zero => rfl
  | succ c ih =>
    rw [fillFrom]
    split
    · exact wfFrom_mono (ih (lo + 1) (by omega)) (by omega)
    · rename_i hv
      exact wfFrom_cons.2 ⟨le_refl _, by omega, hv, ih (lo + 1) (by omega)⟩

theorem read_fillFrom (f : Nat → Num) (count lo i : Nat) :
    read (fillFrom f count lo) i = if lo ≤ i ∧ i < lo + count then f i else Num.zero := by
  induction count generalizing lo with
  | zero => simp [fillFrom, show ¬ (lo ≤ i ∧ i < lo) by omega]
  | succ c ih =>
    rw [fillFrom]
    by_cases hi : i = lo
    · subst hi
      rw [if_pos (show i ≤ i ∧ i < i + (c + 1) by omega)]
      split
      · rename_i hv; rw [ih, if_neg (by omega), hv]
      · rw [read, if_pos rfl]
    · have e : (lo + 1 ≤ i ∧ i < lo + 1 + c) ↔ (lo ≤ i ∧ i < lo + (c + 1)) := by omega
      split
      · rw [ih]; simp only [e]
      · rw [read, if_neg (Ne.symm hi), ih]; simp only [e]

/-- Reading a block rewritten as a whole. -/
theorem read_fill (n : Nat) (f : Nat → Num) (i : Nat) : read (fill n f) i = if i < n then f i else Num.zero := by
  rw [fill, read_fillFrom]; simp

end NumMem

namespace Memory

@[simp] theorem wf_nil (n : Nat) : wf n [] = true := rfl

theorem wf_fill (n : Nat) (f : Nat → Num) : wf n (NumMem.fill n f) = true :=
  NumMem.wfFrom_fillFrom n f n 0 (by omega)

theorem wf_write {n : Nat} {m : NumMem} (h : wf n m = true) {i : Nat} (hi : i < n) (v : Num) : wf n (m.write i v) = true :=
  NumMem.wfFrom_write h (Nat.zero_le _) hi v

theorem read_write {n : Nat} {m : NumMem} (h : wf n m = true) (i : Nat) (v : Num) (k : Nat) :
    (m.write i v).read k = if k = i then v else m.read k := NumMem.read_write h i v k

/-- Canonical arrays with the same elements are the same list. -/
theorem ext {n : Nat} {a b : NumMem} (ha : wf n a = true) (hb : wf n b = true) (h : ∀ i, a.read i = b.read i) : a = b := by
  unfold wf at ha hb
  generalize 0 = lo at ha hb
  induction a generalizing b lo with
  | nil =>
    cases b with
    | nil => rfl
    | cons p rest =>
      obtain ⟨j, v⟩ := p
      rw [NumMem.wfFrom_cons] at hb
      exact absurd (by simpa [NumMem.read] using (h j).symm) hb.2.2.1
  | cons p rest ih =>
    obtain ⟨j, v⟩ := p
    rw [NumMem.wfFrom_cons] at ha
    obtain ⟨-, -, hv, hr⟩ := ha
    cases b with
    | nil => exact absurd (by simpa [NumMem.read] using h j) hv
    | cons q rest' =>
      obtain ⟨k, w⟩ := q
      rw [NumMem.wfFrom_cons] at hb
      obtain ⟨-, -, hw, hr'⟩ := hb
      have hjk : j = k := by
        rcases lt_trichotomy j k with hlt | heq | hgt
        · have := h j
          simp only [NumMem.read, if_pos, if_neg (show ¬ k = j by omega), NumMem.read_of_lt hr' (show j < k + 1 by omega)] at this
          exact absurd this hv
        · exact heq
        · have := h k
          simp only [NumMem.read, if_pos, if_neg (show ¬ j = k by omega), NumMem.read_of_lt hr (show k < j + 1 by omega)] at this
          exact absurd this.symm hw
      subst hjk
      have hvw : v = w := by simpa [NumMem.read] using h j
      subst hvw
      have : rest = rest' := by
        refine ih (fun i => ?_) (j + 1) hr hr'
        by_cases hi : j = i
        · subst hi; rw [NumMem.read_of_lt hr (by omega), NumMem.read_of_lt hr' (by omega)]
        · simpa [NumMem.read, hi] using h i
      rw [this]

end Sys2Proof.Machine.Memory
end

