-- ==== Sys2Proof/Laws/Numerics.lean ====
section
/-! SUPPORT. The reference instance is exact: each working form denotes the real number its register's content stands for,
and the comparisons of a build with that instance are the order of ℝ. Every later proof about values cites these lemmas and
unfolds no operation. -/

namespace Sys2Proof
open ExactArith Laws.Approximation

namespace Exact

theorem sign_cases (a : Exact) :
    (0 < a.toReal ∧ 0 < a.sign) ∨ (a.toReal = 0 ∧ a.sign = 0) ∨ (a.toReal < 0 ∧ a.sign < 0) := by
  have big : ∀ p : ℕ, 1 < (a.approx p).natAbs →
      (0 < a.toReal ∧ 0 < (a.approx p).sign) ∨ (a.toReal < 0 ∧ (a.approx p).sign < 0) := by
    intro p h
    have hn := abs_le.1 (approx_near a p)
    have hp : (0 : ℝ) < 2 ^ p := by positivity
    rcases lt_trichotomy (a.approx p) 0 with h0 | h0 | h0
    · right
      have h2 : a.approx p ≤ -2 := by omega
      have h3 : ((a.approx p : ℤ) : ℝ) ≤ -2 := by exact_mod_cast h2
      refine ⟨?_, by rw [Int.sign_eq_neg_one_of_neg h0]; norm_num⟩
      by_contra hc
      have := mul_nonneg (not_lt.1 hc) hp.le
      linarith [hn.2]
    · simp [h0] at h
    · left
      have h2 : 2 ≤ a.approx p := by omega
      have h3 : (2 : ℝ) ≤ ((a.approx p : ℤ) : ℝ) := by exact_mod_cast h2
      refine ⟨?_, by rw [Int.sign_eq_one_of_pos h0]; norm_num⟩
      by_contra hc
      have := mul_nonpos_of_nonpos_of_nonneg (not_lt.1 hc) hp.le
      linarith [hn.1]
  have hdef : a.sign = if 1 < (a.approx 64).natAbs then (a.approx 64).sign
      else if (a.approx (a.sepBits + 2)).natAbs ≤ 1 then 0 else (a.approx (a.sepBits + 2)).sign := rfl
  rw [hdef]
  split
  · rcases big 64 (by assumption) with h | h
    · exact .inl h
    · exact .inr (.inr h)
  · split
    · rename_i hz
      refine .inr (.inl ⟨?_, rfl⟩)
      by_contra h0
      have hsep := Laws.Separation.one_le_abs_mul_sepBits a h0
      have hn := approx_near a (a.sepBits + 2)
      have hzR : |((a.approx (a.sepBits + 2) : ℤ) : ℝ)| ≤ 1 := by
        rw [← Int.cast_abs, Int.abs_eq_natAbs]; exact_mod_cast hz
      unfold Near at hn
      have h3 : |a.toReal| * 2 ^ (a.sepBits + 2) ≤ 2 := by
        rw [← abs_of_pos (by positivity : (0 : ℝ) < 2 ^ (a.sepBits + 2)), ← abs_mul]
        calc _ = |(a.toReal * 2 ^ (a.sepBits + 2) - a.approx (a.sepBits + 2)) + a.approx (a.sepBits + 2)| := by ring_nf
          _ ≤ _ := abs_add_le _ _
          _ ≤ 2 := by linarith
      have h4 : |a.toReal| * 2 ^ (a.sepBits + 2) = 4 * (|a.toReal| * 2 ^ a.sepBits) := by ring
      linarith
    · rcases big (a.sepBits + 2) (by omega) with h | h
      · exact .inl h
      · exact .inr (.inr h)

theorem sign_eq_zero_iff (a : Exact) : a.sign = 0 ↔ a.toReal = 0 := by
  rcases sign_cases a with h | h | h <;> constructor <;> intro h' <;> first | exact h.1 | exact h.2 | linarith [h.1, h.2]

theorem sign_neg_iff (a : Exact) : a.sign < 0 ↔ a.toReal < 0 := by
  rcases sign_cases a with h | h | h <;> constructor <;> intro h' <;> first | exact h.1 | exact h.2 | linarith [h.1, h.2]

theorem sign_nonpos_iff (a : Exact) : a.sign ≤ 0 ↔ a.toReal ≤ 0 := by
  rcases sign_cases a with h | h | h <;> constructor <;> intro h' <;> first | linarith [h.1, h.2]

/-- The comparison ≤ is the order of the reals. -/
@[simp] theorem le_iff (a b : Exact) : a.le b = true ↔ a.toReal ≤ b.toReal := by
  have gen : decide ((Exact.plus a (.times (.rat (-1)) b)).sign ≤ 0) = true ↔ a.toReal ≤ b.toReal := by
    rw [decide_eq_true_iff, sign_nonpos_iff, toReal, toReal, toReal]
    push_cast
    constructor <;> intro h <;> linarith
  unfold le
  split
  · rw [decide_eq_true_iff, toReal, toReal, Rat.cast_le]
  · exact gen

@[simp] theorem toReal_rat (q : ℚ) : (Exact.rat q).toReal = q := rfl

@[simp] theorem toReal_add (a b : Exact) : (add a b).toReal = a.toReal + b.toReal := by
  unfold add
  split
  · simp
  · split
    · rename_i h; simp [h]
    · split
      · rename_i h; simp [h]
      · rfl

@[simp] theorem toReal_mul (a b : Exact) : (mul a b).toReal = a.toReal * b.toReal := by
  unfold mul
  split
  · simp
  · split
    · rename_i h; rcases h with h | h <;> simp [h]
    · split
      · rename_i h; simp [h]
      · split
        · rename_i h; simp [h]
        · rfl

@[simp] theorem toReal_sub (a b : Exact) : (sub a b).toReal = a.toReal - b.toReal := by
  rw [sub, toReal_add, toReal_mul, toReal_rat]; push_cast; ring

/-- Division by a number that is not zero. -/
theorem toReal_div (free : ℚ) (a b : Exact) (h : b.toReal ≠ 0) : (div free a b).toReal = a.toReal / b.toReal := by
  unfold div
  split
  · rename_i y
    have hy : y ≠ 0 := by rintro rfl; exact h (by simp)
    rw [if_neg hy, toReal_mul, toReal_rat, toReal_rat, div_eq_mul_inv]; push_cast; rfl
  · rw [if_neg (by rw [sign_eq_zero_iff]; exact h), toReal_mul, toReal, div_eq_mul_inv]

/-- Division by zero. -/
theorem toReal_div_zero (free : ℚ) (a b : Exact) (h : b.toReal = 0) : (div free a b).toReal = free := by
  unfold div
  split
  · rename_i y
    rw [if_pos (by simpa using h), toReal_rat]
  · rw [if_pos ((sign_eq_zero_iff _).2 h), toReal_rat]

/-- Square root of a number that is not negative. -/
theorem toReal_sqrt (free : ℚ) (a : Exact) (h : 0 ≤ a.toReal) : (sqrt free a).toReal = √a.toReal := by
  unfold sqrt
  split
  · rename_i x
    have hx : 0 ≤ x := by simpa using h
    rw [if_neg (not_lt.2 hx)]
    simp only
    split
    · rename_i hsq
      obtain ⟨h1, h2⟩ := hsq
      have hn : (x.num.toNat : ℤ) = x.num := Int.toNat_of_nonneg (Rat.num_nonneg.2 hx)
      have e : (x : ℝ) = ((isqrt x.num.toNat : ℝ) / (isqrt x.den : ℝ)) ^ 2 := by
        have e1 : (x : ℝ) = (x.num.toNat : ℝ) / (x.den : ℝ) := by
          have : ((x.num.toNat : ℤ) : ℝ) = (x.num : ℝ) := by exact_mod_cast hn
          rw [show ((x.num.toNat : ℕ) : ℝ) = (x.num : ℝ) by exact_mod_cast this]
          exact_mod_cast (Rat.num_div_den x).symm
        rw [e1, div_pow, sq, sq]
        congr 1
        · exact_mod_cast h1.symm
        · exact_mod_cast h2.symm
      rw [toReal_rat, toReal_rat, e, Real.sqrt_sq (by positivity), Rat.mkRat_eq_div]; push_cast; rfl
    · rfl
  · rw [if_neg (by rw [sign_neg_iff]; exact not_lt.2 h), toReal]

/-- Square root of a negative number. -/
theorem toReal_sqrt_neg (free : ℚ) (a : Exact) (h : a.toReal < 0) : (sqrt free a).toReal = free := by
  unfold sqrt
  split
  · rename_i x
    rw [if_pos (by simpa using h), toReal_rat]
  · rw [if_pos ((sign_neg_iff _).2 h), toReal_rat]

@[simp] theorem toReal_cosOfPi (q : ℚ) : (cosOfPi q).toReal = Real.cos (q * Real.pi) := by
  obtain ⟨-, -, h⟩ := foldAngle_spec q
  rw [h]
  have hc : ∀ u : ℚ, (if u = 0 then Exact.rat 1 else if u = 1 / 2 then .rat 0 else if u = 1 / 3 then .rat (1 / 2) else .cosPi u).toReal =
      Real.cos (u * Real.pi) := by
    intro u
    split
    · rename_i hu; simp [hu]
    · split
      · rename_i hu; subst hu
        simp only [toReal_rat]; push_cast
        rw [show (1 / 2 : ℝ) * Real.pi = Real.pi / 2 by ring, Real.cos_pi_div_two]
      · split
        · rename_i hu; subst hu
          simp only [toReal_rat]; push_cast
          rw [show (1 / 3 : ℝ) * Real.pi = Real.pi / 3 by ring, Real.cos_pi_div_three]
        · rfl
  have hdef : cosOfPi q =
      (let c : Exact := if (foldAngle q).2 = 0 then Exact.rat 1 else if (foldAngle q).2 = 1 / 2 then .rat 0
        else if (foldAngle q).2 = 1 / 3 then .rat (1 / 2) else .cosPi (foldAngle q).2
       if (foldAngle q).1 = true then Exact.mul (.rat (-1)) c else c) := rfl
  rw [hdef]
  simp only
  split
  · rw [toReal_mul, hc, toReal_rat]; push_cast; ring
  · exact hc _

@[simp] theorem toReal_sinOfPi (q : ℚ) : (sinOfPi q).toReal = Real.sin (q * Real.pi) := by
  rw [sinOfPi, toReal_cosOfPi, ← Real.cos_pi_div_two_sub]
  congr 1; push_cast; ring

end Exact

namespace Num

/-! ## What a register's content stands for under the reference instance -/

@[simp] theorem toReal_num (n : ℕ) : (num n).toReal = n := rfl
@[simp] theorem toReal_lit (q : ℚ) : (lit q).toReal = q := rfl
@[simp] theorem toReal_zero : Num.zero.toReal = 0 := by simp [zero]
@[simp] theorem toReal_dec (p : ℤ) (q : ℕ) : (dec p q).toReal = p / q := by
  simp [dec, Rat.mkRat_eq_div]
@[simp] theorem toReal_add (a b : Num) : (add a b).toReal = a.toReal + b.toReal := rfl
@[simp] theorem toReal_sub (a b : Num) : (sub a b).toReal = a.toReal - b.toReal := rfl
@[simp] theorem toReal_mul (a b : Num) : (mul a b).toReal = a.toReal * b.toReal := rfl

/-- Division by a number that is not zero. -/
theorem toReal_div (a b : Num) (h : b.toReal ≠ 0) : (div a b).toReal = a.toReal / b.toReal := by
  rw [toReal, if_neg h]

/-- Square root of a number that is not negative. -/
theorem toReal_sqrt (a : Num) (h : 0 ≤ a.toReal) : (sqrt a).toReal = √a.toReal := by
  rw [toReal, if_neg (not_lt.2 h)]

/-- An angle with a divisor, in units of pi. -/
theorem turns_eq {t : Angle} (h : t.divisor ≠ 0) : (t.turns : ℝ) = 2 * (t.factors.prod : ℝ) / t.divisor := by
  rw [Angle.turns, if_neg h]
  simp only [Rat.cast_div, Rat.cast_mul, Rat.cast_natCast, Rat.cast_ofNat]

/-- The cosine and the sine of an angle with a divisor. -/
theorem toReal_cos (f : List ℕ) {d : ℕ} (h : d ≠ 0) :
    (cos ⟨f, d⟩).toReal = Real.cos (2 * Real.pi * (f.prod : ℝ) / d) := by
  rw [toReal, turns_eq h]
  congr 1; ring

theorem toReal_sin (f : List ℕ) {d : ℕ} (h : d ≠ 0) :
    (sin ⟨f, d⟩).toReal = Real.sin (2 * Real.pi * (f.prod : ℝ) / d) := by
  rw [toReal, turns_eq h]
  congr 1; ring

/-- The working form is the same real number. -/
@[simp] theorem toExact_toReal (a : Num) : a.toExact.toReal = a.toReal := by
  induction a with
  | num n => simp [toExact]
  | lit q => simp [toExact]
  | add a b iha ihb => rw [toExact, Exact.toReal_add, iha, ihb, toReal_add]
  | sub a b iha ihb => rw [toExact, Exact.toReal_sub, iha, ihb, toReal_sub]
  | mul a b iha ihb => rw [toExact, Exact.toReal_mul, iha, ihb, toReal_mul]
  | div a b iha ihb =>
    rw [toExact, toReal]
    split
    · rename_i h; rw [Exact.toReal_div_zero _ _ _ (ihb.trans h)]
    · rename_i h; rw [Exact.toReal_div _ _ _ (by rwa [ihb]), iha, ihb]
  | sqrt a iha =>
    rw [toExact, toReal]
    split
    · rename_i h; rw [Exact.toReal_sqrt_neg _ _ (by rwa [iha])]
    · rename_i h; rw [Exact.toReal_sqrt _ _ (by rw [iha]; exact not_lt.1 h), iha]
  | cos t => rw [toExact, Exact.toReal_cosOfPi, toReal]
  | sin t => rw [toExact, Exact.toReal_sinOfPi, toReal]

/-- Nowhere a division by zero or the root of a negative number: the values the spec gives. -/
def Stated : Num → Prop
  | .num _ => True
  | .lit _ => True
  | .add a b => a.Stated ∧ b.Stated
  | .sub a b => a.Stated ∧ b.Stated
  | .mul a b => a.Stated ∧ b.Stated
  | .div a b => a.Stated ∧ b.Stated ∧ b.toReal ≠ 0
  | .sqrt a => a.Stated ∧ 0 ≤ a.toReal
  | .cos t => t.divisor ≠ 0
  | .sin t => t.divisor ≠ 0

theorem foldl_mul_num (f : List ℕ) (x : ℝ) :
    f.foldl (fun x k => Numerics.real.mul x (Numerics.real.num k)) x = x * (f.prod : ℝ) := by
  induction f generalizing x with
  | nil => simp
  | cons k f ih => rw [List.foldl_cons, ih]; simp only [Numerics.real, List.prod_cons]; push_cast; ring

theorem angle_eval {t : Angle} (h : t.divisor ≠ 0) : t.eval Numerics.real = (t.turns : ℝ) * Real.pi := by
  rw [Angle.eval, foldl_mul_num, turns_eq h]
  simp only [Numerics.real]; push_cast; ring

/-- Where the spec gives a value, toReal is the evaluation in the reference instance of the record. -/
theorem eval_real {a : Num} (h : a.Stated) : a.eval Numerics.real = a.toReal := by
  induction a with
  | num n => rfl
  | lit q => rfl
  | add a b iha ihb => rw [eval, iha h.1, ihb h.2]; rfl
  | sub a b iha ihb => rw [eval, iha h.1, ihb h.2]; rfl
  | mul a b iha ihb => rw [eval, iha h.1, ihb h.2]; rfl
  | div a b iha ihb => rw [eval, iha h.1, ihb h.2.1, toReal_div _ _ h.2.2]; rfl
  | sqrt a iha => rw [eval, iha h.1, toReal_sqrt _ h.2]; rfl
  | cos t => rw [eval, angle_eval h, toReal]; rfl
  | sin t => rw [eval, angle_eval h, toReal]; rfl

end Num

namespace Params

/-! ## The comparisons of a build with the reference instance -/

variable {c : Params} (h : c.numerics = .reference)
include h

theorem le_iff (a b : Num) : c.le a b = true ↔ a.toReal ≤ b.toReal := by
  rw [le, h]
  simp only [Exact.le_iff, Num.toExact_toReal]

theorem lt_iff (a b : Num) : c.lt a b = true ↔ a.toReal < b.toReal := by
  rw [lt, h]
  simp only [Bool.not_eq_true', ← Bool.not_eq_true, Exact.le_iff, Num.toExact_toReal, not_le]

theorem le_eq_false_iff (a b : Num) : c.le a b = false ↔ b.toReal < a.toReal := by
  rw [← Bool.not_eq_true, le_iff h, not_le]

theorem lt_eq_false_iff (a b : Num) : c.lt a b = false ↔ b.toReal ≤ a.toReal := by
  rw [← Bool.not_eq_true, lt_iff h, not_lt]

end Params
end Sys2Proof
end

