-- ==== Sys2Proof/Laws/Parameters.lean ====
section
/-! SUPPORT. What Params.wf gives: the constraints of 00_scope.md R5 to R9 as facts about numbers, and the two conversions
of counts to voltages as real numbers. -/

namespace Sys2Proof
namespace Params

/-- All the constraints at once, the numbers compared in the build's own NUMERICS. -/
theorem wf_iff (c : Params) : c.wf = true ↔
    (8 ≤ c.n ∧ 2 ^ Nat.log2 c.n = c.n) ∧ 1 ≤ c.tS ∧ (1 ≤ c.fcMaxCount ∧ c.lt Num.zero c.fcVfs = true) ∧
    (c.kMin ≤ c.kMax ∧ c.kMax + 1 ≤ c.n) ∧
    (2 ≤ c.cal.length ∧ c.lt Num.zero (c.cal.headD default).meas = true ∧ risingCal c c.cal = true) ∧
    (c.lt Num.zero c.vRef = true ∧ 1 ≤ c.maxCountScale) ∧ 2 * c.clipMargin < convMax ∧ c.lt Num.zero c.noiseFloor = true ∧
    1 ≤ c.tPass1 ∧ 1 ≤ c.tPass2 := by
  simp [wf, blockSizeOk, intervalOk, rawScaleOk, searchRangeOk, tableOk, converterOk, marginOk, floorOk, windowsOk,
    and_assoc]

section
variable {c : Params} (h : c.wf = true)
include h

theorem n_ge : 8 ≤ c.n := ((wf_iff c).1 h).1.1
theorem n_pow : 2 ^ Nat.log2 c.n = c.n := ((wf_iff c).1 h).1.2
theorem tS_pos : 1 ≤ c.tS := ((wf_iff c).1 h).2.1
theorem maxCount_pos : 1 ≤ c.fcMaxCount := ((wf_iff c).1 h).2.2.1.1
theorem kMin_le : c.kMin ≤ c.kMax := ((wf_iff c).1 h).2.2.2.1.1
theorem kMax_lt : c.kMax < c.n := ((wf_iff c).1 h).2.2.2.1.2
theorem cal_len : 2 ≤ c.cal.length := ((wf_iff c).1 h).2.2.2.2.1.1
theorem cal_rising : risingCal c c.cal = true := ((wf_iff c).1 h).2.2.2.2.1.2.2
theorem scale_pos : 1 ≤ c.maxCountScale := ((wf_iff c).1 h).2.2.2.2.2.1.2
theorem margin_lt : 2 * c.clipMargin < convMax := ((wf_iff c).1 h).2.2.2.2.2.2.1
theorem tPass1_pos : 1 ≤ c.tPass1 := ((wf_iff c).1 h).2.2.2.2.2.2.2.2.1
theorem tPass2_pos : 1 ≤ c.tPass2 := ((wf_iff c).1 h).2.2.2.2.2.2.2.2.2

/-! What the reference instance adds. -/
variable (hr : c.numerics = .reference)
include hr

theorem fcVfs_pos : 0 < c.fcVfs.toReal := by simpa using (lt_iff hr _ _).1 ((wf_iff c).1 h).2.2.1.2
theorem vRef_pos : 0 < c.vRef.toReal := by simpa using (lt_iff hr _ _).1 ((wf_iff c).1 h).2.2.2.2.2.1.1
theorem floor_pos : 0 < c.noiseFloor.toReal := by simpa using (lt_iff hr _ _).1 ((wf_iff c).1 h).2.2.2.2.2.2.2.1

theorem cal_head_pos : 0 < (Machine.calMeas c 0).toReal := by
  have h1 : 0 < (c.cal.headD default).meas.toReal := by simpa using (lt_iff hr _ _).1 ((wf_iff c).1 h).2.2.2.2.1.2.1
  unfold Machine.calMeas
  cases hc : c.cal with
  | nil => rw [hc] at h1; simpa using h1
  | cons a l => rw [hc] at h1; simpa using h1

end

/-- A rising table rises from each entry to the next, in any instance. -/
theorem risingCal_step {c : Params} {l : List CalEntry} (h : risingCal c l = true) {i : Nat} (hi : i + 1 < l.length) :
    c.lt (l.getD i default).meas (l.getD (i + 1) default).meas = true := by
  induction l generalizing i with
  | nil => simp at hi
  | cons a t ih =>
    cases t with
    | nil => simp at hi
    | cons b rest =>
      simp only [risingCal, Bool.and_eq_true] at h
      cases i with
      | zero => simpa using h.1
      | succ j =>
        have := ih h.2 (i := j) (by simpa using hi)
        simpa using this

theorem calMeas_step {c : Params} (h : c.wf = true) (hr : c.numerics = .reference) {i : Nat} (hi : i + 1 < Machine.calLen c) :
    (Machine.calMeas c i).toReal < (Machine.calMeas c (i + 1)).toReal :=
  (lt_iff hr _ _).1 (risingCal_step (cal_rising h) hi)

/-- The measured column is strictly increasing (R7). -/
theorem calMeas_lt {c : Params} (h : c.wf = true) (hr : c.numerics = .reference) {i j : Nat} (hij : i < j)
    (hj : j < Machine.calLen c) : (Machine.calMeas c i).toReal < (Machine.calMeas c j).toReal := by
  induction j with
  | zero => omega
  | succ k ih =>
    rcases Nat.lt_succ_iff_lt_or_eq.1 hij with hik | rfl
    · exact (ih hik (by omega)).trans (calMeas_step h hr (by omega))
    · exact calMeas_step h hr hj

end Params

namespace Machine

/-- The voltage of a raw count (R141). -/
theorem rawVolt_toReal {c : Params} (h : c.wf = true) (k : Nat) :
    (rawVolt c k).toReal = k * (c.fcVfs.toReal / c.fcMaxCount) := by
  have h1 : (c.fcMaxCount : ℝ) ≠ 0 := by have := Params.maxCount_pos h; positivity
  rw [rawVolt, fcRatio, Num.toReal_mul, Num.toReal_num, Num.toReal_div _ _ (by simpa using h1), Num.toReal_num]

/-- The voltage of a converter count (R213). -/
theorem volt_toReal {c : Params} (h : c.wf = true) (k : Nat) :
    (volt c k).toReal = k * c.vRef.toReal / c.maxCountScale := by
  have h1 : (c.maxCountScale : ℝ) ≠ 0 := by have := Params.scale_pos h; positivity
  rw [volt, Num.toReal_div _ _ (by simpa using h1), Num.toReal_mul, Num.toReal_num, Num.toReal_num]

theorem volt_nonneg {c : Params} (h : c.wf = true) (hr : c.numerics = .reference) (k : Nat) : 0 ≤ (volt c k).toReal := by
  rw [volt_toReal h]
  have := Params.vRef_pos h hr
  positivity

end Machine
end Sys2Proof
end

