-- ==== Sys2Proof/Laws/State.lean ====
section
/-! SUPPORT. One lemma per field per named update of the state, each true by rfl, so that no later proof unfolds a record
update. -/

namespace Sys2Proof.Machine

@[simp] theorem goto_cfg (s : State) (p : BitVec 5) : (s.goto p).cfg = s.cfg := rfl
@[simp] theorem goto_phase (s : State) (p : BitVec 5) : (s.goto p).phase = p := rfl
@[simp] theorem goto_idx (s : State) (p : BitVec 5) : (s.goto p).idx = s.idx := rfl
@[simp] theorem goto_tMark (s : State) (p : BitVec 5) : (s.goto p).tMark = s.tMark := rfl
@[simp] theorem goto_flags (s : State) (p : BitVec 5) : (s.goto p).flags = s.flags := rfl
@[simp] theorem goto_pub (s : State) (p : BitVec 5) : (s.goto p).pub = s.pub := rfl
@[simp] theorem goto_fc (s : State) (p : BitVec 5) : (s.goto p).fc = s.fc := rfl
@[simp] theorem goto_wa (s : State) (p : BitVec 5) : (s.goto p).wa = s.wa := rfl
@[simp] theorem goto_blk (s : State) (p : BitVec 5) : (s.goto p).blk = s.blk := rfl
@[simp] theorem goto_env (s : State) (p : BitVec 5) : (s.goto p).env = s.env := rfl

@[simp] theorem tick_cfg (d : Nat) (s : State) : (tick d s).cfg = s.cfg := rfl
@[simp] theorem tick_phase (d : Nat) (s : State) : (tick d s).phase = s.phase := rfl
@[simp] theorem tick_idx (d : Nat) (s : State) : (tick d s).idx = s.idx := rfl
@[simp] theorem tick_tMark (d : Nat) (s : State) : (tick d s).tMark = s.tMark := rfl
@[simp] theorem tick_flags (d : Nat) (s : State) : (tick d s).flags = s.flags := rfl
@[simp] theorem tick_pub (d : Nat) (s : State) : (tick d s).pub = s.pub := rfl
@[simp] theorem tick_fc (d : Nat) (s : State) : (tick d s).fc = s.fc := rfl
@[simp] theorem tick_wa (d : Nat) (s : State) : (tick d s).wa = s.wa := rfl
@[simp] theorem tick_blk (d : Nat) (s : State) : (tick d s).blk = s.blk := rfl
@[simp] theorem tick_env (d : Nat) (s : State) : (tick d s).env = { s.env with now := s.env.now + (d + 1) } := rfl

@[simp] theorem schedule_cfg (s : State) (a : Agent) : (s.schedule a).cfg = s.cfg := rfl
@[simp] theorem schedule_phase (s : State) (a : Agent) : (s.schedule a).phase = s.phase := rfl
@[simp] theorem schedule_idx (s : State) (a : Agent) : (s.schedule a).idx = s.idx := rfl
@[simp] theorem schedule_tMark (s : State) (a : Agent) : (s.schedule a).tMark = s.tMark := rfl
@[simp] theorem schedule_flags (s : State) (a : Agent) : (s.schedule a).flags = s.flags := rfl
@[simp] theorem schedule_pub (s : State) (a : Agent) : (s.schedule a).pub = s.pub := rfl
@[simp] theorem schedule_fc (s : State) (a : Agent) : (s.schedule a).fc = s.fc := rfl
@[simp] theorem schedule_wa (s : State) (a : Agent) : (s.schedule a).wa = s.wa := rfl
@[simp] theorem schedule_blk (s : State) (a : Agent) : (s.schedule a).blk = s.blk := rfl
@[simp] theorem schedule_env (s : State) (a : Agent) : (s.schedule a).env = { s.env with sched := a :: s.env.sched } := rfl

@[simp] theorem regRead_cfg (i : BitVec 3) (s : State) : (regRead i s).cfg = s.cfg := rfl
@[simp] theorem regRead_phase (i : BitVec 3) (s : State) : (regRead i s).phase = s.phase := rfl
@[simp] theorem regRead_idx (i : BitVec 3) (s : State) : (regRead i s).idx = s.idx := rfl
@[simp] theorem regRead_tMark (i : BitVec 3) (s : State) : (regRead i s).tMark = s.tMark := rfl
@[simp] theorem regRead_flags (i : BitVec 3) (s : State) : (regRead i s).flags = s.flags := rfl
@[simp] theorem regRead_pub (i : BitVec 3) (s : State) : (regRead i s).pub = s.pub := rfl
@[simp] theorem regRead_fc (i : BitVec 3) (s : State) : (regRead i s).fc = s.fc := rfl
@[simp] theorem regRead_wa (i : BitVec 3) (s : State) : (regRead i s).wa = s.wa := rfl
@[simp] theorem regRead_blk (i : BitVec 3) (s : State) : (regRead i s).blk = s.blk := rfl
@[simp] theorem regRead_env (i : BitVec 3) (s : State) : (regRead i s).env = { s.env with lastRead := some (hostRead i s).1, draws := s.env.draws + (hostRead i s).2 } := rfl

@[simp] theorem resetBlock_cfg (s : State) : (resetBlock s).cfg = s.cfg := rfl
@[simp] theorem resetBlock_phase (s : State) : (resetBlock s).phase = State.reset.phase := rfl
@[simp] theorem resetBlock_idx (s : State) : (resetBlock s).idx = State.reset.idx := rfl
@[simp] theorem resetBlock_tMark (s : State) : (resetBlock s).tMark = State.reset.tMark := rfl
@[simp] theorem resetBlock_flags (s : State) : (resetBlock s).flags = State.reset.flags := rfl
@[simp] theorem resetBlock_pub (s : State) : (resetBlock s).pub = State.reset.pub := rfl
@[simp] theorem resetBlock_fc (s : State) : (resetBlock s).fc = State.reset.fc := rfl
@[simp] theorem resetBlock_wa (s : State) : (resetBlock s).wa = State.reset.wa := rfl
@[simp] theorem resetBlock_blk (s : State) : (resetBlock s).blk = State.reset.blk := rfl
@[simp] theorem resetBlock_env (s : State) : (resetBlock s).env = s.env := rfl

@[simp] theorem takeSample_cfg (c : Nat) (s : State) : (takeSample c s).cfg = s.cfg := rfl
@[simp] theorem takeSample_phase (c : Nat) (s : State) : (takeSample c s).phase = if decide (s.idx + 1 = s.cfg.n) then Phase.fcCritExit else s.phase := rfl
@[simp] theorem takeSample_idx (c : Nat) (s : State) : (takeSample c s).idx = if decide (s.idx + 1 = s.cfg.n) then s.idx else s.idx + 1 := rfl
@[simp] theorem takeSample_tMark (c : Nat) (s : State) : (takeSample c s).tMark = s.env.now := rfl
@[simp] theorem takeSample_flags (c : Nat) (s : State) : (takeSample c s).flags = s.flags := rfl
@[simp] theorem takeSample_pub (c : Nat) (s : State) : (takeSample c s).pub = s.pub := rfl
@[simp] theorem takeSample_fc (c : Nat) (s : State) : (takeSample c s).fc = s.fc := rfl
@[simp] theorem takeSample_wa (c : Nat) (s : State) : (takeSample c s).wa = s.wa := rfl
@[simp] theorem takeSample_blk (c : Nat) (s : State) : (takeSample c s).blk = ⟨s.blk.re.write s.idx (rawVolt s.cfg c), s.blk.im.write s.idx Num.zero⟩ := rfl
@[simp] theorem takeSample_env (c : Nat) (s : State) : (takeSample c s).env = s.env := rfl

@[simp] theorem tally1_cfg (c : Count10) (s : State) : (tally1 c s).cfg = s.cfg := rfl
@[simp] theorem tally1_phase (c : Count10) (s : State) : (tally1 c s).phase = if windowOver s.cfg.tPass1 s then Phase.waP1Finish else s.phase := rfl
@[simp] theorem tally1_idx (c : Count10) (s : State) : (tally1 c s).idx = s.idx := rfl
@[simp] theorem tally1_tMark (c : Count10) (s : State) : (tally1 c s).tMark = s.tMark := rfl
@[simp] theorem tally1_flags (c : Count10) (s : State) : (tally1 c s).flags = { s.flags with clipf := s.flags.clipf || clips s.cfg c } := rfl
@[simp] theorem tally1_pub (c : Count10) (s : State) : (tally1 c s).pub = s.pub := rfl
@[simp] theorem tally1_fc (c : Count10) (s : State) : (tally1 c s).fc = s.fc := rfl
@[simp] theorem tally1_wa (c : Count10) (s : State) : (tally1 c s).wa = { s.wa with minc := min s.wa.minc c, maxc := max s.wa.maxc c, sumv := Num.add s.wa.sumv (volt s.cfg c.val), cnt1 := s.wa.cnt1 + 1 } := rfl
@[simp] theorem tally1_blk (c : Count10) (s : State) : (tally1 c s).blk = s.blk := rfl
@[simp] theorem tally1_env (c : Count10) (s : State) : (tally1 c s).env = s.env := rfl

@[simp] theorem tally2_cfg (c : Count10) (s : State) : (tally2 c s).cfg = s.cfg := rfl
@[simp] theorem tally2_phase (c : Count10) (s : State) : (tally2 c s).phase = if windowOver s.cfg.tPass2 s then Phase.waP2Finish else s.phase := rfl
@[simp] theorem tally2_idx (c : Count10) (s : State) : (tally2 c s).idx = s.idx := rfl
@[simp] theorem tally2_tMark (c : Count10) (s : State) : (tally2 c s).tMark = s.tMark := rfl
@[simp] theorem tally2_flags (c : Count10) (s : State) : (tally2 c s).flags = s.flags := rfl
@[simp] theorem tally2_pub (c : Count10) (s : State) : (tally2 c s).pub = s.pub := rfl
@[simp] theorem tally2_fc (c : Count10) (s : State) : (tally2 c s).fc = s.fc := rfl
@[simp] theorem tally2_wa (c : Count10) (s : State) : (tally2 c s).wa = { s.wa with sumsq := Num.add s.wa.sumsq (sqDev s.cfg s.wa.dcoff c), cnt2 := s.wa.cnt2 + 1 } := rfl
@[simp] theorem tally2_blk (c : Count10) (s : State) : (tally2 c s).blk = s.blk := rfl
@[simp] theorem tally2_env (c : Count10) (s : State) : (tally2 c s).env = s.env := rfl

/-! Reading a sample, and choosing the next agent, change the environment alone. -/

@[simp] theorem convExchange_cfg (ch : BitVec 8) (s : State) : (convExchange ch s).2.cfg = s.cfg := by
  unfold convExchange; split <;> rfl
@[simp] theorem convExchange_phase (ch : BitVec 8) (s : State) : (convExchange ch s).2.phase = s.phase := by
  unfold convExchange; split <;> rfl
@[simp] theorem convExchange_idx (ch : BitVec 8) (s : State) : (convExchange ch s).2.idx = s.idx := by
  unfold convExchange; split <;> rfl
@[simp] theorem convExchange_tMark (ch : BitVec 8) (s : State) : (convExchange ch s).2.tMark = s.tMark := by
  unfold convExchange; split <;> rfl
@[simp] theorem convExchange_flags (ch : BitVec 8) (s : State) : (convExchange ch s).2.flags = s.flags := by
  unfold convExchange; split <;> rfl
@[simp] theorem convExchange_pub (ch : BitVec 8) (s : State) : (convExchange ch s).2.pub = s.pub := by
  unfold convExchange; split <;> rfl
@[simp] theorem convExchange_fc (ch : BitVec 8) (s : State) : (convExchange ch s).2.fc = s.fc := by
  unfold convExchange; split <;> rfl
@[simp] theorem convExchange_wa (ch : BitVec 8) (s : State) : (convExchange ch s).2.wa = s.wa := by
  unfold convExchange; split <;> rfl
@[simp] theorem convExchange_blk (ch : BitVec 8) (s : State) : (convExchange ch s).2.blk = s.blk := by
  unfold convExchange; split <;> rfl

@[simp] theorem convRead_cfg (ch : BitVec 8) (s : State) : (convRead ch s).2.cfg = s.cfg := by
  unfold convRead; split <;> simp
@[simp] theorem convRead_phase (ch : BitVec 8) (s : State) : (convRead ch s).2.phase = s.phase := by
  unfold convRead; split <;> simp
@[simp] theorem convRead_idx (ch : BitVec 8) (s : State) : (convRead ch s).2.idx = s.idx := by
  unfold convRead; split <;> simp
@[simp] theorem convRead_tMark (ch : BitVec 8) (s : State) : (convRead ch s).2.tMark = s.tMark := by
  unfold convRead; split <;> simp
@[simp] theorem convRead_flags (ch : BitVec 8) (s : State) : (convRead ch s).2.flags = s.flags := by
  unfold convRead; split <;> simp
@[simp] theorem convRead_pub (ch : BitVec 8) (s : State) : (convRead ch s).2.pub = s.pub := by
  unfold convRead; split <;> simp
@[simp] theorem convRead_fc (ch : BitVec 8) (s : State) : (convRead ch s).2.fc = s.fc := by
  unfold convRead; split <;> simp
@[simp] theorem convRead_wa (ch : BitVec 8) (s : State) : (convRead ch s).2.wa = s.wa := by
  unfold convRead; split <;> simp
@[simp] theorem convRead_blk (ch : BitVec 8) (s : State) : (convRead ch s).2.blk = s.blk := by
  unfold convRead; split <;> simp

@[simp] theorem convExchange_now (ch : BitVec 8) (s : State) : (convExchange ch s).2.env.now = s.env.now := by
  unfold convExchange; split <;> rfl
@[simp] theorem convExchange_sched (ch : BitVec 8) (s : State) : (convExchange ch s).2.env.sched = s.env.sched := by
  unfold convExchange; split <;> rfl
@[simp] theorem convExchange_script (ch : BitVec 8) (s : State) : (convExchange ch s).2.env.script = s.env.script := by
  unfold convExchange; split <;> rfl
@[simp] theorem convExchange_rawQ (ch : BitVec 8) (s : State) : (convExchange ch s).2.env.rawQ = s.env.rawQ := by
  unfold convExchange; split <;> rfl
@[simp] theorem convExchange_rawCalls (ch : BitVec 8) (s : State) : (convExchange ch s).2.env.rawCalls = s.env.rawCalls := by
  unfold convExchange; split <;> rfl
@[simp] theorem convExchange_draws (ch : BitVec 8) (s : State) : (convExchange ch s).2.env.draws = s.env.draws := by
  unfold convExchange; split <;> rfl
@[simp] theorem convExchange_lastRead (ch : BitVec 8) (s : State) : (convExchange ch s).2.env.lastRead = s.env.lastRead := by
  unfold convExchange; split <;> rfl
@[simp] theorem convRead_now (ch : BitVec 8) (s : State) : (convRead ch s).2.env.now = s.env.now := by
  unfold convRead; split <;> simp
@[simp] theorem convRead_sched (ch : BitVec 8) (s : State) : (convRead ch s).2.env.sched = s.env.sched := by
  unfold convRead; split <;> simp
@[simp] theorem convRead_script (ch : BitVec 8) (s : State) : (convRead ch s).2.env.script = s.env.script := by
  unfold convRead; split <;> simp
@[simp] theorem convRead_rawQ (ch : BitVec 8) (s : State) : (convRead ch s).2.env.rawQ = s.env.rawQ := by
  unfold convRead; split <;> simp
@[simp] theorem convRead_rawCalls (ch : BitVec 8) (s : State) : (convRead ch s).2.env.rawCalls = s.env.rawCalls := by
  unfold convRead; split <;> simp
@[simp] theorem convRead_draws (ch : BitVec 8) (s : State) : (convRead ch s).2.env.draws = s.env.draws := by
  unfold convRead; split <;> simp
@[simp] theorem convRead_lastRead (ch : BitVec 8) (s : State) : (convRead ch s).2.env.lastRead = s.env.lastRead := by
  unfold convRead; split <;> simp

@[simp] theorem nextAgent_cfg (s : State) : (nextAgent s).2.cfg = s.cfg := by
  unfold nextAgent; split <;> rfl
@[simp] theorem nextAgent_phase (s : State) : (nextAgent s).2.phase = s.phase := by
  unfold nextAgent; split <;> rfl
@[simp] theorem nextAgent_idx (s : State) : (nextAgent s).2.idx = s.idx := by
  unfold nextAgent; split <;> rfl
@[simp] theorem nextAgent_tMark (s : State) : (nextAgent s).2.tMark = s.tMark := by
  unfold nextAgent; split <;> rfl
@[simp] theorem nextAgent_flags (s : State) : (nextAgent s).2.flags = s.flags := by
  unfold nextAgent; split <;> rfl
@[simp] theorem nextAgent_pub (s : State) : (nextAgent s).2.pub = s.pub := by
  unfold nextAgent; split <;> rfl
@[simp] theorem nextAgent_fc (s : State) : (nextAgent s).2.fc = s.fc := by
  unfold nextAgent; split <;> rfl
@[simp] theorem nextAgent_wa (s : State) : (nextAgent s).2.wa = s.wa := by
  unfold nextAgent; split <;> rfl
@[simp] theorem nextAgent_blk (s : State) : (nextAgent s).2.blk = s.blk := by
  unfold nextAgent; split <;> rfl
@[simp] theorem nextAgent_now (s : State) : (nextAgent s).2.env.now = s.env.now := by
  unfold nextAgent; split <;> rfl
@[simp] theorem nextAgent_script (s : State) : (nextAgent s).2.env.script = s.env.script := by
  unfold nextAgent; split <;> rfl
@[simp] theorem nextAgent_rawQ (s : State) : (nextAgent s).2.env.rawQ = s.env.rawQ := by
  unfold nextAgent; split <;> rfl
@[simp] theorem nextAgent_convQ (s : State) : (nextAgent s).2.env.convQ = s.env.convQ := by
  unfold nextAgent; split <;> rfl
@[simp] theorem nextAgent_rawCalls (s : State) : (nextAgent s).2.env.rawCalls = s.env.rawCalls := by
  unfold nextAgent; split <;> rfl
@[simp] theorem nextAgent_convCalls (s : State) : (nextAgent s).2.env.convCalls = s.env.convCalls := by
  unfold nextAgent; split <;> rfl
@[simp] theorem nextAgent_lastRead (s : State) : (nextAgent s).2.env.lastRead = s.env.lastRead := by
  unfold nextAgent; split <;> rfl

end Sys2Proof.Machine
end

