-- ==== Sys2Proof/Laws/Operations.lean ====
section
/-! SUPPORT. One lemma for each shared operation that says everything it can do: acceptance, the two sample sources, sums,
the window, the peak scan, the calibration scan. The provers cite these and unfold none of them. -/

namespace Sys2Proof.Machine

/-! ## Commands -/

/-- Acceptance always answers a next state: the phase entered, or nothing changed (R120). -/
theorem accept_cases (ready : Bool) (p : BitVec 5) (s : State) :
    (s.phase = Phase.idle ∧ ready = true ∧ accept ready p s = .next (s.goto p)) ∨
    (¬ (s.phase = Phase.idle ∧ ready = true) ∧ accept ready p s = .next s) := by
  unfold accept
  by_cases h : s.phase = Phase.idle ∧ ready = true
  · exact .inl ⟨h.1, h.2, by rw [if_pos h]⟩
  · exact .inr ⟨h, by rw [if_neg h]⟩

/-! ## The sample sources -/

/-- The state after a call of RawRead. -/
def afterRaw (s : State) : State :=
  { s with env := { s.env with rawQ := s.env.rawQ.tail, rawCalls := s.env.rawCalls + 1 } }

/-- The state after a call of ConvExchange. -/
def afterConv (s : State) : State :=
  { s with env := { s.env with convQ := s.env.convQ.tail, convCalls := s.env.convCalls + 1 } }

/-- RawRead answers a count of the contract's range, or is refused for a listed answer outside it. -/
theorem rawRead_cases (s : State) :
    (∃ c, c ≤ s.cfg.fcMaxCount ∧ rawRead s = .ok (c, afterRaw s)) ∨
    (∃ c, c ∈ s.env.rawQ ∧ s.cfg.fcMaxCount < c ∧ rawRead s = .error (.rawAnswerOutOfRange c)) := by
  obtain ⟨cfg, _, _, _, _, _, _, _, _, ⟨_, _, _, q, _, _, _, _, _⟩⟩ := s
  cases q with
  | nil => exact .inl ⟨_, Nat.le_of_lt_succ (Nat.mod_lt _ (Nat.succ_pos _)), rfl⟩
  | cons c rest =>
    by_cases h : c ≤ cfg.fcMaxCount
    · exact .inl ⟨c, h, by simp [rawRead, afterRaw, h]⟩
    · exact .inr ⟨c, by simp, not_le.1 h, by simp [rawRead, h]⟩

/-- Channel 0 is a channel of the converter, and the exchange consumes one answer (R210). -/
theorem convRead_channel (s : State) : convRead waChannel s = ((convExchange waChannel s).1, afterConv s) := by
  have h : ¬ 7 < waChannel.toNat := by decide
  rw [convRead, if_neg h]
  obtain ⟨_, _, _, _, _, _, _, _, _, ⟨_, _, _, _, q, _, _, _, _⟩⟩ := s
  cases q <;> rfl

/-- The clock guard of FC_ACQ. -/
theorem acqEnabled_iff (s : State) : acqEnabled s = true ↔ s.idx = 0 ∨ s.cfg.tS ≤ s.env.now - s.tMark := by
  simp [acqEnabled]

theorem windowOver_iff (w : Nat) (s : State) : windowOver w s = true ↔ w ≤ s.env.now - s.tMark := by
  simp [windowOver]

theorem clips_iff (c : Params) (k : Count10) : clips c k = true ↔ k.val ≤ c.clipMargin ∨ convMax - c.clipMargin ≤ k.val := by
  simp [clips]

/-- Everything FC_ACQ can do. -/
theorem execFcAcq_cases (s : State) :
    (acqEnabled s = false ∧ execFcAcq s = .next s) ∨
    (acqEnabled s = true ∧ s.idx < s.cfg.n ∧
      ((∃ c, c ≤ s.cfg.fcMaxCount ∧ rawRead s = .ok (c, afterRaw s) ∧ execFcAcq s = .next (takeSample c (afterRaw s))) ∨
       (∃ c, c ∈ s.env.rawQ ∧ s.cfg.fcMaxCount < c ∧ execFcAcq s = .refused (.rawAnswerOutOfRange c)))) ∨
    (acqEnabled s = true ∧ s.cfg.n ≤ s.idx ∧ execFcAcq s = .fault (.noSuchElement s.idx)) := by
  unfold execFcAcq
  by_cases he : acqEnabled s = true
  · by_cases hi : s.idx < s.cfg.n
    · rcases rawRead_cases s with ⟨c, hc, h⟩ | ⟨c, hm, hc, h⟩
      · exact .inr (.inl ⟨he, hi, .inl ⟨c, hc, h, by simp [he, hi, h]⟩⟩)
      · exact .inr (.inl ⟨he, hi, .inr ⟨c, hm, hc, by simp [he, hi, h]⟩⟩)
    · exact .inr (.inr ⟨he, by omega, by simp [he, hi]⟩)
  · exact .inl ⟨by simpa using he, by simp [he]⟩

theorem execWaP1Sample_eq (s : State) :
    execWaP1Sample s = .next (tally1 (convExchange waChannel s).1 (afterConv s)) := by
  rw [execWaP1Sample, convRead_channel]

theorem execWaP2Sample_eq (s : State) :
    execWaP2Sample s = .next (tally2 (convExchange waChannel s).1 (afterConv s)) := by
  rw [execWaP2Sample, convRead_channel]

/-! ## The word on the host port -/

theorem numImage_reference {c : Params} (h : c.numerics = .reference) (v : Num) : numImage c v = Config.numEncode v.toReal := by
  rw [numImage, h]

theorem numImage_other {c : Params} {k : Nat} (h : c.numerics = .other k) (v : Num) :
    numImage c v = Config.numEncodeOther k (v.eval (Config.numerics k)) := by
  rw [numImage, h]

@[simp] theorem image_word (c : Params) (w : Word) : (ReadVal.word w).image c = w := rfl
@[simp] theorem image_num (c : Params) (v : Num) : (ReadVal.num v).image c = numImage c v := rfl

/-! ## Sums and the spectral functions -/

theorem sumTo_toReal (f : Nat → Num) (n : Nat) : (sumTo f n).toReal = ∑ i ∈ Finset.range n, (f i).toReal := by
  induction n with
  | zero => simp [sumTo]
  | succ k ih => rw [sumTo, Num.toReal_add, ih, Finset.sum_range_succ]

theorem sumTo_congr {f g : Nat → Num} {n : Nat} (h : ∀ i, i < n → f i = g i) : sumTo f n = sumTo g n := by
  induction n with
  | zero => rfl
  | succ k ih => rw [sumTo, sumTo, ih fun i hi => h i (by omega), h k (by omega)]

theorem hann_toReal {n : Nat} (h : n - 1 ≠ 0) (i : Nat) :
    (hann n i).toReal = 0.5 * (1 - Real.cos (2 * Real.pi * i / ((n - 1 : Nat) : ℝ))) := by
  rw [hann, Num.toReal_mul, Num.toReal_dec, Num.toReal_sub, Num.toReal_num, Num.toReal_cos _ h]
  norm_num

/-- The angle of the transform. -/
theorem twiddle_cos {n : Nat} (h : n ≠ 0) (k i : Nat) :
    (Num.cos (twiddle n k i)).toReal = Real.cos (2 * Real.pi * k * i / n) := by
  rw [twiddle, Num.toReal_cos _ h]
  simp [mul_assoc]

theorem twiddle_sin {n : Nat} (h : n ≠ 0) (k i : Nat) :
    (Num.sin (twiddle n k i)).toReal = Real.sin (2 * Real.pi * k * i / n) := by
  rw [twiddle, Num.toReal_sin _ h]
  simp [mul_assoc]

theorem transformRe_toReal {n : Nat} (h : n ≠ 0) (x y : Nat → Num) (k : Nat) :
    (transformRe n x y k).toReal = ∑ i ∈ Finset.range n,
      ((x i).toReal * Real.cos (2 * Real.pi * k * i / n) + (y i).toReal * Real.sin (2 * Real.pi * k * i / n)) := by
  rw [transformRe, sumTo_toReal]
  refine Finset.sum_congr rfl fun i _ => ?_
  rw [Num.toReal_add, Num.toReal_mul, Num.toReal_mul, twiddle_cos h, twiddle_sin h]

theorem transformIm_toReal {n : Nat} (h : n ≠ 0) (x y : Nat → Num) (k : Nat) :
    (transformIm n x y k).toReal = ∑ i ∈ Finset.range n,
      ((y i).toReal * Real.cos (2 * Real.pi * k * i / n) - (x i).toReal * Real.sin (2 * Real.pi * k * i / n)) := by
  rw [transformIm, sumTo_toReal]
  refine Finset.sum_congr rfl fun i _ => ?_
  rw [Num.toReal_sub, Num.toReal_mul, Num.toReal_mul, twiddle_cos h, twiddle_sin h]

theorem magnitude_toReal (a b : Nat → Num) (k : Nat) :
    (magnitude a b k).toReal = √((a k).toReal ^ 2 + (b k).toReal ^ 2) := by
  rw [magnitude, Num.toReal_sqrt]
  · rw [Num.toReal_add, Num.toReal_mul, Num.toReal_mul, sq, sq]
  · rw [Num.toReal_add, Num.toReal_mul, Num.toReal_mul]
    exact add_nonneg (mul_self_nonneg _) (mul_self_nonneg _)

/-- The scan answers the least of the greatest among the bin it starts from and the bins it visits. -/
theorem peakScan_spec {c : Params} (hr : c.numerics = .reference) (m : Nat → Num) (lo steps k kmax : Nat) (h1 : lo ≤ kmax) (h2 : kmax < k)
    (h3 : ∀ j, lo ≤ j → j < k → (m j).toReal ≤ (m kmax).toReal)
    (h4 : ∀ j, lo ≤ j → j < kmax → (m j).toReal < (m kmax).toReal) :
    (lo ≤ peakScan c m steps k kmax ∧ peakScan c m steps k kmax < k + steps) ∧
    (∀ j, lo ≤ j → j < k + steps → (m j).toReal ≤ (m (peakScan c m steps k kmax)).toReal) ∧
    (∀ j, lo ≤ j → j < peakScan c m steps k kmax → (m j).toReal < (m (peakScan c m steps k kmax)).toReal) := by
  induction steps generalizing k kmax with
  | zero => exact ⟨⟨h1, h2⟩, h3, h4⟩
  | succ n ih =>
    rw [peakScan]
    by_cases hlt : (m kmax).toReal < (m k).toReal
    · rw [if_pos ((Params.lt_iff hr _ _).2 hlt), show k + (n + 1) = k + 1 + n by omega]
      refine ih (k + 1) k (by omega) (by omega) ?_ ?_
      · intro j hj hjk
        rcases Nat.lt_succ_iff_lt_or_eq.1 hjk with h | rfl
        · exact (h3 j hj h).trans hlt.le
        · exact le_refl _
      · intro j hj hjk
        exact (h3 j hj hjk).trans_lt hlt
    · have hf : c.lt (m kmax) (m k) = false := by rw [Params.lt_eq_false_iff hr]; exact not_lt.1 hlt
      rw [if_neg (by simp [hf]), show k + (n + 1) = k + 1 + n by omega]
      refine ih (k + 1) kmax h1 (by omega) ?_ h4
      intro j hj hjk
      rcases Nat.lt_succ_iff_lt_or_eq.1 hjk with h | rfl
      · exact h3 j hj h
      · exact not_lt.1 hlt

/-- The scan answers a bin it starts from or visits, in any instance of NUMERICS. -/
theorem peakScan_range (c : Params) (m : Nat → Num) (lo steps k kmax : Nat) (h1 : lo ≤ kmax) (h2 : kmax < k) (h3 : lo ≤ k) :
    lo ≤ peakScan c m steps k kmax ∧ peakScan c m steps k kmax < k + steps := by
  induction steps generalizing k kmax with
  | zero => exact ⟨h1, h2⟩
  | succ n ih =>
    rw [peakScan, show k + (n + 1) = k + 1 + n by omega]
    split
    · exact ih (k + 1) k h3 (by omega) (by omega)
    · exact ih (k + 1) kmax h1 (by omega) (by omega)

/-- PeakBin is a searched bin, in any instance. -/
theorem peakBin_range (c : Params) (m : Nat → Num) (h : c.kMin ≤ c.kMax) : c.kMin ≤ peakBin c m ∧ peakBin c m ≤ c.kMax := by
  have := peakScan_range c m c.kMin (c.kMax - c.kMin) (c.kMin + 1) c.kMin (le_refl _) (by omega) (by omega)
  unfold peakBin
  omega

/-- PeakBin is the least bin of greatest value in K_MIN..K_MAX (R163). -/
theorem peakBin_spec {c : Params} (hr : c.numerics = .reference) (m : Nat → Num) (h : c.kMin ≤ c.kMax) :
    (∀ j, c.kMin ≤ j → j ≤ c.kMax → (m j).toReal ≤ (m (peakBin c m)).toReal) ∧
    (∀ j, c.kMin ≤ j → j < peakBin c m → (m j).toReal < (m (peakBin c m)).toReal) := by
  obtain ⟨⟨-, -⟩, d, e⟩ := peakScan_spec hr m c.kMin (c.kMax - c.kMin) (c.kMin + 1) c.kMin (le_refl _) (by omega)
    (fun j hj hjk => by rw [show j = c.kMin by omega]) (fun j hj hjk => by omega)
  exact ⟨fun j hj hjk => d j hj (by omega), e⟩

/-- The scan depends on the values of the searched bins alone. -/
theorem peakScan_congr (c : Params) {m m' : Nat → Num} {hi : Nat} (steps k kmax : Nat) (h : ∀ j, j < hi → m j = m' j)
    (hk : k + steps ≤ hi) (hm : kmax < hi) : peakScan c m steps k kmax = peakScan c m' steps k kmax := by
  induction steps generalizing k kmax with
  | zero => rfl
  | succ n ih =>
    rw [peakScan, peakScan, h kmax hm, h k (by omega)]
    refine ih (k + 1) _ (by omega) ?_
    split <;> omega

theorem peakBin_congr {c : Params} (hc : c.wf = true) {m m' : Nat → Num} (h : ∀ j, j < c.n → m j = m' j) :
    peakBin c m = peakBin c m' := by
  have h1 := Params.kMin_le hc
  have h2 := Params.kMax_lt hc
  exact peakScan_congr c _ _ _ h (by omega) (by omega)

theorem peakFreq_toReal {c : Params} (hc : c.wf = true) (m : Nat → Num) :
    (peakFreq c m).toReal = peakBin c m * c.fS.toReal / c.n := by
  have h : (c.n : ℝ) ≠ 0 := by have := Params.n_ge hc; positivity
  rw [peakFreq, Num.toReal_div _ _ (by simpa using h), Num.toReal_mul, Num.toReal_num, Num.toReal_num]

/-! ## Calibration -/

theorem inBracket_iff {c : Params} (hr : c.numerics = .reference) (lo hi : CalEntry) (raw : Num) :
    inBracket c lo hi raw = true ↔ lo.meas.toReal ≤ raw.toReal ∧ raw.toReal ≤ hi.meas.toReal := by
  simp [inBracket, Params.le_iff hr]

theorem interpolate_toReal (lo hi : CalEntry) (raw : Num) (h : lo.meas.toReal < hi.meas.toReal) :
    (interpolate lo hi raw).toReal = lo.tru.toReal +
      (raw.toReal - lo.meas.toReal) * (hi.tru.toReal - lo.tru.toReal) / (hi.meas.toReal - lo.meas.toReal) := by
  rw [interpolate, Num.toReal_add, Num.toReal_div _ _ (by rw [Num.toReal_sub]; linarith), Num.toReal_mul, Num.toReal_sub,
    Num.toReal_sub, Num.toReal_sub]

/-- The scan answers in the first bracket that contains raw, and none when none does. -/
theorem calScan_spec (c : Params) (l : List CalEntry) (raw : Num) :
    (∃ i, i + 1 < l.length ∧ inBracket c (l.getD i default) (l.getD (i + 1) default) raw = true ∧
      (∀ j, j < i → inBracket c (l.getD j default) (l.getD (j + 1) default) raw = false) ∧
      calScan c l raw = some (interpolate (l.getD i default) (l.getD (i + 1) default) raw)) ∨
    ((∀ j, j + 1 < l.length → inBracket c (l.getD j default) (l.getD (j + 1) default) raw = false) ∧ calScan c l raw = none) := by
  induction l with
  | nil => exact .inr ⟨fun j hj => by simp at hj, rfl⟩
  | cons a t ih =>
    cases t with
    | nil => exact .inr ⟨fun j hj => by simp at hj, rfl⟩
    | cons b rest =>
      by_cases hb : inBracket c a b raw = true
      · exact .inl ⟨0, by simp, by simpa using hb, fun j hj => by omega, by simp [calScan, hb]⟩
      · have hb' : inBracket c a b raw = false := by simpa using hb
        rcases ih with ⟨i, hi, hin, hbe, hs⟩ | ⟨hn, hs⟩
        · refine .inl ⟨i + 1, by simpa using hi, by simpa using hin, ?_, by simp [calScan, hb', hs]⟩
          intro j hj
          cases j with
          | zero => simpa using hb'
          | succ j => simpa using hbe j (by omega)
        · refine .inr ⟨?_, by simp [calScan, hb', hs]⟩
          intro j hj
          cases j with
          | zero => simpa using hb'
          | succ j => simpa using hn j (by simpa using hj)

/-! ## Waveform -/

theorem inBand_iff {c : Params} (hr : c.numerics = .reference) (lo hi cf : Num) :
    inBand c lo hi cf = true ↔ lo.toReal ≤ cf.toReal ∧ cf.toReal ≤ hi.toReal := by
  simp [inBand, Params.le_iff hr]

theorem sqDev_toReal (c : Params) (dc : Num) (k : Count10) :
    (sqDev c dc k).toReal = ((volt c k.val).toReal - dc.toReal) ^ 2 := by
  simp [sqDev, sq]

theorem clippedLow_iff (s : State) : clippedLow s = true ↔ s.flags.clipf = true ∧ s.wa.minc.val ≤ s.cfg.clipMargin := by
  simp [clippedLow]

/-- The root mean square of a sum of squares that is not negative, of at least one sample (R216). -/
theorem rmsOf_toReal (sumsq : Num) (k : Nat) (h : 0 ≤ sumsq.toReal) (hk : 0 < k) :
    (rmsOf sumsq k).toReal = √(sumsq.toReal / k) := by
  have hk' : (k : ℝ) ≠ 0 := by positivity
  have e : (Num.div sumsq (Num.num k)).toReal = sumsq.toReal / k := by
    rw [Num.toReal_div _ _ (by simpa using hk'), Num.toReal_num]
  rw [rmsOf, Num.toReal_sqrt _ (by rw [e]; positivity), e]

/-- The crest factor (R216): the division is by a number at least the noise floor. -/
theorem crestOf_toReal {c : Params} (h : c.wf = true) (hr : c.numerics = .reference) (vpp rms : Num) :
    (crestOf c vpp rms).toReal = if rms.toReal < c.noiseFloor.toReal then 0 else vpp.toReal / 2 / rms.toReal := by
  unfold crestOf
  by_cases hlt : rms.toReal < c.noiseFloor.toReal
  · rw [if_pos ((Params.lt_iff hr _ _).2 hlt), if_pos hlt, Num.toReal_zero]
  · have hf : c.lt rms c.noiseFloor = false := by rw [Params.lt_eq_false_iff hr]; exact not_lt.1 hlt
    have hpos := Params.floor_pos h hr
    have h2 : (Num.num 2).toReal = 2 := by simp
    rw [if_neg (by simp [hf]), if_neg hlt, Num.toReal_div _ _ (by linarith), Num.toReal_div _ _ (by rw [h2]; norm_num), h2]

theorem vppOf_nonneg {c : Params} (h : c.wf = true) (hr : c.numerics = .reference) (b : Bool) (lo hi : Count10) : 0 ≤ (vppOf c b lo hi).toReal := by
  unfold vppOf
  split
  · rw [Num.toReal_mul, Num.toReal_num]
    have := volt_nonneg h hr hi.val
    push_cast; linarith
  · exact volt_nonneg h hr _

/-! ## The host port and the schedule -/

/-- A write to CMD runs the command it names; every other write changes nothing (R60, R127). -/
theorem regWrite_cases (idx : BitVec 3) (w : Word) (s : State) :
    (∃ i, idx = 0#3 ∧ decodeCmd w = .ok i ∧ regWrite idx w s = exec i s) ∨ regWrite idx w s = .next s := by
  unfold regWrite
  by_cases h : idx = 0#3
  · cases hd : decodeCmd w with
    | ok i => exact .inl ⟨i, h, rfl, by simp [h]⟩
    | error e => exact .inr (by simp [h])
  · exact .inr (by simp [h])

theorem nextAgent_cons (s : State) (a : Agent) (rest : List Agent) (h : s.env.sched = a :: rest) :
    nextAgent s = (a, { s with env := { s.env with sched := rest } }) := by
  simp [nextAgent, h]

end Sys2Proof.Machine
end

