-- ==== Sys2Proof/Laws/PerInstr.lean ====
section
/-! SUPPORT. The statements made of every instruction. RoundTrip: the decoder gives back the instruction that the encoder
wrote (30_encoding.md R92, R95). -/

namespace Sys2Proof.Laws.RoundTrip

/-- Decoding the encoded instruction. -/
def Statement (i : Instr) : Prop := decode (encode i) = .ok i

theorem fcInit : Statement .fcInit := rfl
theorem fcUpdate : Statement .fcUpdate := rfl
theorem waInit : Statement .waInit := rfl
theorem waUpdate : Statement .waUpdate := rfl
theorem idle : Statement .idle := rfl
theorem fcInitRun : Statement .fcInitRun := rfl
theorem fcCritEnter : Statement .fcCritEnter := rfl
theorem fcAcq : Statement .fcAcq := rfl
theorem fcCritExit : Statement .fcCritExit := rfl
theorem spdWindow : Statement .spdWindow := rfl
theorem spdFft : Statement .spdFft := rfl
theorem spdMag : Statement .spdMag := rfl
theorem spdPeak : Statement .spdPeak := rfl
theorem calLookup : Statement .calLookup := rfl
theorem fcPublish : Statement .fcPublish := rfl
theorem waInitRun : Statement .waInitRun := rfl
theorem waP1Start : Statement .waP1Start := rfl
theorem waP1Sample : Statement .waP1Sample := rfl
theorem waP1Finish : Statement .waP1Finish := rfl
theorem waP2Sample : Statement .waP2Sample := rfl
theorem waP2Finish : Statement .waP2Finish := rfl
theorem waClassify : Statement .waClassify := rfl
theorem waPubVpp : Statement .waPubVpp := rfl
theorem waPubCls : Statement .waPubCls := rfl

end Sys2Proof.Laws.RoundTrip
end

