-- ==== Sys2Proof/Laws/Step.lean ====
section
/-! SUPPORT. Decoding, and what one step of each agent can do: the sequencer runs the meaning its phase names, the host runs
one of the four commands or leaves the block alone or resets it, the clock advances. -/

namespace Sys2Proof

/-- The command words that decode, and to what (R92). -/
theorem decodeCmd_ok {w : Word} {i : Instr} (h : decodeCmd w = .ok i) :
    (cmdOp w = 0x01#8 ∧ i = .fcInit) ∨ (cmdOp w = 0x02#8 ∧ i = .fcUpdate) ∨ (cmdOp w = 0x03#8 ∧ i = .waInit) ∨
    (cmdOp w = 0x04#8 ∧ i = .waUpdate) := by
  simp only [decodeCmd, commandTable, findCode] at h
  split at h
  · rename_i j hj
    cases h
    by_cases h1 : 0x01#8 = cmdOp w
    · simp only [if_pos h1, Option.some.injEq] at hj; exact .inl ⟨h1.symm, hj.symm⟩
    · by_cases h2 : 0x02#8 = cmdOp w
      · simp only [if_neg h1, if_pos h2, Option.some.injEq] at hj; exact .inr (.inl ⟨h2.symm, hj.symm⟩)
      · by_cases h3 : 0x03#8 = cmdOp w
        · simp only [if_neg h1, if_neg h2, if_pos h3, Option.some.injEq] at hj
          exact .inr (.inr (.inl ⟨h3.symm, hj.symm⟩))
        · by_cases h4 : 0x04#8 = cmdOp w
          · simp only [if_neg h1, if_neg h2, if_neg h3, if_pos h4, Option.some.injEq] at hj
            exact .inr (.inr (.inr ⟨h4.symm, hj.symm⟩))
          · simp [h1, h2, h3, h4] at hj
  · cases h

/-- A phase decodes when it is one of the twenty codes (R95). -/
theorem decodePhase_ok_iff (p : BitVec 5) : (∃ i, decodePhase p = .ok i) ↔ p ∈ Safety.phases := by
  have h : ∀ p : BitVec 5, (decodePhase p).toBool = decide (p ∈ Safety.phases) := by decide
  rw [← decide_eq_true_iff (p := p ∈ Safety.phases), ← h p]
  cases decodePhase p with
  | ok i => simp [Except.toBool]
  | error e => simp [Except.toBool]

namespace Machine

theorem seqStep_idle {s : State} (h : s.phase = Phase.idle) : seqStep s = execIdle s := by
  rw [seqStep, h]; rfl
theorem seqStep_fcInitRun {s : State} (h : s.phase = Phase.fcInitRun) : seqStep s = execFcInitRun s := by
  rw [seqStep, h]; rfl
theorem seqStep_fcCritEnter {s : State} (h : s.phase = Phase.fcCritEnter) : seqStep s = execFcCritEnter s := by
  rw [seqStep, h]; rfl
theorem seqStep_fcAcq {s : State} (h : s.phase = Phase.fcAcq) : seqStep s = execFcAcq s := by
  rw [seqStep, h]; rfl
theorem seqStep_fcCritExit {s : State} (h : s.phase = Phase.fcCritExit) : seqStep s = execFcCritExit s := by
  rw [seqStep, h]; rfl
theorem seqStep_spdWindow {s : State} (h : s.phase = Phase.spdWindow) : seqStep s = execSpdWindow s := by
  rw [seqStep, h]; rfl
theorem seqStep_spdFft {s : State} (h : s.phase = Phase.spdFft) : seqStep s = execSpdFft s := by
  rw [seqStep, h]; rfl
theorem seqStep_spdMag {s : State} (h : s.phase = Phase.spdMag) : seqStep s = execSpdMag s := by
  rw [seqStep, h]; rfl
theorem seqStep_spdPeak {s : State} (h : s.phase = Phase.spdPeak) : seqStep s = execSpdPeak s := by
  rw [seqStep, h]; rfl
theorem seqStep_calLookup {s : State} (h : s.phase = Phase.calLookup) : seqStep s = execCalLookup s := by
  rw [seqStep, h]; rfl
theorem seqStep_fcPublish {s : State} (h : s.phase = Phase.fcPublish) : seqStep s = execFcPublish s := by
  rw [seqStep, h]; rfl
theorem seqStep_waInitRun {s : State} (h : s.phase = Phase.waInitRun) : seqStep s = execWaInitRun s := by
  rw [seqStep, h]; rfl
theorem seqStep_waP1Start {s : State} (h : s.phase = Phase.waP1Start) : seqStep s = execWaP1Start s := by
  rw [seqStep, h]; rfl
theorem seqStep_waP1Sample {s : State} (h : s.phase = Phase.waP1Sample) : seqStep s = execWaP1Sample s := by
  rw [seqStep, h]; rfl
theorem seqStep_waP1Finish {s : State} (h : s.phase = Phase.waP1Finish) : seqStep s = execWaP1Finish s := by
  rw [seqStep, h]; rfl
theorem seqStep_waP2Sample {s : State} (h : s.phase = Phase.waP2Sample) : seqStep s = execWaP2Sample s := by
  rw [seqStep, h]; rfl
theorem seqStep_waP2Finish {s : State} (h : s.phase = Phase.waP2Finish) : seqStep s = execWaP2Finish s := by
  rw [seqStep, h]; rfl
theorem seqStep_waClassify {s : State} (h : s.phase = Phase.waClassify) : seqStep s = execWaClassify s := by
  rw [seqStep, h]; rfl
theorem seqStep_waPubVpp {s : State} (h : s.phase = Phase.waPubVpp) : seqStep s = execWaPubVpp s := by
  rw [seqStep, h]; rfl
theorem seqStep_waPubCls {s : State} (h : s.phase = Phase.waPubCls) : seqStep s = execWaPubCls s := by
  rw [seqStep, h]; rfl

/-- The sequencer at a reserved code (R102 (d)). -/
theorem seqStep_reserved {s : State} (h : s.phase ∉ Safety.phases) : seqStep s = .refused (.reservedPhase s.phase) := by
  unfold seqStep
  cases hd : decodePhase s.phase with
  | ok i => exact absurd ((decodePhase_ok_iff _).1 ⟨i, hd⟩) h
  | error e => rfl

/-- A command is accepted, and its unit's first phase entered, or nothing changes (R120). -/
theorem exec_command_cases {w : Word} {i : Instr} (hd : decodeCmd w = .ok i) (s : State) :
    (s.phase = Phase.idle ∧ exec i s = .next (s.goto Phase.fcInitRun)) ∨
    (s.phase = Phase.idle ∧ s.flags.fcReady = true ∧ exec i s = .next (s.goto Phase.fcCritEnter)) ∨
    (s.phase = Phase.idle ∧ exec i s = .next (s.goto Phase.waInitRun)) ∨
    (s.phase = Phase.idle ∧ s.flags.waReady = true ∧ exec i s = .next (s.goto Phase.waP1Start)) ∨
    exec i s = .next s := by
  rcases decodeCmd_ok hd with ⟨-, rfl⟩ | ⟨-, rfl⟩ | ⟨-, rfl⟩ | ⟨-, rfl⟩
  · rcases accept_cases true Phase.fcInitRun s with ⟨h, -, e⟩ | ⟨-, e⟩
    · exact .inl ⟨h, e⟩
    · exact .inr (.inr (.inr (.inr e)))
  · rcases accept_cases s.flags.fcReady Phase.fcCritEnter s with ⟨h, hr, e⟩ | ⟨-, e⟩
    · exact .inr (.inl ⟨h, hr, e⟩)
    · exact .inr (.inr (.inr (.inr e)))
  · rcases accept_cases true Phase.waInitRun s with ⟨h, -, e⟩ | ⟨-, e⟩
    · exact .inr (.inr (.inl ⟨h, e⟩))
    · exact .inr (.inr (.inr (.inr e)))
  · rcases accept_cases s.flags.waReady Phase.waP1Start s with ⟨h, hr, e⟩ | ⟨-, e⟩
    · exact .inr (.inr (.inr (.inl ⟨h, hr, e⟩)))
    · exact .inr (.inr (.inr (.inr e)))

/-- The same for any host write. -/
theorem regWrite_effect (idx : BitVec 3) (w : Word) (s : State) :
    (s.phase = Phase.idle ∧ regWrite idx w s = .next (s.goto Phase.fcInitRun)) ∨
    (s.phase = Phase.idle ∧ s.flags.fcReady = true ∧ regWrite idx w s = .next (s.goto Phase.fcCritEnter)) ∨
    (s.phase = Phase.idle ∧ regWrite idx w s = .next (s.goto Phase.waInitRun)) ∨
    (s.phase = Phase.idle ∧ s.flags.waReady = true ∧ regWrite idx w s = .next (s.goto Phase.waP1Start)) ∨
    regWrite idx w s = .next s := by
  rcases regWrite_cases idx w s with ⟨i, -, hd, e⟩ | e
  · rw [e]; exact exec_command_cases hd s
  · exact .inr (.inr (.inr (.inr e)))

/-- The state in which the host's statement takes effect: the script moved on. -/
def hostBase (s : State) : State := { s with env := { s.env with script := scriptAfter s } }

theorem hostStep_write {s : State} {idx : BitVec 3} {w : Word} (he : hostStep s = regWrite idx w (hostBase s)) :
    (hostStep s = .next s) ∨ (hostStep s = .next (hostBase s)) ∨ (∃ idx, hostStep s = .next (regRead idx (hostBase s))) ∨
    (s.env.script.head? = some .reset ∧ hostStep s = .next (resetBlock (hostBase s))) ∨
    (s.phase = Phase.idle ∧
      (hostStep s = .next ((hostBase s).goto Phase.fcInitRun) ∨
       (s.flags.fcReady = true ∧ hostStep s = .next ((hostBase s).goto Phase.fcCritEnter)) ∨
       hostStep s = .next ((hostBase s).goto Phase.waInitRun) ∨
       (s.flags.waReady = true ∧ hostStep s = .next ((hostBase s).goto Phase.waP1Start)))) := by
  rcases regWrite_effect idx w (hostBase s) with ⟨h, e⟩ | ⟨h, hr, e⟩ | ⟨h, e⟩ | ⟨h, hr, e⟩ | e
  · exact .inr (.inr (.inr (.inr ⟨h, .inl (he.trans e)⟩)))
  · exact .inr (.inr (.inr (.inr ⟨h, .inr (.inl ⟨hr, he.trans e⟩)⟩)))
  · exact .inr (.inr (.inr (.inr ⟨h, .inr (.inr (.inl (he.trans e)))⟩)))
  · exact .inr (.inr (.inr (.inr ⟨h, .inr (.inr (.inr ⟨hr, he.trans e⟩))⟩)))
  · exact .inr (.inl (he.trans e))

/-- Everything the host can do in one step: it always answers a next state, and that state is the block as it was, with
the script and perhaps the last read moved on, or a command accepted, or the block reset. -/
theorem hostStep_cases (s : State) :
    (hostStep s = .next s) ∨ (hostStep s = .next (hostBase s)) ∨ (∃ idx, hostStep s = .next (regRead idx (hostBase s))) ∨
    (s.env.script.head? = some .reset ∧ hostStep s = .next (resetBlock (hostBase s))) ∨
    (s.phase = Phase.idle ∧
      (hostStep s = .next ((hostBase s).goto Phase.fcInitRun) ∨
       (s.flags.fcReady = true ∧ hostStep s = .next ((hostBase s).goto Phase.fcCritEnter)) ∨
       hostStep s = .next ((hostBase s).goto Phase.waInitRun) ∨
       (s.flags.waReady = true ∧ hostStep s = .next ((hostBase s).goto Phase.waP1Start)))) := by
  cases hs : s.env.script with
  | nil => exact .inl (by simp [hostStep, hs])
  | cons a rest =>
    cases a with
    | write idx w => rw [← hs]; exact hostStep_write (idx := idx) (w := w) (by simp [hostStep, hostBase, hs])
    | read idx => exact .inr (.inr (.inl ⟨idx, by simp [hostStep, hostBase, hs]⟩))
    | waitIdle => exact .inr (.inr (.inl ⟨1#3, by simp [hostStep, hostBase, hs]⟩))
    | call c => rw [← hs]; exact hostStep_write (idx := 0#3) (w := c.word) (by simp [hostStep, hostBase, hs])
    | reset => exact .inr (.inr (.inr (.inl ⟨rfl, by simp [hostStep, hostBase, hs]⟩)))

/-- One step, by the agent that takes it. -/
theorem step_cases (s : State) :
    ((nextAgent s).1 = .seq ∧ step s = seqStep (nextAgent s).2) ∨
    (∃ d, (nextAgent s).1 = .clk d ∧ step s = .next (tick d (nextAgent s).2)) ∨
    ((nextAgent s).1 = .host ∧ step s = hostStep (nextAgent s).2) := by
  unfold step
  cases h : (nextAgent s).1 with
  | seq => exact .inl ⟨rfl, rfl⟩
  | clk d => exact .inr (.inl ⟨d, rfl, rfl⟩)
  | host => exact .inr (.inr ⟨rfl, rfl⟩)

end Machine
end Sys2Proof
end

