-- ==== Sys2Proof/Tests/Slice0.lean ====
section
/-! SUPPORT. The tests: ill-formed parameters refused, the words of the opcode tables decoded, the vectors of
95_test_vectors.md (named H, Q, S, V, A, W, K there) on single steps, and for every obligation with hypotheses a state that
meets them all. Expected results are the spec's. -/

namespace Sys2Proof.Tests
open Machine Safety

set_option Elab.async false

/-! ## Helpers -/

/-- The step answers a next state with the property. -/
def after (o : Out) (p : State → Bool) : Bool :=
  match o with
  | .next t => p t
  | _ => false

/-- The state after the step, or the state before where it stops. -/
def nextOr (s : State) (o : Out) : State :=
  match o with
  | .next t => t
  | _ => s

theorem after_true {o : Out} {p : State → Bool} (h : after o p = true) : ∃ t, o = .next t ∧ p t = true := by
  cases o with
  | next t => exact ⟨t, rfl, h⟩
  | fault r => cases h
  | refused r => cases h

/-- A reset block of the test configuration, both units ready, at the given phase. -/
def ready (p : BitVec 5) : State :=
  { State.reset with phase := p, flags := { State.reset.flags with fcReady := true, waReady := true } }

/-- The same with the sequencer next. -/
def seqAt (p : BitVec 5) : State := (ready p).schedule .seq

/-- The same with the host next, at the given statement. -/
def hostAt (p : BitVec 5) (st : HostStmt) : State :=
  ({ ready p with env := { State.reset.env with script := [st] } }).schedule .host

/-- An acquisition at sample idx: mark, clock and listed answers. -/
def acq (idx mark now : Nat) (raw : List Nat) : State :=
  { ready Phase.fcAcq with idx := idx, tMark := mark, env := { State.reset.env with now := now, rawQ := raw } }

/-- A waveform pass: phase, mark, clock and listed answers. -/
def pass (p : BitVec 5) (mark now : Nat) (conv : List Count10) : State :=
  { ready p with tMark := mark, env := { State.reset.env with now := now, convQ := conv } }

/-- v agrees with p / 10^7 to seven places, in the reference instance. -/
def near (v : Num) (p : Int) : Bool :=
  Params.test.le (Num.dec (p - 1) 10000000) v && Params.test.le v (Num.dec (p + 1) 10000000)

/-- v is worth the rational q in the reference instance. -/
def worth (v : Num) (q : ℚ) : Bool := v.toExact == .rat q

/-- A block holding the given numbers. -/
def blockOf (p : BitVec 5) (re im : List Num) : State :=
  { ready p with blk := ⟨NumMem.fill 8 (re.getD · Num.zero), NumMem.fill 8 (im.getD · Num.zero)⟩ }

/-! ## Well-formedness: the test parameters pass, each check refuses an ill-formed set -/

theorem test_wf_accepts : Params.test.wf = true := by decide +kernel
theorem test_wf_size_power : ({ Params.test with n := 12 } : Params).wf = false := by decide +kernel
theorem test_wf_size_least : ({ Params.test with n := 4 } : Params).wf = false := by decide +kernel
theorem test_wf_interval : ({ Params.test with tS := 0 } : Params).wf = false := by decide +kernel
theorem test_wf_maxcount : ({ Params.test with fcMaxCount := 0 } : Params).wf = false := by decide +kernel
theorem test_wf_fullscale : ({ Params.test with fcVfs := Num.zero } : Params).wf = false := by decide +kernel
theorem test_wf_range_order : ({ Params.test with kMin := 4 } : Params).wf = false := by decide +kernel
theorem test_wf_range_top : ({ Params.test with kMax := 8 } : Params).wf = false := by decide +kernel
theorem test_wf_table_short : ({ Params.test with cal := [⟨Num.num 1, Num.num 1⟩] } : Params).wf = false := by decide +kernel
theorem test_wf_table_rising :
    ({ Params.test with cal := [⟨Num.num 2, Num.num 1⟩, ⟨Num.num 2, Num.num 1⟩] } : Params).wf = false := by decide +kernel
theorem test_wf_table_above_zero :
    ({ Params.test with cal := [⟨Num.zero, Num.num 1⟩, ⟨Num.num 2, Num.num 1⟩] } : Params).wf = false := by decide +kernel
theorem test_wf_reference : ({ Params.test with vRef := Num.zero } : Params).wf = false := by decide +kernel
theorem test_wf_scale : ({ Params.test with maxCountScale := 0 } : Params).wf = false := by decide +kernel
theorem test_wf_margin : ({ Params.test with clipMargin := 512 } : Params).wf = false := by decide +kernel
theorem test_wf_margin_largest : ({ Params.test with clipMargin := 511 } : Params).wf = true := by decide +kernel
theorem test_wf_floor : ({ Params.test with noiseFloor := Num.zero } : Params).wf = false := by decide +kernel
theorem test_wf_window1 : ({ Params.test with tPass1 := 0 } : Params).wf = false := by decide +kernel
theorem test_wf_window2 : ({ Params.test with tPass2 := 0 } : Params).wf = false := by decide +kernel

/-! ## Decoding: every word from the tables of R92 and R95, written out -/

theorem test_decode_commands :
    (decodeTableWord 32 0x00000001, decodeTableWord 32 0x00000002, decodeTableWord 32 0x00000003,
      decodeTableWord 32 0x00000004) = (some .fcInit, some .fcUpdate, some .waInit, some .waUpdate) := by decide
theorem test_decode_command_ignores_high_bits : decodeTableWord 32 0xFFFFFF02 = some .fcUpdate := by decide
theorem test_decode_command_reserved :
    (decodeTableWord 32 0x00000000, decodeTableWord 32 0x00000005, decodeTableWord 32 0x000000FF) = (none, none, none) := by
  decide
theorem test_decode_init_phases :
    (decodeTableWord 8 0x00, decodeTableWord 8 0x01, decodeTableWord 8 0x10) =
      (some .idle, some .fcInitRun, some .waInitRun) := by decide
theorem test_decode_acquisition :
    (decodeTableWord 8 0x02, decodeTableWord 8 0x03, decodeTableWord 8 0x04) =
      (some .fcCritEnter, some .fcAcq, some .fcCritExit) := by decide
theorem test_decode_spectral :
    (decodeTableWord 8 0x05, decodeTableWord 8 0x06, decodeTableWord 8 0x07, decodeTableWord 8 0x08) =
      (some .spdWindow, some .spdFft, some .spdMag, some .spdPeak) := by decide
theorem test_decode_calibration :
    (decodeTableWord 8 0x09, decodeTableWord 8 0x0A) = (some .calLookup, some .fcPublish) := by decide
theorem test_decode_statistics :
    (decodeTableWord 8 0x11, decodeTableWord 8 0x12, decodeTableWord 8 0x13, decodeTableWord 8 0x14, decodeTableWord 8 0x15) =
      (some .waP1Start, some .waP1Sample, some .waP1Finish, some .waP2Sample, some .waP2Finish) := by decide
theorem test_decode_classifier :
    (decodeTableWord 8 0x16, decodeTableWord 8 0x17, decodeTableWord 8 0x18) =
      (some .waClassify, some .waPubVpp, some .waPubCls) := by decide
theorem test_decode_phase_reserved :
    (decodeTableWord 8 0x0B, decodeTableWord 8 0x0F, decodeTableWord 8 0x19, decodeTableWord 8 0x1F, decodeTableWord 8 0x20) =
      (none, none, none, none, none) := by decide

/-! ## Host commands and the host port (H) -/

theorem test_H1_fc_init : after (regWrite 0#3 0x00000001#32 State.reset) (fun t => t.phase == 0x01#5 && statusWord t == 0x01#32) = true := by
  decide
theorem test_H2_not_ready : after (regWrite 0#3 0x00000002#32 State.reset) (· == State.reset) = true := by decide +kernel
theorem test_H3_wa_init : after (regWrite 0#3 0x00000003#32 State.reset) (fun t => t.phase == 0x10#5 && statusWord t == 0x03#32) = true := by
  decide
theorem test_H6_wa_update : after (regWrite 0#3 0x00000004#32 (ready 0)) (fun t => t.phase == 0x11#5 && statusWord t == 0x1B#32) = true := by
  decide
theorem test_H7_high_bits : after (regWrite 0#3 0xFFFFFF02#32 (ready 0)) (fun t => t.phase == 0x02#5 && statusWord t == 0x19#32) = true := by
  decide
theorem test_H9_reserved : after (regWrite 0#3 0x00000005#32 (ready 0)) (fun t => t.phase == 0x00#5 && statusWord t == 0x18#32) = true := by
  decide
theorem test_H11_busy :
    let s := { ready 0x03 with flags := { (ready 0x03).flags with crit := true } }
    after (regWrite 0#3 0x00000004#32 s) (fun t => t.phase == 0x03#5 && statusWord t == 0x1D#32) = true := by decide
theorem test_H12_busy : after (regWrite 0#3 0x00000001#32 (ready 0x14)) (fun t => t.phase == 0x14#5 && statusWord t == 0x1B#32) = true := by
  decide
theorem test_H14_write_elsewhere : after (regWrite 3#3 0x12345678#32 (ready 0)) (· == ready 0) = true := by decide +kernel
theorem test_H15_read_reserved : ((hostRead 0#3 (ready 0)).1, (hostRead 5#3 (ready 0)).1, (hostRead 7#3 (ready 0)).1) =
    (.word 0#32, .word 0#32, .word 0#32) := by decide
theorem test_init_run : after (exec .fcInitRun State.reset) (fun t => statusWord t == 0x08#32) = true := by decide
theorem test_wa_init_run : after (exec .waInitRun State.reset) (fun t => statusWord t == 0x10#32) = true := by decide
theorem test_idle_stays : after (exec .idle (ready 0)) (· == ready 0) = true := by decide +kernel

/-! ## Acquisition (Q) -/

theorem test_Q10_enter : after (exec .fcCritEnter (ready 0x02)) (fun t => t.flags.crit && t.idx == 0 && t.phase == 0x03#5 && statusWord t == 0x1D#32) = true := by
  decide
theorem test_Q11_first_sample : after (exec .fcAcq (acq 0 7777 1000 [2]))
    (fun t => worth (t.reAt 0) 2 && worth (t.imAt 0) 0 && t.tMark == 1000 && t.idx == 1 && t.phase == 0x03#5) = true := by
  decide +kernel
theorem test_Q12_waits : after (exec .fcAcq (acq 1 1000 1124 [4])) (· == acq 1 1000 1124 [4]) = true := by decide +kernel
theorem test_Q14_late : after (exec .fcAcq (acq 2 1125 1260 [2])) (fun t => t.tMark == 1260 && t.idx == 3) = true := by
  decide +kernel
theorem test_Q15_last : after (exec .fcAcq (acq 7 1760 1885 [0]))
    (fun t => worth (t.reAt 7) 0 && t.tMark == 1885 && t.idx == 7 && t.phase == 0x04#5) = true := by decide +kernel
theorem test_Q16_exit : after (exec .fcCritExit (ready 0x04)) (fun t => !t.flags.crit && t.phase == 0x05#5) = true := by decide
theorem test_Q17_full_scale : worth (rawVolt { Params.test with fcMaxCount := 4095, fcVfs := Num.dec 33 10 } 4095) (33 / 10) = true := by
  decide +kernel

/-! ## Spectral peak detector (V1, V5) -/

theorem test_V1_window : after (exec .spdWindow (blockOf 0x05 [.lit 2, .lit 4, .lit 2, .lit 0, .lit 2, .lit 4, .lit 2, .lit 0] []))
    (fun t => worth (t.reAt 0) 0 && near (t.reAt 1) 7530204 && near (t.reAt 2) 12225209 && worth (t.reAt 7) 0) = true := by
  decide +kernel
/-- The impulse at sample 1: every magnitude of its transform is 1, the imaginary part of bin 2 is -1. -/
theorem test_fft_impulse : after (exec .spdFft (blockOf 0x06 [.lit 0, .lit 1] []))
    (fun t => worth (t.reAt 0) 1 && near (t.reAt 1) 7071068 && near (t.imAt 1) (-7071068) && near (t.reAt 2) 0 && near (t.imAt 2) (-10000000)) = true := by
  decide +kernel
/-- An imaginary impulse at sample 1: b[0] = 1, a[2] = sin(pi/2) = 1. -/
theorem test_fft_imaginary : after (exec .spdFft (blockOf 0x06 [] [.lit 0, .lit 1]))
    (fun t => worth (t.imAt 0) 1 && near (t.reAt 2) 10000000 && near (t.imAt 2) 0) = true := by
  decide +kernel
theorem test_mag : after (exec .spdMag (blockOf 0x07 [.lit 3, .lit (-5)] [.lit 4, .lit 12]))
    (fun t => worth (t.reAt 0) 5 && worth (t.reAt 1) 13 && worth (t.imAt 1) 12) = true := by decide +kernel
theorem test_V1_peak : after (exec .spdPeak (blockOf 0x08 [.lit 7, .lit 3, Num.dec 3212284 1000000, Num.dec 2160547 1000000, .lit 0] []))
    (fun t => worth t.fc.rawFreq 2000 && t.phase == 0x09#5) = true := by decide +kernel
theorem test_V5_tie_keeps_lower : after (exec .spdPeak (blockOf 0x08 [.lit 1, .lit 1, .lit 1, .lit 1] []))
    (fun t => worth t.fc.rawFreq 2000) = true := by decide +kernel
theorem test_V2_upper_bin : after (exec .spdPeak (blockOf 0x08 [.lit 9, .lit 9, Num.dec 18013419 10000000, Num.dec 31798518 10000000] []))
    (fun t => worth t.fc.rawFreq 3000) = true := by decide +kernel

/-- R12: 2 × π × num(4) × num(5) / num(8) is evaluated left to right, seen in an instance whose product writes a digit and
whose quotient writes two. -/
theorem test_R12_angle_order :
    let F : Numerics Nat := { (default : Numerics Nat) with mul := fun x y => 10 * x + y, div := fun x y => 100 * x + y, num := id, pi := 3 }
    (twiddle 8 4 5).eval F = 234508 := by decide

/-! ## Calibration (A) -/

theorem test_A1 : worth (calibrate Params.test (.lit 500)) (60600 / 119) = true := by decide +kernel
theorem test_A3_lower_bracket : worth (calibrate Params.test (Num.dec 7768 10)) 800 = true := by decide +kernel
theorem test_A5 : worth (calibrate Params.test (Num.dec 7769 10)) (1497775 / 1872) = true := by decide +kernel
theorem test_A9_upper_end : worth (calibrate Params.test (.lit 2100)) 2250 = true := by decide +kernel
theorem test_A13_negative : worth (calibrate Params.test (.lit (-5))) (-5) = true := by decide +kernel
theorem test_lookup_found : after (exec .calLookup { ready 0x09 with fc := ⟨.lit 2000, .lit 0⟩ })
    (fun t => worth t.fc.corrT 2050 && t.flags.found && t.phase == 0x0A#5) = true := by decide +kernel
theorem test_lookup_outside : after (exec .calLookup { ready 0x09 with fc := ⟨.lit 3000, .lit 0⟩, flags := { State.reset.flags with found := true } })
    (fun t => worth t.fc.corrT 3000 && !t.flags.found) = true := by decide +kernel
theorem test_publish : after (exec .fcPublish { State.reset with phase := 0x0A, fc := ⟨.lit 2000, .lit 2050⟩, flags := { State.reset.flags with fcReady := true } })
    (fun t => worth t.pub.corrFreq 2050 && statusWord t == 0x28#32) = true := by decide +kernel

/-! ## Waveform (S, W) -/

theorem test_S1_start : after (exec .waP1Start (pass 0x11 0 7000 []))
    (fun t => t.wa.minc == 1023 && t.wa.maxc == 0 && worth t.wa.sumv 0 && t.wa.cnt1 == 0 && !t.flags.clipf && t.tMark == 7000 && t.phase == 0x12#5) = true := by
  decide +kernel
theorem test_S3_sample :
    let s := pass 0x12 7000 7300 [912]
    after (exec .waP1Sample { s with wa := { s.wa with minc := 512, maxc := 512, sumv := .lit (256 / 155), cnt1 := 1 } })
      (fun t => t.wa.minc == 512 && t.wa.maxc == 912 && worth t.wa.sumv (712 / 155) && t.wa.cnt1 == 2 && !t.flags.clipf && t.phase == 0x12#5) = true := by
  decide +kernel
theorem test_S4_window_after_sample : after (exec .waP1Sample (pass 0x12 7000 8000 [112])) (fun t => t.wa.cnt1 == 1 && t.phase == 0x13#5) = true := by
  decide +kernel
theorem test_S5_S6_S7_clipping :
    (clips Params.test 0, clips Params.test 5, clips Params.test 6, clips Params.test 1017, clips Params.test 1018, clips Params.test 1023) =
      (true, true, false, false, true, true) := by decide
theorem test_W1_finish_clipped :
    let s := pass 0x13 0 1050 []
    after (exec .waP1Finish { s with flags := { s.flags with clipf := true }, wa := { s.wa with minc := 0, maxc := 1023, sumv := .lit (33 / 5), cnt1 := 4 } })
      (fun t => worth t.wa.avgv (33 / 20) && worth t.wa.vppT (33 / 5) && worth t.wa.dcoff (33 / 10) && t.tMark == 1050 && t.phase == 0x14#5) = true := by
  decide +kernel
theorem test_W6_finish_high_rail :
    let s := pass 0x13 0 1050 []
    after (exec .waP1Finish { s with flags := { s.flags with clipf := true }, wa := { s.wa with minc := 600, maxc := 1023, sumv := .lit (1623 / 155), cnt1 := 4 } })
      (fun t => worth t.wa.vppT (423 / 310) && worth t.wa.dcoff (1623 / 620)) = true := by decide +kernel
theorem test_S9_deviation :
    let s := pass 0x14 0 10 [112]
    after (exec .waP2Sample { s with wa := { s.wa with dcoff := .lit (256 / 155) } })
      (fun t => worth t.wa.sumsq (1600 / 961) && t.wa.cnt2 == 1 && t.phase == 0x14#5) = true := by decide +kernel
theorem test_W2_crest :
    let s := pass 0x15 0 10 []
    after (exec .waP2Finish { s with wa := { s.wa with vppT := .lit (80 / 31), sumsq := .lit (3200 / 961), cnt2 := 4 } })
      (fun t => near t.wa.rms 9123958 && near t.wa.crest 14142136 && t.phase == 0x16#5) = true := by decide +kernel
theorem test_rms_at_floor :
    let s := pass 0x15 0 10 []
    after (exec .waP2Finish { s with wa := { s.wa with vppT := .lit 1, sumsq := .lit (1 / 10000), cnt2 := 1 } })
      (fun t => worth t.wa.crest 50) = true := by decide +kernel
theorem test_Q1_Q2_channel : ((convRead 8 (ready 0)).1, (convRead 255 (ready 0)).1, (convRead 8 (ready 0)).2 == ready 0) = (0, 0, true) := by
  decide +kernel
theorem test_W8_envelope : worth (waResult Params.test [5, 1000, 5, 1000] [5, 1000, 5, 1000]).1 (200 / 31) = true := by decide +kernel

/-! ## Classifier (K) -/

theorem test_K1_K4 : [Num.dec 130 100, Num.dec 145 100, Num.dec 1299999 1000000, Num.dec 1450001 1000000].map (classify Params.test) =
    [.sine, .sine, .unrecognized, .unrecognized] := by decide +kernel
theorem test_K5_K12 :
    [Num.dec 95 100, Num.dec 105 100, Num.dec 949999 1000000, Num.dec 1050001 1000000, Num.dec 150 100, Num.dec 170 100,
      Num.dec 1499999 1000000, Num.dec 1700001 1000000].map (classify Params.test) =
    [.square, .square, .unrecognized, .unrecognized, .triangle, .triangle, .unrecognized, .unrecognized] := by decide +kernel
theorem test_K16_K17 : [Num.sqrt (Num.num 2), .lit 1, Num.sqrt (Num.num 3), .lit (-1)].map (classify Params.test) =
    [.sine, .square, .unrecognized, .unrecognized] := by decide +kernel
theorem test_classify_step : after (exec .waClassify { ready 0x16 with wa := { State.reset.wa with crest := Num.sqrt (Num.num 2) } })
    (fun t => t.wa.clsT == .sine && t.phase == 0x17#5) = true := by decide +kernel
theorem test_pub_vpp : after (exec .waPubVpp { ready 0x17 with wa := { State.reset.wa with vppT := .lit (80 / 31) } })
    (fun t => worth t.pub.vpp (80 / 31) && t.phase == 0x18#5 && statusWord t == 0x1B#32) = true := by decide +kernel
theorem test_pub_cls : after (exec .waPubCls { ready 0x18 with wa := { State.reset.wa with clsT := .sine } })
    (fun t => t.pub.wclass == .sine && statusWord t == 0x58#32) = true := by decide +kernel

/-! ## The step -/

theorem test_step_reset_mid_run : after (step (hostAt 0x03 .reset)) (fun t => t.phase == 0x00#5 && statusWord t == 0#32) = true := by
  decide +kernel
theorem test_placed_phase : after (step (State.reset.withFetchWord 8 0x02)) (fun t => t.phase == 0x03#5 && t.flags.crit) = true := by
  decide +kernel
theorem test_placed_command : after (step (State.reset.withFetchWord 32 0x03)) (fun t => t.phase == 0x10#5) = true := by
  decide +kernel

/-! ## Witnesses: for every obligation with hypotheses, a state or operands that meet them all, each clause at a boundary -/

theorem witness_CommandCodesByLowByte : ∀ i, decodeCmd 0x00000005#32 ≠ .ok i := by
  intro i h
  have e : decodeCmd 0x00000005#32 = .error (.reservedCommand 0x05#8) := rfl
  rw [e] at h; cases h

theorem witness_PhaseCodesOfTheTable : ∀ i, decodePhase 0x0B#5 ≠ .ok i := by
  intro i h
  have e : decodePhase 0x0B#5 = .error (.reservedPhase 0x0B#5) := rfl
  rw [e] at h; cases h

theorem witness_EncodeInvertsDecode : decode (.phase5 0x18#5) = .ok .waPubCls ∧ decode (.cmdw 0xFFFFFF02#32) = .ok .fcUpdate ∧
    decode (.cmdw 0x00000002#32) = .ok .fcUpdate := ⟨rfl, rfl, rfl⟩

theorem witness_AcceptedCommandsEnterTheirUnit :
    (ready 0x00).phase = 0x00#5 ∧ (ready 0x00).flags.fcReady = true ∧ (ready 0x00).flags.waReady = true := by decide

theorem witness_DroppedCommandsChangeNothing :
    (ready 0x18).phase ≠ 0x00#5 ∧ State.reset.flags.fcReady = false ∧ State.reset.flags.waReady = false ∧
    (0xFFFFFF00#32).extractLsb' 0 8 = 0x00#8 ∧ 5 ≤ ((0x00000005#32).extractLsb' 0 8).toNat ∧
    5 ≤ ((0x000000FF#32).extractLsb' 0 8).toNat := by decide

/-- Both units have published. -/
def valid : State := { ready 0x00 with flags := { (ready 0x00).flags with fcValid := true, waValid := true } }

theorem witness_HostReadsReturnTheRegisters : valid.flags.fcValid = true ∧ valid.flags.waValid = true ∧
    5 ≤ (5#3).toNat ∧ 5 ≤ (7#3).toNat := by decide

theorem witness_HostPortTouchesNoBlockState : (1#3 ≠ 0#3) ∧ (7#3 ≠ 0#3) := by decide

theorem witness_NewVppWithOldClass : valid.flags.waValid = true := rfl

/-- The first sample, whatever the mark; the last sample at the very end of its interval with the largest count; a sample of
which the state lists no answer. -/
theorem witness_TimedSampleTaken :
    ∀ s ∈ [acq 0 7777 1000 [2], acq 7 1760 1885 [4], acq 1 1000 1125 []],
      s.cfg.wf = true ∧ Memory.wf s.cfg.n s.blk.re = true ∧ Memory.wf s.cfg.n s.blk.im = true ∧ s.idx < s.cfg.n ∧
      (s.idx = 0 ∨ s.tMark + s.cfg.tS ≤ s.env.now) ∧ ∀ c ∈ s.env.rawQ, c ≤ s.cfg.fcMaxCount := by decide +kernel

theorem witness_SampleWaitsForTheInterval :
    let s := acq 1 1000 1124 []
    s.cfg.wf = true ∧ 0 < s.idx ∧ s.env.now < s.tMark + s.cfg.tS := by decide +kernel

theorem witness_AcquisitionStopsOutsideItsContract :
    (let s := acq 8 1000 1125 [2]
     s.cfg.wf = true ∧ (s.idx = 0 ∨ s.tMark + s.cfg.tS ≤ s.env.now) ∧ s.cfg.n ≤ s.idx) ∧
    (let s := acq 7 1000 1125 [5]
     s.cfg.wf = true ∧ (s.idx = 0 ∨ s.tMark + s.cfg.tS ≤ s.env.now) ∧ s.idx < s.cfg.n ∧ s.env.rawQ = [5] ∧ s.cfg.fcMaxCount < 5) := by
  decide +kernel

/-- A build, and a state of it: all the hypotheses of WindowWeighsEachSample, PeakIsTheLeastGreatestBin, HannWindowShape,
LookupTakesTheFirstBracket, PassOneSample and PassTwoSample. -/
theorem witness_build : State.reset.cfg.wf = true := by decide +kernel

theorem witness_RealSpectrumIsMirrored : ∃ s t u : State, s.cfg.wf = true ∧ (∀ i, i < s.cfg.n → (s.imAt i).toReal = 0) ∧
    exec .spdFft s = .next t ∧ exec .spdMag t = .next u :=
  ⟨State.reset, _, _, witness_build, fun i _ => by simp [State.imAt, State.reset], rfl, rfl⟩

/-- The inner samples doubled, the end samples not. -/
theorem witness_PeakIgnoresScaleAndEndSamples : ∃ (c : Params) (r : ℝ) (x x' : Nat → Num), c.wf = true ∧ c.numerics = .reference ∧ 0 < r ∧
    (∀ i, 0 < i → i < c.n - 1 → (x' i).toReal = r * (x i).toReal) ∧ (x' 0).toReal ≠ r * (x 0).toReal :=
  ⟨State.reset.cfg, 2, fun i => Num.num (i + 1), fun i => if i = 0 then Num.num 7 else Num.num (2 * (i + 1)), witness_build,
    rfl, by norm_num, fun i h _ => by simp [show i ≠ 0 by omega], by norm_num⟩

/-- The test configuration has the reference instance. -/
theorem test_reference : Params.test.numerics = .reference := rfl

/-- Its comparisons, as facts about reals. -/
theorem le_real {a b : Num} (h : Params.test.le a b = true) : a.toReal ≤ b.toReal := (Params.le_iff test_reference a b).1 h
theorem lt_real {a b : Num} (h : Params.test.lt a b = true) : a.toReal < b.toReal := (Params.lt_iff test_reference a b).1 h

/-- RAW_FREQ at the breakpoint 1900, whose first bracket is bracket 1; and 3000, in no bracket: in the build's comparisons. -/
theorem witness_LookupTakesTheFirstBracket :
    (1 + 1 < calLen Params.test ∧ Params.test.le (calMeas Params.test 1) (.num 1900) = true ∧
      Params.test.le (.num 1900) (calMeas Params.test (1 + 1)) = true ∧
      ∀ j, j < 1 → ¬ (Params.test.le (calMeas Params.test j) (.num 1900) = true ∧
        Params.test.le (.num 1900) (calMeas Params.test (j + 1)) = true)) ∧
    (∀ i, i + 1 < calLen Params.test → ¬ (Params.test.le (calMeas Params.test i) (.num 3000) = true ∧
      Params.test.le (.num 3000) (calMeas Params.test (i + 1)) = true)) := by
  have h : ∀ i < 4, ¬ (Params.test.le (calMeas Params.test i) (.num 3000) = true ∧
      Params.test.le (.num 3000) (calMeas Params.test (i + 1)) = true) ∨ 3 ≤ i := by decide +kernel
  refine ⟨⟨by decide, by decide +kernel, by decide +kernel, ?_⟩, fun i hi => ?_⟩
  · intro j hj
    obtain rfl : j = 0 := by omega
    decide +kernel
  · have h4 : calLen Params.test = 4 := rfl
    rcases h i (by omega) with h | h
    · exact h
    · omega

/-- The same in real numbers, under the reference instance: 1900 in brackets 1 and 2, 3000 above the table, 400 below it. -/
theorem witness_LookupTakesTheFirstBracket_real :
    State.reset.cfg.wf = true ∧ State.reset.cfg.numerics = .reference ∧
    ((calMeas Params.test 1).toReal ≤ (Num.num 1900).toReal ∧ (Num.num 1900).toReal ≤ (calMeas Params.test (1 + 1)).toReal) ∧
    ((calMeas Params.test 2).toReal ≤ (Num.num 1900).toReal ∧ (Num.num 1900).toReal ≤ (calMeas Params.test (2 + 1)).toReal) ∧
    (calMeas Params.test (calLen Params.test - 1)).toReal < (Num.num 3000).toReal ∧
    (Num.num 400).toReal < (calMeas Params.test 0).toReal :=
  ⟨witness_build, rfl, ⟨le_real (by decide +kernel), le_real (by decide +kernel)⟩,
    ⟨le_real (by decide +kernel), le_real (by decide +kernel)⟩, lt_real (by decide +kernel), lt_real (by decide +kernel)⟩

/-- Both ends of the table, and the breakpoint 776.8 in its two brackets (the instance is the reference one: test_reference). -/
theorem witness_CalibratePiecewiseLinear :
    (calMeas Params.test 0).toReal ≤ (Num.dec 4912 10).toReal ∧
    (Num.lit 2100).toReal ≤ (calMeas Params.test (calLen Params.test - 1)).toReal ∧
    ((calMeas Params.test 0).toReal ≤ (Num.dec 7768 10).toReal ∧ (Num.dec 7768 10).toReal ≤ (calMeas Params.test (0 + 1)).toReal) ∧
    ((calMeas Params.test 1).toReal ≤ (Num.dec 7768 10).toReal ∧ (Num.dec 7768 10).toReal ≤ (calMeas Params.test (1 + 1)).toReal) ∧
    3 < calLen Params.test ∧ (Num.lit 2100).toReal = (calMeas Params.test 3).toReal := by
  simp only [← Params.le_iff test_reference]
  exact ⟨by decide +kernel, by decide +kernel, by decide +kernel, by decide +kernel, by decide, by simp [calMeas, Params.test]⟩

theorem witness_CalibratePassesThroughOutside :
    (Num.dec 4911999 10000).toReal < (calMeas Params.test 0).toReal ∧
    (calMeas Params.test (calLen Params.test - 1)).toReal < (Num.dec 21000001 10000).toReal ∧ Num.zero.toReal ≤ 0 :=
  ⟨lt_real (by decide +kernel), lt_real (by decide +kernel), by simp⟩

/-- The end of pass 1 on both branches: the least count at the margin, and one above it. -/
theorem witness_PassOneFinish :
    let s := pass 0x13 0 1050 []
    let lo : State := { s with flags := { s.flags with clipf := true }, wa := { s.wa with minc := 5, maxc := 5, cnt1 := 1 } }
    let hi : State := { s with wa := { s.wa with minc := 6, maxc := 1000, cnt1 := 2 } }
    (lo.cfg.wf = true ∧ 0 < lo.wa.cnt1 ∧ lo.wa.minc ≤ lo.wa.maxc ∧ lo.flags.clipf = true ∧ lo.wa.minc.val ≤ lo.cfg.clipMargin) ∧
    (hi.cfg.wf = true ∧ 0 < hi.wa.cnt1 ∧ hi.wa.minc ≤ hi.wa.maxc ∧ ¬ (hi.flags.clipf = true ∧ hi.wa.minc.val ≤ hi.cfg.clipMargin)) := by
  decide +kernel

/-- The end of pass 2 with RMS below the floor, and at it: in the build's comparisons and in real numbers. -/
theorem witness_PassTwoFinish :
    Params.test.wf = true ∧ Params.test.numerics = .reference ∧
    (Params.test.lt (rmsOf (.num 0) 1) Params.test.noiseFloor = true ∧ 0 ≤ (Num.num 0).toReal ∧
      (rmsOf (.num 0) 1).toReal < Params.test.noiseFloor.toReal) ∧
    (Params.test.lt (rmsOf (.lit (1 / 10000)) 1) Params.test.noiseFloor = false ∧ 0 ≤ (Num.lit (1 / 10000)).toReal ∧
      Params.test.noiseFloor.toReal ≤ (rmsOf (.lit (1 / 10000)) 1).toReal) :=
  ⟨witness_build, rfl, ⟨by decide +kernel, by simp, lt_real (by decide +kernel)⟩,
    by decide +kernel, by simp, le_real (by decide +kernel)⟩

theorem witness_ConvReadOutOfRangeIsZero : 7 < (8#8).toNat ∧ (7#8).toNat ≤ 7 ∧ (pass 0x12 0 0 [3]).env.convQ.head? = some 3 := by
  decide

theorem witness_EnvelopeOfAPass :
    (let p : List Count10 := [5, 1000]
     5 ∈ p ∧ 1000 ∈ p ∧ (∀ k ∈ p, 5 ≤ k ∧ k ≤ 1000) ∧ (5 : Count10).val ≤ Params.test.clipMargin) ∧
    (let p : List Count10 := [6, 1018, 6]
     6 ∈ p ∧ 1018 ∈ p ∧ (∀ k ∈ p, 6 ≤ k ∧ k ≤ 1018) ∧ Params.test.clipMargin < (6 : Count10).val) := by decide +kernel

/-- A crest factor on a bound of each band, and one in none: in the build's comparisons. -/
theorem witness_ClassifyByBands :
    (Params.test.le Params.test.sineLo (Num.dec 130 100) = true ∧ Params.test.le (Num.dec 130 100) Params.test.sineHi = true) ∧
    (Params.test.le Params.test.squareLo (Num.dec 105 100) = true ∧ Params.test.le (Num.dec 105 100) Params.test.squareHi = true ∧
      ¬ Params.test.le Params.test.sineLo (Num.dec 105 100) = true) ∧
    (Params.test.le Params.test.triLo (Num.dec 170 100) = true ∧ Params.test.le (Num.dec 170 100) Params.test.triHi = true ∧
      ¬ Params.test.le (Num.dec 170 100) Params.test.sineHi = true ∧ ¬ Params.test.le (Num.dec 170 100) Params.test.squareHi = true) ∧
    (¬ Params.test.le Params.test.sineLo Num.zero = true ∧ ¬ Params.test.le Params.test.squareLo Num.zero = true ∧
      ¬ Params.test.le Params.test.triLo Num.zero = true) := by decide +kernel

/-- The same in real numbers, under the reference instance. -/
theorem witness_ClassifyByBands_real :
    Params.test.numerics = .reference ∧
    (Params.test.sineLo.toReal ≤ (Num.dec 130 100).toReal ∧ (Num.dec 130 100).toReal ≤ Params.test.sineHi.toReal) ∧
    (Params.test.squareLo.toReal ≤ (Num.dec 105 100).toReal ∧ (Num.dec 105 100).toReal ≤ Params.test.squareHi.toReal ∧
      ¬ Params.test.sineLo.toReal ≤ (Num.dec 105 100).toReal) ∧
    (Params.test.triLo.toReal ≤ (Num.dec 170 100).toReal ∧ (Num.dec 170 100).toReal ≤ Params.test.triHi.toReal ∧
      ¬ (Num.dec 170 100).toReal ≤ Params.test.sineHi.toReal ∧ ¬ (Num.dec 170 100).toReal ≤ Params.test.squareHi.toReal) ∧
    (¬ Params.test.sineLo.toReal ≤ Num.zero.toReal ∧ ¬ Params.test.squareLo.toReal ≤ Num.zero.toReal ∧
      ¬ Params.test.triLo.toReal ≤ Num.zero.toReal) := by
  simp only [← Params.le_iff test_reference]
  exact ⟨rfl, witness_ClassifyByBands⟩

theorem witness_IdealCrestFactors : Params.test.numerics = .reference ∧
    (Params.test.sineLo.toReal = 1.30 ∧ Params.test.sineHi.toReal = 1.45 ∧ Params.test.squareLo.toReal = 0.95 ∧
      Params.test.squareHi.toReal = 1.05 ∧ Params.test.triLo.toReal = 1.50 ∧ Params.test.triHi.toReal = 1.70) ∧
    (Num.sqrt (Num.num 2)).toReal = √2 ∧ (Num.lit 1).toReal = 1 ∧ (Num.sqrt (Num.num 3)).toReal = √3 ∧ Num.zero.toReal < 0.95 := by
  refine ⟨rfl, by simp only [Params.test, Num.toReal_dec]; norm_num, ?_, by simp, ?_, by norm_num⟩
  · rw [Num.toReal_sqrt _ (by simp)]; simp
  · rw [Num.toReal_sqrt _ (by simp)]; simp

/-- A constant pass about its own level. -/
theorem witness_DegenerateRmsIsUnrecognized : ∃ (c : Params) (dc : Num) (p : List Count10), c.wf = true ∧ c.numerics = .reference ∧ p ≠ [] ∧
    c.sineLo.toReal = 1.30 ∧ c.squareLo.toReal = 0.95 ∧ c.triLo.toReal = 1.50 ∧
    √((p.map fun k => ((k.val : ℝ) * c.vRef.toReal / c.maxCountScale - dc.toReal) ^ 2).sum / p.length) < c.noiseFloor.toReal := by
  refine ⟨Params.test, volt Params.test 500, [500], witness_build, rfl, by simp, witness_IdealCrestFactors.2.1.1,
    witness_IdealCrestFactors.2.1.2.2.1, witness_IdealCrestFactors.2.1.2.2.2.2.1, ?_⟩
  have h : (volt Params.test 500).toReal = 500 * Params.test.vRef.toReal / Params.test.maxCountScale := by
    exact_mod_cast volt_toReal witness_build 500
  have e : (((500 : Count10).val : ℕ) : ℝ) = 500 := by norm_num
  simp only [List.map_cons, List.map_nil, List.sum_cons, List.sum_nil, h, e, sub_self]
  simp [Params.test]

theorem witness_ResetAtAnyPoint : (hostAt 0x03 .reset).env.sched = [.host] ∧ (hostAt 0x03 .reset).env.script = [.reset] :=
  ⟨rfl, rfl⟩

theorem witness_StepRunsThePhase : (seqAt 0x18).env.sched = [.seq] ∧ decode (.phase5 (seqAt 0x18).phase) = .ok .waPubCls := ⟨rfl, rfl⟩

theorem witness_StepRunsTheCommand :
    ((hostAt 0x00 (.write 0#3 0xFFFFFF04#32)).env.sched = [.host] ∧
      (hostAt 0x00 (.write 0#3 0xFFFFFF04#32)).env.script = [.write 0#3 0xFFFFFF04#32] ∧
      decode (.cmdw 0xFFFFFF04#32) = .ok .waUpdate) ∧
    ((hostAt 0x00 (.call .fcInit)).env.sched = [.host] ∧ (hostAt 0x00 (.call .fcInit)).env.script = [.call .fcInit]) ∧
    ((hostAt 0x00 (.write 0#3 0x00000005#32)).env.script = [.write 0#3 0x00000005#32] ∧
      ∀ i, decode (.cmdw 0x00000005#32) ≠ .ok i) ∧
    ((hostAt 0x00 (.write 7#3 0x00000001#32)).env.script = [.write 7#3 0x00000001#32] ∧ 7#3 ≠ 0#3) ∧
    (hostAt 0x00 (.read 4#3)).env.script = [.read 4#3] ∧
    (((ready 0x00).schedule .host).env.sched = [.host] ∧ ((ready 0x00).schedule .host).env.script = []) :=
  ⟨⟨rfl, rfl, rfl⟩, ⟨rfl, rfl⟩, ⟨rfl, witness_CommandCodesByLowByte⟩, ⟨rfl, by decide⟩, rfl, rfl, rfl⟩

theorem witness_WaitIdlePollsBusy : (hostAt 0x12 .waitIdle).env.sched = [.host] ∧ (hostAt 0x12 .waitIdle).env.script = [.waitIdle] :=
  ⟨rfl, rfl⟩

theorem witness_PlacedWordRunsNext : decodeTableWord 8 0x18 = some .waPubCls ∧ decodeTableWord 9 0x01 = some .fcInit ∧
    decodeTableWord 32 0x04 = some .waUpdate := by decide

theorem witness_ClockStepAdvancesNow : ((ready 0x03).schedule (.clk 0)).env.sched = [.clk 0] := rfl

theorem witness_ReservedPhaseStops : ∀ p ∈ [0x0B#5, 0x0F#5, 0x19#5, 0x1F#5], (seqAt p).env.sched = [.seq] ∧
    ((0x0B ≤ (seqAt p).phase.toNat ∧ (seqAt p).phase.toNat ≤ 0x0F) ∨ 0x19 ≤ (seqAt p).phase.toNat) := by decide

/-- A step of each agent that answers next: a row of the table, a phase held, an accepted command, a reset, a tick. -/
theorem witness_PhaseFollowsTheSuccessorTable :
    after (step (seqAt 0x02)) (fun t => t.phase == 0x03#5) = true ∧
    after (step (hostAt 0x00 (.write 0#3 0x00000002#32))) (fun t => t.phase == 0x02#5) = true ∧
    after (step ((pass 0x12 7000 7999 [4]).schedule .seq)) (fun t => t.phase == 0x12#5) = true ∧
    after (step (hostAt 0x16 .reset)) (fun t => t.phase == 0x00#5) = true ∧
    after (step ((ready 0x16).schedule (.clk 4))) (fun t => t.phase == 0x16#5) = true := by decide +kernel

theorem witness_PublishedOutputsHaveOneWriter :
    after (step ({ ready 0x0A with fc := ⟨.lit 1, .lit 2⟩ }.schedule .seq)) (fun t => t.pub.corrFreq != State.reset.pub.corrFreq) = true ∧
    after (step ({ ready 0x17 with wa := { State.reset.wa with vppT := .lit 2 } }.schedule .seq)) (fun t => t.pub.vpp != State.reset.pub.vpp) = true ∧
    after (step ({ ready 0x18 with wa := { State.reset.wa with clsT := .sine } }.schedule .seq)) (fun t => t.pub.wclass != State.reset.pub.wclass) = true ∧
    (nextAgent ((ready 0x0A).schedule .seq)).1 = .seq := by decide +kernel

/-- The premise of PublishedOutputsHaveOneWriter, FlagsHaveTheirWriters and UnitsDoNotInterfere holds of a sequencer step taken
while RESET is the host's next statement. -/
theorem witness_noReset :
    let s : State := ({ ready 0x0A with fc := ⟨.num 1, .num 2⟩, env := { State.reset.env with script := [.reset] } }).schedule .seq
    ¬ ((nextAgent s).1 = .host ∧ s.env.script.head? = some .reset) ∧ s.env.script.head? = some .reset ∧
      after (step s) (fun t => t.pub.corrFreq != s.pub.corrFreq && t.flags.fcValid) = true := by decide +kernel

/-- Every flag both set and cleared. -/
theorem witness_FlagsHaveTheirWriters :
    let on (p : BitVec 5) : State := ({ ready p with flags := ⟨true, true, true, true, true, true, true⟩ }).schedule .seq
    let off (p : BitVec 5) (conv : List Count10) : State :=
      ({ ready p with flags := State.reset.flags, env := { State.reset.env with convQ := conv } }).schedule .seq
    after (step (off 0x02 [])) (fun t => t.flags.crit) = true ∧ after (step (on 0x04)) (fun t => !t.flags.crit) = true ∧
    after (step (off 0x01 [])) (fun t => t.flags.fcReady) = true ∧ after (step (off 0x10 [])) (fun t => t.flags.waReady) = true ∧
    after (step (off 0x0A [])) (fun t => t.flags.fcValid) = true ∧ after (step (off 0x18 [])) (fun t => t.flags.waValid) = true ∧
    after (step (off 0x12 [1018])) (fun t => t.flags.clipf) = true ∧ after (step (on 0x11)) (fun t => !t.flags.clipf) = true ∧
    after (step (on 0x09)) (fun t => !t.flags.found) = true := by decide +kernel

theorem witness_EnvironmentMovesByItsRules :
    after (step ((ready 0x03).schedule (.clk 0))) (fun t => t.env.now == 1) = true ∧
    after (step ((acq 0 0 0 [4]).schedule .seq)) (fun t => t.env.rawCalls == 1) = true ∧
    after (step ((pass 0x14 0 0 [4]).schedule .seq)) (fun t => t.env.convCalls == 1) = true := by decide +kernel

theorem witness_UnitsDoNotInterfere :
    (after (step (seqAt 0x02)) (fun _ => true) = true ∧ (seqAt 0x02).phase ∈ fcPhases) ∧
    (after (step (seqAt 0x11)) (fun _ => true) = true ∧ (seqAt 0x11).phase ∈ waPhases) ∧
    (nextAgent (seqAt 0x02)).1 = .seq := by decide +kernel

/-- A block about to run an update of either unit meets the invariant, whatever its environment. -/
theorem inv_entry (p : BitVec 5) (h : p = Phase.fcCritEnter ∨ p = Phase.waP1Start) (e : Env) :
    Safety.Inv { ready p with env := e } := by
  rcases h with rfl | rfl <;> constructor <;>
    first
    | exact witness_build
    | simp [ready, State.reset, fcPhases, waPhases, phases, Phase.fcCritEnter, Phase.waP1Start, Phase.fcAcq, Phase.fcCritExit,
        Phase.spdWindow, Phase.spdFft, Phase.calLookup, Phase.fcPublish, Phase.waP1Sample, Phase.waP1Finish, Phase.waP2Sample,
        Phase.waP2Finish, Phase.waClassify, Phase.waPubVpp, Phase.waPubCls]

/-- The statements about one step from a state of the invariant. -/
theorem witness_StepKeepsInv : Safety.Inv (seqAt 0x02) ∧ (∃ t, step (seqAt 0x02) = .next t) ∧ Contract (seqAt 0x02) :=
  ⟨inv_entry _ (.inl rfl) _, ⟨_, rfl⟩, by simp [Contract, seqAt, ready, State.reset]⟩

/-- A whole FC_UPDATE of no signal (vector V3), the clock advancing T_S between samples. -/
def fcRun : State :=
  { ready 0x02 with env := { State.reset.env with
      now := 1000, rawQ := [0, 0, 0, 0, 0, 0, 0, 0]
      sched := [.seq, .seq] ++ (List.replicate 7 [.clk 124, .seq]).flatten ++ List.replicate 7 .seq } }

/-- A whole WA_UPDATE of one sample a pass (vector W12c). -/
def waRun : State :=
  { ready 0x11 with env := { State.reset.env with
      convQ := [0, 0], sched := [.seq, .clk 999, .seq, .seq, .clk 999, .seq, .seq, .seq, .seq, .seq] } }

def runEnds (k : Nat) (s : State) (check : State → Bool) : Bool :=
  match busyRun k s with
  | some (_, t) => decide (t.phase = 0x00#5) && check t
  | none => false

theorem runEnds_true {k : Nat} {s : State} {check : State → Bool} (h : runEnds k s check = true) :
    ∃ d t, busyRun k s = some (d, t) ∧ t.phase = 0x00#5 := by
  unfold runEnds at h
  split at h
  · rename_i d t e
    exact ⟨d, t, e, by simpa using (Bool.and_eq_true_iff.1 h).1⟩
  · cases h

theorem witness_FrequencyUpdatePublishesFcResult : Safety.Inv fcRun ∧ NoReset fcRun ∧ fcRun.phase = 0x02#5 ∧
    ∃ d t, busyRun 23 fcRun = some (d, t) ∧ t.phase = 0x00#5 :=
  ⟨inv_entry _ (.inl rfl) _, by simp [NoReset, fcRun, State.reset], rfl,
    runEnds_true (check := fun t => worth t.pub.corrFreq 2050 && t.env.now == 1875) (by decide +kernel)⟩

theorem witness_WaveformUpdatePublishesWaResult : Safety.Inv waRun ∧ NoReset waRun ∧ waRun.phase = 0x11#5 ∧
    ∃ d t, busyRun 10 waRun = some (d, t) ∧ t.phase = 0x00#5 :=
  ⟨inv_entry _ (.inr rfl) _, by simp [NoReset, waRun, State.reset], rfl,
    runEnds_true (check := fun t => worth t.pub.vpp 0 && t.pub.wclass == .unrecognized && t.env.now == 2000) (by decide +kernel)⟩

theorem witness_PassSamples :
    ((pass 0x12 7000 8000 [5]).cfg.wf = true ∧ (pass 0x12 7000 8000 [5]).env.convQ.head? = some 5) ∧
    ((pass 0x14 7000 7999 []).cfg.wf = true ∧ (pass 0x14 7000 7999 []).env.convQ.head? = none) := by decide +kernel

theorem witness_EveryStepIsTotal : Safety.Inv (seqAt 0x11) ∧ Contract (seqAt 0x11) :=
  ⟨inv_entry _ (.inr rfl) _, by simp [Contract, seqAt, ready, State.reset]⟩

theorem witness_EveryCommandCanEnd : Safety.Inv fcRun ∧ Contract fcRun :=
  ⟨inv_entry _ (.inl rfl) _, by simp [Contract, fcRun, State.reset]⟩

theorem witness_UpdatesTakeTheirTime :
    (NoReset fcRun ∧ ∃ d t, busyRun 23 fcRun = some (d, t) ∧ t.phase = 0x00#5) ∧
    (NoReset waRun ∧ ∃ d t, busyRun 10 waRun = some (d, t) ∧ t.phase = 0x00#5) :=
  ⟨⟨witness_FrequencyUpdatePublishesFcResult.2.1, witness_FrequencyUpdatePublishesFcResult.2.2.2⟩,
    witness_WaveformUpdatePublishesWaResult.2.1, witness_WaveformUpdatePublishesWaResult.2.2.2⟩

/-- Twice the voltage of 400 counts and the voltage of 800 counts: two contents, one value (R97). -/
theorem witness_HostWordEncodesTheValue :
    (valid.cfg.numerics = .reference ∧ valid.flags.fcValid = true ∧ valid.flags.waValid = true ∧
      Num.mul (.num 2) (volt valid.cfg 400) ≠ volt valid.cfg 800 ∧
      valid.cfg.le (.mul (.num 2) (volt valid.cfg 400)) (volt valid.cfg 800) = true ∧
      valid.cfg.le (volt valid.cfg 800) (.mul (.num 2) (volt valid.cfg 400)) = true) ∧
    (let other : State := { valid with cfg := { valid.cfg with numerics := .other 0 } }
     other.cfg.numerics = .other 0 ∧ other.flags.fcValid = true ∧ other.flags.waValid = true ∧
      (Num.zero).eval (Config.numerics 0) = (Num.num 0).eval (Config.numerics 0)) := by
  refine ⟨?_, rfl, rfl, rfl, rfl⟩
  decide +kernel

end Sys2Proof.Tests
end

section
/-! What one step can do to the block, said once: the moves of the sequencer (10_state.md R24), an accepted command
(40_host_commands.md R120), a reset (R290), and steps that leave the whole block as it was. -/

namespace Sys2Proof.Machine

/-- Everything the sequencer can do in one step that answers a next state: the meaning of its phase, and where that
meaning chooses, the choice it made. -/
inductive SeqMove (s t : State) : Prop
  | idle (hp : s.phase = Phase.idle) (e : execIdle s = .next t)
  | fcInitRun (hp : s.phase = Phase.fcInitRun) (e : execFcInitRun s = .next t)
  | fcCritEnter (hp : s.phase = Phase.fcCritEnter) (e : execFcCritEnter s = .next t)
  | fcAcqWaits (hp : s.phase = Phase.fcAcq) (guard : acqEnabled s = false) (e : t = s)
  | fcAcqSamples (hp : s.phase = Phase.fcAcq) (guard : acqEnabled s = true) (hi : s.idx < s.cfg.n) (c : Nat)
      (hc : c ≤ s.cfg.fcMaxCount) (drawn : rawRead s = .ok (c, afterRaw s)) (e : t = takeSample c (afterRaw s))
  | fcCritExit (hp : s.phase = Phase.fcCritExit) (e : execFcCritExit s = .next t)
  | spdWindow (hp : s.phase = Phase.spdWindow) (e : execSpdWindow s = .next t)
  | spdFft (hp : s.phase = Phase.spdFft) (e : execSpdFft s = .next t)
  | spdMag (hp : s.phase = Phase.spdMag) (e : execSpdMag s = .next t)
  | spdPeak (hp : s.phase = Phase.spdPeak) (e : execSpdPeak s = .next t)
  | calLookup (hp : s.phase = Phase.calLookup) (e : execCalLookup s = .next t)
  | fcPublish (hp : s.phase = Phase.fcPublish) (e : execFcPublish s = .next t)
  | waInitRun (hp : s.phase = Phase.waInitRun) (e : execWaInitRun s = .next t)
  | waP1Start (hp : s.phase = Phase.waP1Start) (e : execWaP1Start s = .next t)
  | waP1Sample (hp : s.phase = Phase.waP1Sample) (e : t = tally1 (convExchange waChannel s).1 (afterConv s))
  | waP1Finish (hp : s.phase = Phase.waP1Finish) (e : execWaP1Finish s = .next t)
  | waP2Sample (hp : s.phase = Phase.waP2Sample) (e : t = tally2 (convExchange waChannel s).1 (afterConv s))
  | waP2Finish (hp : s.phase = Phase.waP2Finish) (e : execWaP2Finish s = .next t)
  | waClassify (hp : s.phase = Phase.waClassify) (e : execWaClassify s = .next t)
  | waPubVpp (hp : s.phase = Phase.waPubVpp) (e : execWaPubVpp s = .next t)
  | waPubCls (hp : s.phase = Phase.waPubCls) (e : execWaPubCls s = .next t)

theorem seqMove_of_execFcAcq {s t : State} (hp : s.phase = Phase.fcAcq) (e : execFcAcq s = .next t) : SeqMove s t := by
  rcases execFcAcq_cases s with ⟨hg, e'⟩ | ⟨hg, hi, ⟨c, hc, drawn, e'⟩ | ⟨c, -, -, e'⟩⟩ | ⟨-, -, e'⟩ <;>
    rw [e'] at e <;> cases e
  · exact .fcAcqWaits hp hg rfl
  · exact .fcAcqSamples hp hg hi c hc drawn rfl

theorem seqMove_of_seqStep {s t : State} (h : seqStep s = .next t) : SeqMove s t := by
  by_cases hp : s.phase ∈ Safety.phases
  case neg => rw [seqStep_reserved hp] at h; cases h
  simp only [Safety.phases, Safety.fcPhases, Safety.waPhases, List.cons_append, List.nil_append, List.mem_cons,
    List.not_mem_nil, or_false] at hp
  rcases hp with hp | hp | hp | hp | hp | hp | hp | hp | hp | hp | hp | hp | hp | hp | hp | hp | hp | hp | hp | hp
  · exact .idle hp (seqStep_idle hp ▸ h)
  · exact .fcInitRun hp (seqStep_fcInitRun hp ▸ h)
  · exact .waInitRun hp (seqStep_waInitRun hp ▸ h)
  · exact .fcCritEnter hp (seqStep_fcCritEnter hp ▸ h)
  · exact seqMove_of_execFcAcq hp (seqStep_fcAcq hp ▸ h)
  · exact .fcCritExit hp (seqStep_fcCritExit hp ▸ h)
  · exact .spdWindow hp (seqStep_spdWindow hp ▸ h)
  · exact .spdFft hp (seqStep_spdFft hp ▸ h)
  · exact .spdMag hp (seqStep_spdMag hp ▸ h)
  · exact .spdPeak hp (seqStep_spdPeak hp ▸ h)
  · exact .calLookup hp (seqStep_calLookup hp ▸ h)
  · exact .fcPublish hp (seqStep_fcPublish hp ▸ h)
  · exact .waP1Start hp (seqStep_waP1Start hp ▸ h)
  · rw [seqStep_waP1Sample hp, execWaP1Sample_eq] at h; cases h; exact .waP1Sample hp rfl
  · exact .waP1Finish hp (seqStep_waP1Finish hp ▸ h)
  · rw [seqStep_waP2Sample hp, execWaP2Sample_eq] at h; cases h; exact .waP2Sample hp rfl
  · exact .waP2Finish hp (seqStep_waP2Finish hp ▸ h)
  · exact .waClassify hp (seqStep_waClassify hp ▸ h)
  · exact .waPubVpp hp (seqStep_waPubVpp hp ▸ h)
  · exact .waPubCls hp (seqStep_waPubCls hp ▸ h)

/-- t is the block of s in a later environment: nothing but the environment differs, and the clock has not gone back. -/
structure SameBlock (s t : State) : Prop where
  cfg   : t.cfg = s.cfg
  phase : t.phase = s.phase
  idx   : t.idx = s.idx
  tMark : t.tMark = s.tMark
  flags : t.flags = s.flags
  pub   : t.pub = s.pub
  fc    : t.fc = s.fc
  wa    : t.wa = s.wa
  blk   : t.blk = s.blk
  now   : s.env.now ≤ t.env.now

/-- The block is untouched when the environment alone is written. -/
theorem sameBlock_env (s : State) (e : Env) (h : s.env.now ≤ e.now) : SameBlock s { s with env := e } :=
  ⟨rfl, rfl, rfl, rfl, rfl, rfl, rfl, rfl, rfl, h⟩

theorem SameBlock.trans {s t u : State} (h : SameBlock s t) (k : SameBlock t u) : SameBlock s u where
  cfg := k.cfg.trans h.cfg
  phase := k.phase.trans h.phase
  idx := k.idx.trans h.idx
  tMark := k.tMark.trans h.tMark
  flags := k.flags.trans h.flags
  pub := k.pub.trans h.pub
  fc := k.fc.trans h.fc
  wa := k.wa.trans h.wa
  blk := k.blk.trans h.blk
  now := h.now.trans k.now

theorem sameBlock_nextAgent (s : State) : SameBlock s (nextAgent s).2 := by
  constructor <;> simp

theorem sameBlock_tick (d : Nat) (s : State) : SameBlock s (tick d s) := sameBlock_env s _ (Nat.le_add_right _ _)
theorem sameBlock_hostBase (s : State) : SameBlock s (hostBase s) := sameBlock_env s _ (le_refl _)
theorem sameBlock_afterRaw (s : State) : SameBlock s (afterRaw s) := sameBlock_env s _ (le_refl _)
theorem sameBlock_afterConv (s : State) : SameBlock s (afterConv s) := sameBlock_env s _ (le_refl _)
theorem sameBlock_regRead (i : BitVec 3) (s : State) : SameBlock s (regRead i s) := sameBlock_env s _ (le_refl _)

/-- The first phases of the commands that the block accepts in s (R120 to R124). -/
inductive Accepts (s : State) : BitVec 5 → Prop
  | fcInit (idle : s.phase = Phase.idle) : Accepts s Phase.fcInitRun
  | fcUpdate (idle : s.phase = Phase.idle) (ready : s.flags.fcReady = true) : Accepts s Phase.fcCritEnter
  | waInit (idle : s.phase = Phase.idle) : Accepts s Phase.waInitRun
  | waUpdate (idle : s.phase = Phase.idle) (ready : s.flags.waReady = true) : Accepts s Phase.waP1Start

/-- Everything a step can do to the block: the sequencer moves, or, in a later environment, the block stays as it was,
accepts a command, or is reset by the host. -/
inductive StepMove (s t : State) : Prop
  | seq (agent : (nextAgent s).1 = .seq) (m : SeqMove (nextAgent s).2 t)
  | stay (same : SameBlock s t)
  | accept (u : State) (same : SameBlock s u) (p : BitVec 5) (acc : Accepts u p) (e : t = u.goto p)
  | reset (u : State) (same : SameBlock s u) (agent : (nextAgent s).1 = .host)
      (stmt : s.env.script.head? = some .reset) (e : t = resetBlock u)

theorem stepMove_of_hostStep {s t : State} (agent : (nextAgent s).1 = .host) (h : hostStep (nextAgent s).2 = .next t) :
    StepMove s t := by
  have same := sameBlock_nextAgent s
  have base := same.trans (sameBlock_hostBase (nextAgent s).2)
  rcases hostStep_cases (nextAgent s).2 with
      e | e | ⟨idx, e⟩ | ⟨stmt, e⟩ | ⟨idle, e | ⟨ready, e⟩ | e | ⟨ready, e⟩⟩ <;> rw [e] at h <;> cases h
  · exact .stay same
  · exact .stay base
  · exact .stay (base.trans (sameBlock_regRead idx _))
  · exact .reset _ base agent (by simpa using stmt) rfl
  · exact .accept _ base _ (.fcInit idle) rfl
  · exact .accept _ base _ (.fcUpdate idle ready) rfl
  · exact .accept _ base _ (.waInit idle) rfl
  · exact .accept _ base _ (.waUpdate idle ready) rfl

theorem stepMove_of_step {s t : State} (h : step s = .next t) : StepMove s t := by
  rcases step_cases s with ⟨agent, e⟩ | ⟨d, -, e⟩ | ⟨agent, e⟩ <;> rw [e] at h
  · exact .seq agent (seqMove_of_seqStep h)
  · cases h; exact .stay ((sameBlock_nextAgent s).trans (sameBlock_tick d _))
  · exact stepMove_of_hostStep agent h

end Sys2Proof.Machine
end

section
/-! How the invariant is shown of a state. Inv guards most of its fields by the phase, and a state is in one phase: what has
to be shown is the part that names no phase, Lasting, and what Inv asks in that one phase, FcFacts on the frequency path and
WaFacts on the waveform path. -/

namespace Sys2Proof.Safety
open Machine

/-- The part of the invariant that holds in every phase. -/
structure Lasting (s : State) : Prop where
  params    : s.cfg.wf = true
  fcValid   : s.flags.fcValid = true → s.flags.fcReady = true
  waValid   : s.flags.waValid = true → s.flags.waReady = true
  re        : Memory.wf s.cfg.n s.blk.re = true
  im        : Memory.wf s.cfg.n s.blk.im = true
  published : s.flags.fcValid = true → ∃ raw, BinFrequency s.cfg raw ∧ s.pub.corrFreq = calibrate s.cfg raw
  vpp       : s.cfg.numerics = .reference → s.flags.waValid = true → 0 ≤ s.pub.vpp.toReal

/-- What the invariant asks in a phase of FC_UPDATE, beside FC_READY. -/
inductive FcFacts (s : State) : Prop
  | plain (hp : s.phase ∈ [Phase.fcCritEnter, Phase.spdMag, Phase.spdPeak]) (crit : s.flags.crit = false)
  | fcAcq (hp : s.phase = Phase.fcAcq) (crit : s.flags.crit = true) (idx : s.idx < s.cfg.n)
      (mark : 0 < s.idx → s.tMark ≤ s.env.now) (im : ∀ i, i < s.idx → s.imAt i = Num.zero)
  | fcCritExit (hp : s.phase = Phase.fcCritExit) (crit : s.flags.crit = true)
      (im : ∀ i, i < s.cfg.n → s.imAt i = Num.zero)
  | spdInput (hp : s.phase ∈ [Phase.spdWindow, Phase.spdFft]) (crit : s.flags.crit = false)
      (im : ∀ i, i < s.cfg.n → s.imAt i = Num.zero)
  | calLookup (hp : s.phase = Phase.calLookup) (crit : s.flags.crit = false) (raw : BinFrequency s.cfg s.fc.rawFreq)
  | fcPublish (hp : s.phase = Phase.fcPublish) (crit : s.flags.crit = false) (raw : BinFrequency s.cfg s.fc.rawFreq)
      (corr : s.fc.corrT = calibrate s.cfg s.fc.rawFreq)

/-- What the invariant asks in a phase of WA_UPDATE, beside WA_READY and CRIT = 0. -/
inductive WaFacts (s : State) : Prop
  | waP1Start (hp : s.phase = Phase.waP1Start)
  | waP1Sample (hp : s.phase = Phase.waP1Sample) (mark : s.tMark ≤ s.env.now)
      (lowClip : s.wa.minc.val ≤ s.cfg.clipMargin → s.flags.clipf = true)
      (envelope : 0 < s.wa.cnt1 → s.wa.minc ≤ s.wa.maxc)
  | waP1Finish (hp : s.phase = Phase.waP1Finish) (mark : s.tMark ≤ s.env.now)
      (lowClip : s.wa.minc.val ≤ s.cfg.clipMargin → s.flags.clipf = true)
      (envelope : s.wa.minc ≤ s.wa.maxc) (count : 0 < s.wa.cnt1)
  | waP2Sample (hp : s.phase = Phase.waP2Sample) (mark : s.tMark ≤ s.env.now) (sumsq : 0 ≤ s.wa.sumsq.toReal)
      (vppT : s.cfg.numerics = .reference → 0 ≤ s.wa.vppT.toReal)
  | waP2Finish (hp : s.phase = Phase.waP2Finish) (mark : s.tMark ≤ s.env.now) (sumsq : 0 ≤ s.wa.sumsq.toReal)
      (vppT : s.cfg.numerics = .reference → 0 ≤ s.wa.vppT.toReal) (count : 0 < s.wa.cnt2)
  | waClassify (hp : s.phase = Phase.waClassify) (vppT : s.cfg.numerics = .reference → 0 ≤ s.wa.vppT.toReal)
      (crest : s.cfg.numerics = .reference → 0 ≤ s.wa.crest.toReal)
  | waPubVpp (hp : s.phase = Phase.waPubVpp) (vppT : s.cfg.numerics = .reference → 0 ≤ s.wa.vppT.toReal)
  | waPubCls (hp : s.phase = Phase.waPubCls) (vpp : s.cfg.numerics = .reference → 0 ≤ s.pub.vpp.toReal)

section
variable {s : State}

theorem Inv.lasting (h : Inv s) : Lasting s where
  params := h.params
  fcValid := h.fcValid
  waValid := h.waValid
  re := h.re
  im := h.im
  published := h.published
  vpp hr hv := h.vpp hr (.inl hv)

/-! In each phase the guards are closed facts: the fields they leave are those of Lasting and of the phase. -/

theorem Lasting.inv_of_resting (l : Lasting s) (hp : s.phase ∈ [Phase.idle, Phase.fcInitRun, Phase.waInitRun])
    (crit : s.flags.crit = false) : Inv s := by
  obtain ⟨params, fcValid, waValid, re, im, published, vpp⟩ := l
  simp only [List.mem_cons, List.not_mem_nil, or_false] at hp
  rcases hp with hp | hp | hp <;> constructor <;> simp +contextual +decide [*]

theorem Lasting.inv_of_fcFacts (l : Lasting s) (ready : s.flags.fcReady = true) (f : FcFacts s) : Inv s := by
  obtain ⟨params, fcValid, waValid, re, im, published, vpp⟩ := l
  cases f with
  | plain hp crit =>
    simp only [List.mem_cons, List.not_mem_nil, or_false] at hp
    rcases hp with hp | hp | hp <;> constructor <;> simp +contextual +decide [*]
  | spdInput hp crit zero =>
    simp only [List.mem_cons, List.not_mem_nil, or_false] at hp
    rcases hp with hp | hp <;> constructor <;> simp +contextual +decide [*]
  | _ => constructor <;> simp +contextual +decide [*]

theorem Lasting.inv_of_waFacts (l : Lasting s) (ready : s.flags.waReady = true) (crit : s.flags.crit = false)
    (f : WaFacts s) : Inv s := by
  obtain ⟨params, fcValid, waValid, re, im, published, vpp⟩ := l
  cases f <;> constructor <;> simp +contextual +decide [*]

end
end Sys2Proof.Safety
end

section
/-! The moves keep the invariant, each in turn: O53 and O54. -/

namespace Sys2Proof.Safety
open Machine

section
variable {s t : State}

/-- Every fact of the invariant but the two marks is about the block, and a mark stays in the past. -/
theorem Inv.of_sameBlock (h : Inv s) (same : SameBlock s t) : Inv t := by
  obtain ⟨cfg, phase, idx, tMark, flags, pub, fc, wa, blk, env⟩ := t
  obtain ⟨rfl, rfl, rfl, rfl, rfl, rfl, rfl, rfl, rfl, now⟩ := same
  exact { h with
    acqMark := fun hp hi => (h.acqMark hp hi).trans now
    passMark := fun hp => (h.passMark hp).trans now }

/-! CRIT and the ready flags in a phase given by name: the guard is decided. -/

theorem Inv.crit_eq_false (h : Inv s) {p : BitVec 5} (hp : s.phase = p)
    (off : p ∉ [Phase.fcAcq, Phase.fcCritExit] := by decide) : s.flags.crit = false :=
  Bool.eq_false_iff.2 fun hc => off (hp ▸ h.crit.1 hc)

theorem Inv.fcReady_eq_true (h : Inv s) {p : BitVec 5} (hp : s.phase = p) (fc : p ∈ fcPhases := by decide) :
    s.flags.fcReady = true := h.fcReady (hp ▸ fc)

theorem Inv.waReady_eq_true (h : Inv s) {p : BitVec 5} (hp : s.phase = p) (wa : p ∈ waPhases := by decide) :
    s.flags.waReady = true := h.waReady (hp ▸ wa)

theorem inv_resetBlock (s : State) (hc : s.cfg.wf = true) : Inv (resetBlock s) := by
  refine Lasting.inv_of_resting ?_ (by simp [State.reset]) rfl
  exact ⟨hc, nofun, nofun, rfl, rfl, nofun, nofun⟩

theorem Inv.goto_of_accepts (h : Inv s) {p : BitVec 5} (acc : Accepts s p) : Inv (s.goto p) := by
  have idle : s.phase = Phase.idle := by cases acc <;> assumption
  have crit : s.flags.crit = false := h.crit_eq_false idle
  have l : Lasting (s.goto p) := { h.lasting with }
  cases acc with
  | fcInit _ => exact l.inv_of_resting (by simp) crit
  | fcUpdate _ ready => exact l.inv_of_fcFacts ready (.plain (by simp) crit)
  | waInit _ => exact l.inv_of_resting (by simp) crit
  | waUpdate _ ready => exact l.inv_of_waFacts ready crit (.waP1Start rfl)

/-! ## The frequency path -/

theorem Inv.execFcInitRun (h : Inv s) (hp : s.phase = Phase.fcInitRun) (e : execFcInitRun s = .next t) : Inv t := by
  cases e
  exact Lasting.inv_of_resting { h.lasting with fcValid := fun _ => rfl } (by simp) (h.crit_eq_false hp)

theorem Inv.execFcCritEnter (h : Inv s) (hp : s.phase = Phase.fcCritEnter) (e : execFcCritEnter s = .next t) : Inv t := by
  cases e
  have hn := Params.n_ge h.params
  exact Lasting.inv_of_fcFacts { h.lasting with } (h.fcReady_eq_true hp)
    (.fcAcq rfl rfl (by show 0 < s.cfg.n; omega) nofun nofun)

/-- The sample written keeps every earlier imaginary part zero, and is itself zero there (R143). -/
theorem imAt_takeSample (h : Inv s) (hp : s.phase = Phase.fcAcq) (c : Nat) {i : Nat} (hi : i < s.idx + 1) :
    (takeSample c s).imAt i = Num.zero := by
  rw [State.imAt, takeSample_blk, Memory.read_write h.im]
  split
  · rfl
  · exact h.imAcquired hp i (by omega)

theorem Inv.takeSample (h : Inv s) (hp : s.phase = Phase.fcAcq) (c : Nat) : Inv (takeSample c s) := by
  have hi := h.idx hp
  have crit : s.flags.crit = true := h.crit.2 (by simp [hp])
  have ready : s.flags.fcReady = true := h.fcReady_eq_true hp
  have l : Lasting (Machine.takeSample c s) :=
    { h.lasting with re := Memory.wf_write h.re hi _, im := Memory.wf_write h.im hi _ }
  by_cases last : s.idx + 1 = s.cfg.n
  · refine l.inv_of_fcFacts ready (.fcCritExit (by simp [last]) crit fun i hi => ?_)
    exact imAt_takeSample h hp c (by rw [last]; exact hi)
  · refine l.inv_of_fcFacts ready (.fcAcq (by simp [last, hp]) crit ?_ (fun _ => le_refl _) fun i hi => ?_)
    · simp only [takeSample_idx, takeSample_cfg, last, decide_false, Bool.false_eq_true, if_false]; omega
    · exact imAt_takeSample h hp c (by simpa [last] using hi)

theorem Inv.execFcCritExit (h : Inv s) (hp : s.phase = Phase.fcCritExit) (e : execFcCritExit s = .next t) : Inv t := by
  cases e
  exact Lasting.inv_of_fcFacts { h.lasting with } (h.fcReady_eq_true hp)
    (.spdInput (by simp) rfl (h.imZero (by simp [hp])))

theorem Inv.execSpdWindow (h : Inv s) (hp : s.phase = Phase.spdWindow) (e : execSpdWindow s = .next t) : Inv t := by
  cases e
  exact Lasting.inv_of_fcFacts { h.lasting with re := Memory.wf_fill _ _ } (h.fcReady_eq_true hp)
    (.spdInput (by simp) (h.crit_eq_false hp) (h.imZero (by simp [hp])))

theorem Inv.execSpdFft (h : Inv s) (hp : s.phase = Phase.spdFft) (e : execSpdFft s = .next t) : Inv t := by
  cases e
  exact Lasting.inv_of_fcFacts { h.lasting with re := Memory.wf_fill _ _, im := Memory.wf_fill _ _ }
    (h.fcReady_eq_true hp) (.plain (by simp) (h.crit_eq_false hp))

theorem Inv.execSpdMag (h : Inv s) (hp : s.phase = Phase.spdMag) (e : execSpdMag s = .next t) : Inv t := by
  cases e
  exact Lasting.inv_of_fcFacts { h.lasting with re := Memory.wf_fill _ _ }
    (h.fcReady_eq_true hp) (.plain (by simp) (h.crit_eq_false hp))

/-- PeakFreq is the frequency of a searched bin (R163 (b)). -/
theorem binFrequency_peakFreq {c : Params} (hc : c.wf = true) (m : Nat → Num) : BinFrequency c (peakFreq c m) :=
  have ⟨lo, hi⟩ := peakBin_range c m (Params.kMin_le hc)
  ⟨peakBin c m, lo, hi, rfl⟩

theorem Inv.execSpdPeak (h : Inv s) (hp : s.phase = Phase.spdPeak) (e : execSpdPeak s = .next t) : Inv t := by
  cases e
  exact Lasting.inv_of_fcFacts { h.lasting with } (h.fcReady_eq_true hp)
    (.calLookup rfl (h.crit_eq_false hp) (binFrequency_peakFreq h.params _))

theorem Inv.execCalLookup (h : Inv s) (hp : s.phase = Phase.calLookup) (e : execCalLookup s = .next t) : Inv t := by
  cases e
  exact Lasting.inv_of_fcFacts { h.lasting with } (h.fcReady_eq_true hp)
    (.fcPublish rfl (h.crit_eq_false hp) (h.rawFreq (by simp [hp])) rfl)

/-- What is published is Calibrate of a searched bin's frequency, which the update has kept in RAW_FREQ (R71 (a)). -/
theorem Inv.execFcPublish (h : Inv s) (hp : s.phase = Phase.fcPublish) (e : execFcPublish s = .next t) : Inv t := by
  cases e
  have ready : s.flags.fcReady = true := h.fcReady_eq_true hp
  refine Lasting.inv_of_resting ?_ (by simp) (h.crit_eq_false hp)
  exact { h.lasting with
    fcValid := fun _ => ready
    published := fun _ => ⟨s.fc.rawFreq, h.rawFreq (by simp [hp]), h.corrT hp⟩ }

/-! ## The waveform path -/

theorem Inv.execWaInitRun (h : Inv s) (hp : s.phase = Phase.waInitRun) (e : execWaInitRun s = .next t) : Inv t := by
  cases e
  exact Lasting.inv_of_resting { h.lasting with waValid := fun _ => rfl } (by simp) (h.crit_eq_false hp)

/-- MINC starts at CONV_MAX, outside the clipping margin (R211). -/
theorem Inv.execWaP1Start (h : Inv s) (hp : s.phase = Phase.waP1Start) (e : execWaP1Start s = .next t) : Inv t := by
  cases e
  have hm := Params.margin_lt h.params
  refine Lasting.inv_of_waFacts { h.lasting with } (h.waReady_eq_true hp) (h.crit_eq_false hp)
    (.waP1Sample rfl (le_refl _) (fun hlow => ?_) nofun)
  have : (1023 : Nat) ≤ s.cfg.clipMargin := hlow
  rw [convMax] at hm
  omega

/-- Where the least count is within the margin after a sample, it was so before, or the sample is clipped (R212). -/
theorem clipf_tally1 (h : Inv s) (hp : s.phase = Phase.waP1Sample) (c : Count10)
    (hlow : (tally1 c s).wa.minc.val ≤ s.cfg.clipMargin) : (tally1 c s).flags.clipf = true := by
  simp only [tally1_flags, Bool.or_eq_true, clips_iff]
  rcases min_choice s.wa.minc c with e | e <;> rw [tally1_wa] at hlow <;> simp only [e] at hlow
  · exact .inl (h.lowClip (by simp [hp]) hlow)
  · exact .inr (.inl hlow)

theorem Inv.tally1 (h : Inv s) (hp : s.phase = Phase.waP1Sample) (c : Count10) : Inv (tally1 c s) := by
  have l : Lasting (Machine.tally1 c s) := { h.lasting with }
  have ready : s.flags.waReady = true := h.waReady_eq_true hp
  have crit : s.flags.crit = false := h.crit_eq_false hp
  have mark : s.tMark ≤ s.env.now := h.passMark (by simp [hp])
  have envelope : min s.wa.minc c ≤ max s.wa.maxc c := (min_le_right _ _).trans (le_max_right _ _)
  by_cases ended : windowOver s.cfg.tPass1 s = true
  · exact l.inv_of_waFacts ready crit
      (.waP1Finish (by simp [ended]) mark (clipf_tally1 h hp c) envelope (Nat.succ_pos _))
  · exact l.inv_of_waFacts ready crit
      (.waP1Sample (by simp [ended, hp]) mark (clipf_tally1 h hp c) fun _ => envelope)

theorem Inv.execWaP1Finish (h : Inv s) (hp : s.phase = Phase.waP1Finish) (e : execWaP1Finish s = .next t) : Inv t := by
  cases e
  exact Lasting.inv_of_waFacts { h.lasting with } (h.waReady_eq_true hp) (h.crit_eq_false hp)
    (.waP2Sample rfl (le_refl _) Num.toReal_zero.ge fun hr => vppOf_nonneg h.params hr _ _ _)

theorem Inv.tally2 (h : Inv s) (hp : s.phase = Phase.waP2Sample) (c : Count10) : Inv (tally2 c s) := by
  have l : Lasting (Machine.tally2 c s) := { h.lasting with }
  have ready : s.flags.waReady = true := h.waReady_eq_true hp
  have crit : s.flags.crit = false := h.crit_eq_false hp
  have mark : s.tMark ≤ s.env.now := h.passMark (by simp [hp])
  have sumsq : 0 ≤ (Num.add s.wa.sumsq (sqDev s.cfg s.wa.dcoff c)).toReal := by
    rw [Num.toReal_add, sqDev_toReal]
    exact add_nonneg (h.sumsq (by simp [hp])) (sq_nonneg _)
  have vppT (hr) : 0 ≤ s.wa.vppT.toReal := h.vppT hr (by simp [hp])
  by_cases ended : windowOver s.cfg.tPass2 s = true
  · exact l.inv_of_waFacts ready crit (.waP2Finish (by simp [ended]) mark sumsq vppT (Nat.succ_pos _))
  · exact l.inv_of_waFacts ready crit (.waP2Sample (by simp [ended, hp]) mark sumsq vppT)

/-- Half a voltage that is not negative, over an RMS at least the noise floor (R216 (d)). -/
theorem crestOf_nonneg {c : Params} (hc : c.wf = true) (hr : c.numerics = .reference) {vpp : Num} (hv : 0 ≤ vpp.toReal)
    (rms : Num) : 0 ≤ (crestOf c vpp rms).toReal := by
  rw [crestOf_toReal hc hr]
  split
  · exact le_refl _
  · next hlt =>
    have hrms : 0 ≤ rms.toReal := (Params.floor_pos hc hr).le.trans (not_lt.1 hlt)
    positivity

theorem Inv.execWaP2Finish (h : Inv s) (hp : s.phase = Phase.waP2Finish) (e : execWaP2Finish s = .next t) : Inv t := by
  cases e
  have vppT (hr) : 0 ≤ s.wa.vppT.toReal := h.vppT hr (by simp [hp])
  exact Lasting.inv_of_waFacts { h.lasting with } (h.waReady_eq_true hp) (h.crit_eq_false hp)
    (.waClassify rfl vppT fun hr => crestOf_nonneg h.params hr (vppT hr) _)

theorem Inv.execWaClassify (h : Inv s) (hp : s.phase = Phase.waClassify) (e : execWaClassify s = .next t) : Inv t := by
  cases e
  exact Lasting.inv_of_waFacts { h.lasting with } (h.waReady_eq_true hp) (h.crit_eq_false hp)
    (.waPubVpp rfl fun hr => h.vppT hr (by simp [hp]))

theorem Inv.execWaPubVpp (h : Inv s) (hp : s.phase = Phase.waPubVpp) (e : execWaPubVpp s = .next t) : Inv t := by
  cases e
  have vppT (hr) : 0 ≤ s.wa.vppT.toReal := h.vppT hr (by simp [hp])
  exact Lasting.inv_of_waFacts { h.lasting with vpp := fun hr _ => vppT hr } (h.waReady_eq_true hp)
    (h.crit_eq_false hp) (.waPubCls rfl vppT)

theorem Inv.execWaPubCls (h : Inv s) (hp : s.phase = Phase.waPubCls) (e : execWaPubCls s = .next t) : Inv t := by
  cases e
  have ready : s.flags.waReady = true := h.waReady_eq_true hp
  refine Lasting.inv_of_resting ?_ (by simp) (h.crit_eq_false hp)
  exact { h.lasting with waValid := fun _ => ready, vpp := fun hr _ => h.vpp hr (.inr hp) }

/-! ## Every step -/

theorem Inv.of_seqMove (h : Inv s) (m : SeqMove s t) : Inv t := by
  cases m with
  | idle hp e => cases e; exact h
  | fcInitRun hp e => exact h.execFcInitRun hp e
  | fcCritEnter hp e => exact h.execFcCritEnter hp e
  | fcAcqWaits hp guard e => rw [e]; exact h
  | fcAcqSamples hp guard hi c hc drawn e => rw [e]; exact (h.of_sameBlock (sameBlock_afterRaw s)).takeSample hp c
  | fcCritExit hp e => exact h.execFcCritExit hp e
  | spdWindow hp e => exact h.execSpdWindow hp e
  | spdFft hp e => exact h.execSpdFft hp e
  | spdMag hp e => exact h.execSpdMag hp e
  | spdPeak hp e => exact h.execSpdPeak hp e
  | calLookup hp e => exact h.execCalLookup hp e
  | fcPublish hp e => exact h.execFcPublish hp e
  | waInitRun hp e => exact h.execWaInitRun hp e
  | waP1Start hp e => exact h.execWaP1Start hp e
  | waP1Sample hp e => rw [e]; exact (h.of_sameBlock (sameBlock_afterConv s)).tally1 hp _
  | waP1Finish hp e => exact h.execWaP1Finish hp e
  | waP2Sample hp e => rw [e]; exact (h.of_sameBlock (sameBlock_afterConv s)).tally2 hp _
  | waP2Finish hp e => exact h.execWaP2Finish hp e
  | waClassify hp e => exact h.execWaClassify hp e
  | waPubVpp hp e => exact h.execWaPubVpp hp e
  | waPubCls hp e => exact h.execWaPubCls hp e

theorem Inv.of_stepMove (h : Inv s) (m : StepMove s t) : Inv t := by
  cases m with
  | seq _ m => exact (h.of_sameBlock (sameBlock_nextAgent s)).of_seqMove m
  | stay same => exact h.of_sameBlock same
  | accept u same p acc e => rw [e]; exact (h.of_sameBlock same).goto_of_accepts acc
  | reset u same _ _ e => rw [e]; exact inv_resetBlock u (h.of_sameBlock same).params

end

/-- Settles O54: a step makes one of the moves, and each move keeps the invariant. -/
theorem stepKeepsInv : Obligations.StepKeepsInv := by
  unfold Obligations.StepKeepsInv
  intro s t h hs
  exact h.of_stepMove (stepMove_of_step hs)

/-- Settles O53: the state after reset is a reset block of the test parameters, which meet their constraints. -/
theorem resetMeetsInv : Obligations.ResetMeetsInv := inv_resetBlock State.reset (by decide +kernel)

end Sys2Proof.Safety
end

section
/-! The writers of the published outputs and of the flags (10_state.md R23, R27: O49, O50), and the two statements about reset
and about a sequencer step (O40, O42). -/

namespace Sys2Proof.Machine

/-! ## What a sequencer step writes -/

section
variable {s t : State} (m : SeqMove s t)
include m

theorem seqMove_corrFreq :
    t.pub.corrFreq = s.pub.corrFreq ∨ (s.phase = Phase.fcPublish ∧ t.pub.corrFreq = s.fc.corrT) := by
  cases m with
  | fcPublish hp e => cases e; exact .inr ⟨hp, rfl⟩
  | _ => rename_i e; cases e; exact .inl rfl

theorem seqMove_vpp : t.pub.vpp = s.pub.vpp ∨ (s.phase = Phase.waPubVpp ∧ t.pub.vpp = s.wa.vppT) := by
  cases m with
  | waPubVpp hp e => cases e; exact .inr ⟨hp, rfl⟩
  | _ => rename_i e; cases e; exact .inl rfl

theorem seqMove_wclass : t.pub.wclass = s.pub.wclass ∨ (s.phase = Phase.waPubCls ∧ t.pub.wclass = s.wa.clsT) := by
  cases m with
  | waPubCls hp e => cases e; exact .inr ⟨hp, rfl⟩
  | _ => rename_i e; cases e; exact .inl rfl

theorem seqMove_crit :
    t.flags.crit = s.flags.crit ∨
    ((s.phase = Phase.fcCritEnter ∧ t.flags.crit = true) ∨ (s.phase = Phase.fcCritExit ∧ t.flags.crit = false)) := by
  cases m with
  | fcCritEnter hp e => cases e; exact .inr (.inl ⟨hp, rfl⟩)
  | fcCritExit hp e => cases e; exact .inr (.inr ⟨hp, rfl⟩)
  | _ => rename_i e; cases e; exact .inl rfl

theorem seqMove_fcReady :
    t.flags.fcReady = s.flags.fcReady ∨ (s.phase = Phase.fcInitRun ∧ t.flags.fcReady = true) := by
  cases m with
  | fcInitRun hp e => cases e; exact .inr ⟨hp, rfl⟩
  | _ => rename_i e; cases e; exact .inl rfl

theorem seqMove_waReady :
    t.flags.waReady = s.flags.waReady ∨ (s.phase = Phase.waInitRun ∧ t.flags.waReady = true) := by
  cases m with
  | waInitRun hp e => cases e; exact .inr ⟨hp, rfl⟩
  | _ => rename_i e; cases e; exact .inl rfl

theorem seqMove_fcValid :
    t.flags.fcValid = s.flags.fcValid ∨ (s.phase = Phase.fcPublish ∧ t.flags.fcValid = true) := by
  cases m with
  | fcPublish hp e => cases e; exact .inr ⟨hp, rfl⟩
  | _ => rename_i e; cases e; exact .inl rfl

theorem seqMove_waValid :
    t.flags.waValid = s.flags.waValid ∨ (s.phase = Phase.waPubCls ∧ t.flags.waValid = true) := by
  cases m with
  | waPubCls hp e => cases e; exact .inr ⟨hp, rfl⟩
  | _ => rename_i e; cases e; exact .inl rfl

/-- A sample of pass 1 sets CLIPF or leaves it (R212). -/
theorem seqMove_clipf :
    t.flags.clipf = s.flags.clipf ∨
    ((s.phase = Phase.waP1Sample ∧ t.flags.clipf = true) ∨ (s.phase = Phase.waP1Start ∧ t.flags.clipf = false)) := by
  cases m with
  | waP1Start hp e => cases e; exact .inr (.inr ⟨hp, rfl⟩)
  | waP1Sample hp e =>
    have clipf : t.flags.clipf = (s.flags.clipf || clips s.cfg (convExchange waChannel s).1) := by rw [e]; rfl
    cases hc : clips s.cfg (convExchange waChannel s).1 with
    | true => exact .inr (.inl ⟨hp, by simp [clipf, hc]⟩)
    | false => exact .inl (by simp [clipf, hc])
  | _ => rename_i e; cases e; exact .inl rfl

theorem seqMove_found : t.flags.found = s.flags.found ∨ s.phase = Phase.calLookup := by
  cases m with
  | calLookup hp e => exact .inr hp
  | _ => rename_i e; cases e; exact .inl rfl

end

/-- Apart from the host's RESET, only the sequencer writes a published output or a flag. -/
theorem step_pub_flags {s t : State} (h : step s = .next t)
    (noReset : ¬ ((nextAgent s).1 = .host ∧ s.env.script.head? = some .reset)) :
    (t.pub = s.pub ∧ t.flags = s.flags) ∨ ((nextAgent s).1 = .seq ∧ SeqMove (nextAgent s).2 t) := by
  cases stepMove_of_step h with
  | seq agent m => exact .inr ⟨agent, m⟩
  | stay same => exact .inl ⟨same.pub, same.flags⟩
  | accept u same p acc e => rw [e]; exact .inl ⟨same.pub, same.flags⟩
  | reset u same agent stmt e => exact absurd ⟨agent, stmt⟩ noReset

/-- Settles O49, from the writer of each output among the moves of the sequencer. -/
theorem publishedOutputsHaveOneWriter : Obligations.PublishedOutputsHaveOneWriter := by
  unfold Obligations.PublishedOutputsHaveOneWriter
  intro s t h noReset
  rcases step_pub_flags h noReset with ⟨pub, -⟩ | ⟨agent, m⟩
  · rw [pub]; exact ⟨absurd rfl, absurd rfl, absurd rfl⟩
  · have corrFreq := seqMove_corrFreq m
    have vpp := seqMove_vpp m
    have wclass := seqMove_wclass m
    simp only [nextAgent_pub, nextAgent_phase, nextAgent_fc, nextAgent_wa] at corrFreq vpp wclass
    exact ⟨fun hne => ⟨agent, corrFreq.resolve_left hne⟩, fun hne => ⟨agent, vpp.resolve_left hne⟩,
      fun hne => ⟨agent, wclass.resolve_left hne⟩⟩

/-- Settles O50, from the writers of each flag among the moves of the sequencer. -/
theorem flagsHaveTheirWriters : Obligations.FlagsHaveTheirWriters := by
  unfold Obligations.FlagsHaveTheirWriters
  intro s t h noReset
  rcases step_pub_flags h noReset with ⟨-, flags⟩ | ⟨agent, m⟩
  · rw [flags]; exact ⟨absurd rfl, absurd rfl, absurd rfl, absurd rfl, absurd rfl, absurd rfl, absurd rfl⟩
  · have crit := seqMove_crit m
    have fcReady := seqMove_fcReady m
    have waReady := seqMove_waReady m
    have fcValid := seqMove_fcValid m
    have waValid := seqMove_waValid m
    have clipf := seqMove_clipf m
    have found := seqMove_found m
    simp only [nextAgent_flags, nextAgent_phase] at crit fcReady waReady fcValid waValid clipf found
    exact ⟨fun hne => ⟨agent, crit.resolve_left hne⟩, fun hne => ⟨agent, fcReady.resolve_left hne⟩,
      fun hne => ⟨agent, waReady.resolve_left hne⟩, fun hne => ⟨agent, fcValid.resolve_left hne⟩,
      fun hne => ⟨agent, waValid.resolve_left hne⟩, fun hne => ⟨agent, clipf.resolve_left hne⟩,
      fun hne => ⟨agent, found.resolve_left hne⟩⟩

/-! ## Reset, and the step of a phase -/

/-- Settles O40: the values of State.reset, and STATUS computed of them. -/
theorem resetLeavesTheBlockIdle : Obligations.ResetLeavesTheBlockIdle := by
  unfold Obligations.ResetLeavesTheBlockIdle
  exact ⟨rfl, rfl, rfl, rfl, rfl, rfl, by decide, rfl⟩

/-- Settles O42: the schedule hands the step to the sequencer, which runs what PHASE decodes to. -/
theorem stepRunsThePhase : Obligations.StepRunsThePhase := by
  unfold Obligations.StepRunsThePhase
  intro s i rest hs hd
  have decoded : decodePhase s.phase = .ok i := hd
  rw [step, nextAgent_cons s .seq rest hs, agentStep, seqStep, decoded]

end Sys2Proof.Machine
end

section
/-! The host port, the environment and the independence of the two units (20_memory.md: O11, O12, O13, O17, O51, O52). -/

namespace Sys2Proof.Machine

/-! ## What a host read returns (R64) -/

theorem hostRead_cmd (s : State) : (hostRead 0#3 s).1 = .word 0#32 := rfl

theorem hostRead_status (s : State) : (hostRead 1#3 s).1 = .word (statusWord s) := rfl

theorem hostRead_corrFreq {s : State} (valid : s.flags.fcValid = true) : (hostRead 2#3 s).1 = .num s.pub.corrFreq := by
  simp [hostRead, valid]

theorem hostRead_vpp {s : State} (valid : s.flags.waValid = true) : (hostRead 3#3 s).1 = .num s.pub.vpp := by
  simp [hostRead, vppSpecified, valid]

theorem hostRead_wclass {s : State} (valid : s.flags.waValid = true) :
    (hostRead 4#3 s).1 = .word (s.pub.wclass.code.setWidth 32) := by
  simp [hostRead, valid]

/-- The indices above the five registers read 0. -/
theorem hostRead_unused (s : State) {idx : BitVec 3} (h : 5 ≤ idx.toNat) : (hostRead idx s).1 = .word 0#32 := by
  have other (k : BitVec 3) (hk : k.toNat < 5) : idx ≠ k := by rintro rfl; omega
  simp [hostRead, other 1#3, other 2#3, other 3#3, other 4#3]

/-- Settles O11, register by register; the zero-extended code of each class is its number. -/
theorem hostReadsReturnTheRegisters : Obligations.HostReadsReturnTheRegisters := by
  unfold Obligations.HostReadsReturnTheRegisters
  intro s
  refine ⟨hostRead_cmd s, hostRead_status s, hostRead_corrFreq, hostRead_vpp, fun valid => ?_,
    fun idx h => hostRead_unused s h⟩
  rw [hostRead_wclass valid]
  cases s.pub.wclass <;> rfl

/-! ## What a host access leaves alone (R60) -/

theorem regWrite_ignored (s : State) {idx : BitVec 3} (w : Word) (h : idx ≠ 0#3) : regWrite idx w s = .next s := by
  rw [regWrite, if_neg h]

/-- Settles O12: a read writes the host's last value and the counter of free values, a write off CMD nothing. -/
theorem hostPortTouchesNoBlockState : Obligations.HostPortTouchesNoBlockState := by
  unfold Obligations.HostPortTouchesNoBlockState
  intro s idx
  exact ⟨⟨_, _, rfl, rfl⟩, fun w h => regWrite_ignored s w h⟩

/-- Settles O13: WA_VALID stays set over WA_PUB_VPP, so the reads of VPP and WCLASS return the registers before and after it,
and the step writes VPP alone of them. -/
theorem newVppWithOldClass : Obligations.NewVppWithOldClass := by
  unfold Obligations.NewVppWithOldClass
  intro s valid
  exact ⟨_, rfl, hostRead_vpp valid, (hostRead_wclass valid).trans (hostRead_wclass valid).symm, hostRead_vpp valid⟩

/-! ## Where FC_ACQ stops (R62, U4) -/

theorem execFcAcq_noSuchElement {s : State} (guard : acqEnabled s = true) (hi : s.cfg.n ≤ s.idx) :
    execFcAcq s = .fault (.noSuchElement s.idx) := by
  rcases execFcAcq_cases s with ⟨closed, -⟩ | ⟨-, inside, -⟩ | ⟨-, -, e⟩
  · rw [guard] at closed; cases closed
  · omega
  · exact e

theorem rawRead_outOfRange {s : State} {c : Nat} {rest : List Nat} (hq : s.env.rawQ = c :: rest)
    (hc : s.cfg.fcMaxCount < c) : rawRead s = .error (.rawAnswerOutOfRange c) := by
  simp [rawRead, hq, not_le.2 hc]

theorem execFcAcq_rawRefused {s : State} {r : Refusal} (guard : acqEnabled s = true) (hi : s.idx < s.cfg.n)
    (refused : rawRead s = .error r) : execFcAcq s = .refused r := by
  rw [execFcAcq, if_pos guard, if_pos hi, refused]

/-- Settles O17: the premise opens the guard, and the two stops are those of the element and of the raw answer. -/
theorem acquisitionStopsOutsideItsContract : Obligations.AcquisitionStopsOutsideItsContract := by
  unfold Obligations.AcquisitionStopsOutsideItsContract
  intro s _ enabled
  have guard : acqEnabled s = true := (acqEnabled_iff s).2 (enabled.imp_right Nat.le_sub_of_add_le')
  exact ⟨execFcAcq_noSuchElement guard, fun c rest hi hq hc => execFcAcq_rawRefused guard hi (rawRead_outOfRange hq hc)⟩

/-! ## The environment over a step (R66, R67, R272) -/

section
variable {s t : State} (m : SeqMove s t)
include m

theorem seqMove_cfg : t.cfg = s.cfg := by
  cases m with
  | _ => rename_i e; cases e; rfl

theorem seqMove_now : t.env.now = s.env.now := by
  cases m with
  | _ => rename_i e; cases e; rfl

/-- RawRead is called where FC_ACQ takes a sample. -/
theorem seqMove_rawCalls :
    t.env.rawCalls = s.env.rawCalls ∨ (s.phase = Phase.fcAcq ∧ t.env.rawCalls = s.env.rawCalls + 1) := by
  cases m with
  | fcAcqSamples hp guard hi c hc drawn e => rw [e]; exact .inr ⟨hp, rfl⟩
  | _ => rename_i e; cases e; exact .inl rfl

/-- ConvExchange is called where a pass takes a sample. -/
theorem seqMove_convCalls :
    t.env.convCalls = s.env.convCalls ∨
    ((s.phase = Phase.waP1Sample ∨ s.phase = Phase.waP2Sample) ∧ t.env.convCalls = s.env.convCalls + 1) := by
  cases m with
  | waP1Sample hp e => rw [e]; exact .inr ⟨.inl hp, rfl⟩
  | waP2Sample hp e => rw [e]; exact .inr ⟨.inr hp, rfl⟩
  | _ => rename_i e; cases e; exact .inl rfl

end

/-- Neither a parameter, nor the clock, nor the two sample sources differ. -/
structure SameSources (s t : State) : Prop where
  cfg       : t.cfg = s.cfg
  now       : t.env.now = s.env.now
  rawCalls  : t.env.rawCalls = s.env.rawCalls
  convCalls : t.env.convCalls = s.env.convCalls

theorem sameSources_nextAgent (s : State) : SameSources s (nextAgent s).2 := by
  constructor <;> simp

/-- No statement of the host, RESET among them, touches the clock or a source. -/
theorem sameSources_hostStep {s t : State} (h : hostStep s = .next t) : SameSources s t := by
  rcases hostStep_cases s with
      e | e | ⟨idx, e⟩ | ⟨-, e⟩ | ⟨-, e | ⟨-, e⟩ | e | ⟨-, e⟩⟩ <;> rw [e] at h <;> cases h <;>
    exact ⟨rfl, rfl, rfl, rfl⟩

/-- Settles O51, by the agent that takes the step: the sequencer calls a source only in a sampling phase, the clock moves NOW
and nothing else, the host neither. -/
theorem environmentMovesByItsRules : Obligations.EnvironmentMovesByItsRules := by
  unfold Obligations.EnvironmentMovesByItsRules
  intro s t h
  obtain ⟨cfg, now, rawCalls, convCalls⟩ := sameSources_nextAgent s
  rcases step_cases s with ⟨agent, e⟩ | ⟨d, agent, e⟩ | ⟨-, e⟩ <;> rw [e] at h
  · have m := seqMove_of_seqStep h
    have now' : t.env.now = s.env.now := (seqMove_now m).trans now
    have raw := seqMove_rawCalls m
    have conv := seqMove_convCalls m
    simp only [nextAgent_phase, nextAgent_rawCalls, nextAgent_convCalls] at raw conv
    exact ⟨(seqMove_cfg m).trans cfg, now'.ge, fun hne => absurd now' hne,
      raw.imp_right fun ⟨hp, hr⟩ => ⟨agent, hp, hr⟩, conv.imp_right fun ⟨hp, hc⟩ => ⟨agent, hp, hc⟩⟩
  · cases h
    exact ⟨cfg, now.ge.trans (Nat.le_add_right _ _), fun _ => ⟨d, agent⟩, .inl rawCalls, .inl convCalls⟩
  · have same := sameSources_hostStep h
    have now' : t.env.now = s.env.now := same.now.trans now
    exact ⟨same.cfg.trans cfg, now'.ge, fun hne => absurd now' hne, .inl (same.rawCalls.trans rawCalls),
      .inl (same.convCalls.trans convCalls)⟩

/-! ## The two units (R71, R122, R124) -/

/-- The waveform unit as it was: its registers, its outputs and its flags. -/
structure SameWaveform (s t : State) : Prop where
  wa      : t.wa = s.wa
  vpp     : t.pub.vpp = s.pub.vpp
  wclass  : t.pub.wclass = s.pub.wclass
  waValid : t.flags.waValid = s.flags.waValid
  waReady : t.flags.waReady = s.flags.waReady
  clipf   : t.flags.clipf = s.flags.clipf

/-- The frequency unit as it was: the sample block, its registers, its output and its flags. -/
structure SameFrequency (s t : State) : Prop where
  blk      : t.blk = s.blk
  fc       : t.fc = s.fc
  idx      : t.idx = s.idx
  corrFreq : t.pub.corrFreq = s.pub.corrFreq
  fcValid  : t.flags.fcValid = s.flags.fcValid
  fcReady  : t.flags.fcReady = s.flags.fcReady
  crit     : t.flags.crit = s.flags.crit
  found    : t.flags.found = s.flags.found

theorem SameBlock.sameWaveform {s t : State} (h : SameBlock s t) : SameWaveform s t := by
  constructor <;> simp only [h.wa, h.pub, h.flags]

theorem SameBlock.sameFrequency {s t : State} (h : SameBlock s t) : SameFrequency s t := by
  constructor <;> simp only [h.blk, h.fc, h.idx, h.pub, h.flags]

theorem sameWaveform_of_seqMove {s t : State} (m : SeqMove s t) (hp : s.phase ∈ Safety.fcPhases) : SameWaveform s t := by
  cases m with
  | waInitRun hw | waP1Start hw | waP1Sample hw | waP1Finish hw | waP2Sample hw | waP2Finish hw | waClassify hw
  | waPubVpp hw | waPubCls hw => rw [hw] at hp; exact absurd hp (by decide)
  | _ => rename_i e; cases e; exact ⟨rfl, rfl, rfl, rfl, rfl, rfl⟩

theorem sameFrequency_of_seqMove {s t : State} (m : SeqMove s t) (hp : s.phase ∈ Safety.waPhases) :
    SameFrequency s t := by
  cases m with
  | fcInitRun hf | fcCritEnter hf | fcAcqWaits hf | fcAcqSamples hf | fcCritExit hf | spdWindow hf | spdFft hf
  | spdMag hf | spdPeak hf | calLookup hf | fcPublish hf => rw [hf] at hp; exact absurd hp (by decide)
  | _ => rename_i e; cases e; exact ⟨rfl, rfl, rfl, rfl, rfl, rfl, rfl, rfl⟩

/-- While the block is busy it accepts no command: a step is a move of the sequencer, or leaves the block as it was, or is the
host's RESET. -/
theorem step_of_busy {s t : State} (h : step s = .next t) (busy : s.phase ≠ Phase.idle)
    (noReset : ¬ ((nextAgent s).1 = .host ∧ s.env.script.head? = some .reset)) :
    SeqMove (nextAgent s).2 t ∨ SameBlock s t := by
  cases stepMove_of_step h with
  | seq _ m => exact .inl m
  | stay same => exact .inr same
  | accept u same p acc _ =>
    have idle : u.phase = Phase.idle := by cases acc <;> assumption
    exact absurd (same.phase ▸ idle) busy
  | reset u _ agent stmt _ => exact absurd ⟨agent, stmt⟩ noReset

theorem sameWaveform_step {s t : State} (h : step s = .next t) (hp : s.phase ∈ Safety.fcPhases)
    (noReset : ¬ ((nextAgent s).1 = .host ∧ s.env.script.head? = some .reset)) : SameWaveform s t := by
  have busy : s.phase ≠ Phase.idle := by intro idle; rw [idle] at hp; exact absurd hp (by decide)
  rcases step_of_busy h busy noReset with m | same
  · have moved := sameWaveform_of_seqMove m (by rwa [nextAgent_phase])
    constructor <;> simp [moved.wa, moved.vpp, moved.wclass, moved.waValid, moved.waReady, moved.clipf]
  · exact same.sameWaveform

theorem sameFrequency_step {s t : State} (h : step s = .next t) (hp : s.phase ∈ Safety.waPhases)
    (noReset : ¬ ((nextAgent s).1 = .host ∧ s.env.script.head? = some .reset)) : SameFrequency s t := by
  have busy : s.phase ≠ Phase.idle := by intro idle; rw [idle] at hp; exact absurd hp (by decide)
  rcases step_of_busy h busy noReset with m | same
  · have moved := sameFrequency_of_seqMove m (by rwa [nextAgent_phase])
    constructor <;> simp [moved.blk, moved.fc, moved.idx, moved.corrFreq, moved.fcValid, moved.fcReady, moved.crit,
      moved.found]
  · exact same.sameFrequency

/-- Settles O52: an update's phases are busy ones, where beside a RESET only the sequencer writes to the block, and its moves
from a phase of one unit write nothing of the other. -/
theorem unitsDoNotInterfere : Obligations.UnitsDoNotInterfere := by
  unfold Obligations.UnitsDoNotInterfere
  intro s t h noReset
  refine ⟨fun hp => ?_, fun hp => ?_⟩
  · obtain ⟨wa, vpp, wclass, waValid, waReady, clipf⟩ := sameWaveform_step h hp noReset
    exact ⟨wa, vpp, wclass, waValid, waReady, clipf⟩
  · obtain ⟨blk, fc, idx, corrFreq, fcValid, fcReady, crit, found⟩ := sameFrequency_step h hp noReset
    exact ⟨blk, fc, idx, corrFreq, fcValid, fcReady, crit, found⟩

end Sys2Proof.Machine
end

section
/-! The encodings (30_encoding.md R90 to R95): the decoder and the encoder say what the two opcode tables say (O1 to O4). -/

namespace Sys2Proof

/-! ## The decoder, by the rows of its tables -/

/-- In a table without a repeated code, looking a code up is being a row. -/
theorem findCode_eq_some_iff {n : Nat} (c : BitVec n) (i : Instr) :
    ∀ t : List (BitVec n × Instr), (t.map Prod.fst).Nodup → (findCode c t = some i ↔ (c, i) ∈ t)
  | [], _ => by simp [findCode]
  | (k, j) :: rest, distinct => by
    obtain ⟨fresh, distinct⟩ := List.nodup_cons.1 distinct
    have absent : (k, i) ∉ rest := fun h => fresh (List.mem_map.2 ⟨(k, i), h, rfl⟩)
    rw [findCode, List.mem_cons, Prod.mk.injEq]
    by_cases h : k = c
    · subst h; simp [absent, eq_comm]
    · simp [h, Ne.symm h, findCode_eq_some_iff c i rest distinct]

theorem decodeCmd_eq_ok_iff (w : Word) (i : Instr) : decodeCmd w = .ok i ↔ (cmdOp w, i) ∈ commandTable := by
  rw [← findCode_eq_some_iff (cmdOp w) i commandTable (by decide), decodeCmd]
  cases findCode (cmdOp w) commandTable <;> simp

theorem decodePhase_eq_ok_iff (p : BitVec 5) (i : Instr) : decodePhase p = .ok i ↔ (p, i) ∈ phaseTable := by
  rw [← findCode_eq_some_iff p i phaseTable (by decide), decodePhase]
  cases findCode p phaseTable <;> simp

theorem decodeCmd_reserved {w : Word} (h : ∀ i, decodeCmd w ≠ .ok i) :
    decodeCmd w = .error (.reservedCommand (cmdOp w)) := by
  unfold decodeCmd at h ⊢
  cases hf : findCode (cmdOp w) commandTable with
  | none => rfl
  | some i => rw [hf] at h; exact absurd rfl (h i)

theorem decodePhase_reserved {p : BitVec 5} (h : ∀ i, decodePhase p ≠ .ok i) :
    decodePhase p = .error (.reservedPhase p) := by
  unfold decodePhase at h ⊢
  cases hf : findCode p phaseTable with
  | none => rfl
  | some i => rw [hf] at h; exact absurd rfl (h i)

/-! ## The low byte of a command word (R91) -/

theorem setWidth_cmdOp (w : Word) : (cmdOp w).setWidth 32 = w &&& 0x000000FF#32 := by
  apply BitVec.eq_of_toNat_eq
  have mask : w.toNat &&& 255 = w.toNat % 2 ^ 8 := Nat.and_two_pow_sub_one_eq_mod w.toNat 8
  have small : w.toNat % 256 < 4294967296 := by omega
  simp [cmdOp, mask, Nat.mod_eq_of_lt small]

theorem cmdOp_eq_iff (w : Word) (op : BitVec 8) : cmdOp w = op ↔ w &&& 0x000000FF#32 = op.setWidth 32 := by
  rw [← setWidth_cmdOp]
  exact ⟨congrArg _, fun h => by simpa using congrArg (BitVec.setWidth 8) h⟩

/-! ## The encoder, by the rows of the same tables -/

theorem encode_of_mem_commandTable : ∀ row ∈ commandTable, encode row.2 = .cmdw (row.1.setWidth 32) := by decide

theorem encode_of_mem_phaseTable : ∀ row ∈ phaseTable, encode row.2 = .phase5 row.1 := by decide

theorem encode_of_decodePhase {p : BitVec 5} {i : Instr} (h : decodePhase p = .ok i) : encode i = .phase5 p :=
  encode_of_mem_phaseTable (p, i) ((decodePhase_eq_ok_iff p i).1 h)

theorem encode_of_decodeCmd {w : Word} {i : Instr} (h : decodeCmd w = .ok i) : encode i = .cmdw (w &&& 0x000000FF#32) := by
  rw [← setWidth_cmdOp]
  exact encode_of_mem_commandTable (cmdOp w, i) ((decodeCmd_eq_ok_iff w i).1 h)

/-- Settles O4: a word that decodes is a row of its table, which the encoder reads backwards; two command words of one
instruction have one encoding, and so one low byte. -/
theorem encodeInvertsDecode : Obligations.EncodeInvertsDecode := by
  unfold Obligations.EncodeInvertsDecode
  refine ⟨fun p i h => encode_of_decodePhase h, fun w i h => encode_of_decodeCmd h, fun w w' i h h' => ?_⟩
  have same : CodeWord.cmdw (w &&& 0x000000FF#32) = .cmdw (w' &&& 0x000000FF#32) :=
    (encode_of_decodeCmd h).symm.trans (encode_of_decodeCmd h')
  exact (cmdOp_eq_iff w (cmdOp w')).2 ((CodeWord.cmdw.inj same).trans (setWidth_cmdOp w').symm)

/-! ## The tables, word by word -/

/-- Settles O1 by running the decoder on the listed words. -/
theorem tableWordsDecode : Obligations.TableWordsDecode := by
  unfold Obligations.TableWordsDecode
  decide

/-- Settles O2, from the four rows of the command table and the mask that takes the low byte. -/
theorem commandCodesByLowByte : Obligations.CommandCodesByLowByte := by
  unfold Obligations.CommandCodesByLowByte
  refine ⟨fun w i => ?_, fun w h => decodeCmd_reserved h⟩
  rw [decodeCmd_eq_ok_iff]
  simp [commandTable, cmdOp_eq_iff]

/-- Settles O3: the listed pairs are the rows of the phase table. -/
theorem phaseCodesOfTheTable : Obligations.PhaseCodesOfTheTable := by
  unfold Obligations.PhaseCodesOfTheTable
  exact ⟨decodePhase_eq_ok_iff, fun p h => decodePhase_reserved h⟩

end Sys2Proof
end

section
/-! How a step moves PHASE (30_encoding.md R96: O48), and where the sequencer has no micro-operation to run (R102: O47). -/

namespace Sys2Proof.Machine

/-- Each move of the sequencer is a row of the successor table; the three sampling phases hold or go on. -/
theorem seqMove_successor {s t : State} (m : SeqMove s t) : (s.phase, t.phase) ∈ Safety.successors := by
  cases m with
  | fcAcqWaits hp guard e => rw [e, hp]; decide
  | fcAcqSamples hp guard hi c hc drawn e =>
    rw [e, takeSample_phase, (sameBlock_afterRaw s).phase, hp]
    split <;> decide
  | waP1Sample hp e =>
    rw [e, tally1_phase, (sameBlock_afterConv s).phase, hp]
    split <;> decide
  | waP2Sample hp e =>
    rw [e, tally2_phase, (sameBlock_afterConv s).phase, hp]
    split <;> decide
  | idle hp e => cases e; rw [hp]; decide
  | _ hp e => cases e; rw [hp]; dsimp only; decide

/-- The host leaves PHASE, or takes it from IDLE to the first phase of an accepted command (R120), or resets it (R290). -/
theorem hostStep_phase {s t : State} (h : hostStep s = .next t) :
    t.phase = s.phase ∨
    (s.phase = Phase.idle ∧ (t.phase = Phase.fcInitRun ∨ t.phase = Phase.waInitRun ∨
      (t.phase = Phase.fcCritEnter ∧ s.flags.fcReady = true) ∨ (t.phase = Phase.waP1Start ∧ s.flags.waReady = true))) ∨
    (s.env.script.head? = some .reset ∧ t.phase = Phase.idle) := by
  rcases hostStep_cases s with
      e | e | ⟨idx, e⟩ | ⟨stmt, e⟩ | ⟨idle, e | ⟨ready, e⟩ | e | ⟨ready, e⟩⟩ <;> rw [e] at h <;> cases h
  · exact .inl rfl
  · exact .inl rfl
  · exact .inl rfl
  · exact .inr (.inr ⟨stmt, rfl⟩)
  · exact .inr (.inl ⟨idle, .inl rfl⟩)
  · exact .inr (.inl ⟨idle, .inr (.inr (.inl ⟨rfl, ready⟩))⟩)
  · exact .inr (.inl ⟨idle, .inr (.inl rfl)⟩)
  · exact .inr (.inl ⟨idle, .inr (.inr (.inr ⟨rfl, ready⟩))⟩)

/-- Settles O48, by the agent that takes the step. -/
theorem phaseFollowsTheSuccessorTable : Obligations.PhaseFollowsTheSuccessorTable := by
  unfold Obligations.PhaseFollowsTheSuccessorTable
  intro s t h
  rcases step_cases s with ⟨agent, e⟩ | ⟨d, agent, e⟩ | ⟨agent, e⟩ <;> rw [e] at h <;> rw [agent]
  · have row := seqMove_successor (seqMove_of_seqStep h)
    rw [nextAgent_phase] at row
    refine ⟨fun _ => row, fun ⟨_, other⟩ => ?_, fun other => ?_⟩ <;> cases other
  · cases h
    refine ⟨fun other => ?_, fun _ => nextAgent_phase s, fun other => ?_⟩ <;> cases other
  · have moved := hostStep_phase h
    rw [nextAgent_phase, nextAgent_flags, nextAgent_script] at moved
    refine ⟨fun other => ?_, fun ⟨_, other⟩ => ?_, fun _ => moved⟩ <;> cases other

theorem reserved_not_mem_phases {p : BitVec 5} (h : (0x0B ≤ p.toNat ∧ p.toNat ≤ 0x0F) ∨ 0x19 ≤ p.toNat) :
    p ∉ Safety.phases := by
  have listed : ∀ p ∈ Safety.phases, ¬ ((0x0B ≤ p.toNat ∧ p.toNat ≤ 0x0F) ∨ 0x19 ≤ p.toNat) := by decide
  exact fun hp => listed p hp h

/-- Settles O47: a reserved code is none of the twenty phases. -/
theorem reservedPhaseStops : Obligations.ReservedPhaseStops := by
  unfold Obligations.ReservedPhaseStops
  intro s rest hs reserved
  rw [step, nextAgent_cons s .seq rest hs, agentStep]
  exact seqStep_reserved (reserved_not_mem_phases reserved)

end Sys2Proof.Machine
end

section
/-! The STATUS word, bit by bit (30_encoding.md R93: O10), and the word on the host port (R97: O60). -/

namespace Sys2Proof.Machine

theorem statusWord_getLsbD (s : State) (k : Nat) : (statusWord s).getLsbD k =
    [busy s, unit s, s.flags.crit, s.flags.fcReady, s.flags.waReady, s.flags.fcValid, s.flags.waValid].getD k false := by
  rw [statusWord, BitVec.getLsbD_setWidth]
  simp only [BitVec.getLsbD_append, BitVec.getLsbD_ofBool]
  rcases k with _ | _ | _ | _ | _ | _ | _ | k <;> simp

/-- Bit 0 is BUSY, the bit WAIT_IDLE polls. -/
theorem statusWord_busy (s : State) : (statusWord s).getLsbD 0 = busy s := statusWord_getLsbD s 0

/-- Settles O10: the bits of STATUS in order, and none above the seventh. -/
theorem statusWordBits : Obligations.StatusWordBits := by
  unfold Obligations.StatusWordBits
  intro s
  simp only [statusWord_getLsbD]
  exact ⟨rfl, rfl, rfl, rfl, rfl, rfl, rfl, fun k hk => List.getD_eq_default _ _ hk⟩

/-- Settles O60: a valid read hands over the register's content, whose image is that of its value; two contents that compare
equal both ways have one real value. -/
theorem hostWordEncodesTheValue : Obligations.HostWordEncodesTheValue := by
  unfold Obligations.HostWordEncodesTheValue
  intro s
  refine ⟨fun reference => ⟨fun valid => ?_, fun valid => ?_, fun a b hab hba => ?_⟩,
    fun k other => ⟨fun valid => ?_, fun valid => ?_, fun a b same => ?_⟩⟩
  · rw [hostRead_corrFreq valid, image_num, numImage_reference reference]
  · rw [hostRead_vpp valid, image_num, numImage_reference reference]
  · have same : a.toReal = b.toReal :=
      le_antisymm ((Params.le_iff reference a b).1 hab) ((Params.le_iff reference b a).1 hba)
    rw [image_num, image_num, numImage_reference reference, numImage_reference reference, same]
  · rw [hostRead_corrFreq valid, image_num, numImage_other other]
  · rw [hostRead_vpp valid, image_num, numImage_other other]
  · rw [image_num, image_num, numImage_other other, numImage_other other, same]

end Sys2Proof.Machine
end

section
/-! What the host's step does at each statement (30_encoding.md R104: O43, O44), and that a placed word is the one run next
(O45). -/

namespace Sys2Proof.Machine

/-! ## A write to CMD (R120, R127) -/

theorem regWrite_decoded {w : Word} {i : Instr} (h : decodeCmd w = .ok i) (s : State) : regWrite 0#3 w s = exec i s := by
  rw [regWrite, if_pos rfl, h]

theorem regWrite_reserved {w : Word} (h : ∀ i, decodeCmd w ≠ .ok i) (s : State) : regWrite 0#3 w s = .next s := by
  rw [regWrite, if_pos rfl, decodeCmd_reserved h]

/-- The word WR CMD writes for a command is that command's (R92, R104). -/
theorem decodeCmd_word (c : Command) : decodeCmd c.word = .ok c.instr := by
  cases c <;> rfl

/-! ## The host's step, by the statement at the head of its script -/

/-- The state in which the host's statement takes effect, schedule and script moved on to what is given. -/
def hostMoved (s : State) (rest : List Agent) (script : List HostStmt) : State :=
  { s with env := { s.env with sched := rest, script := script } }

section
variable {s : State} {rest : List Agent} {more : List HostStmt} (hs : s.env.sched = .host :: rest)
include hs

theorem step_host : step s = hostStep { s with env := { s.env with sched := rest } } := by
  rw [step, nextAgent_cons s .host rest hs, agentStep]

theorem step_noStatement (hp : s.env.script = []) : step s = .next { s with env := { s.env with sched := rest } } := by
  rw [step_host hs, hostStep]; simp only [hp]

theorem step_write {idx : BitVec 3} {w : Word} (hp : s.env.script = .write idx w :: more) :
    step s = regWrite idx w (hostMoved s rest more) := by
  rw [step_host hs, hostStep]; simp only [hp, scriptAfter]; rfl

theorem step_call {c : Command} (hp : s.env.script = .call c :: more) :
    step s = regWrite 0#3 c.word (hostMoved s rest (.waitIdle :: more)) := by
  rw [step_host hs, hostStep]; simp only [hp, scriptAfter]; rfl

theorem step_read {idx : BitVec 3} (hp : s.env.script = .read idx :: more) :
    step s = .next (regRead idx (hostMoved s rest more)) := by
  rw [step_host hs, hostStep]; simp only [hp, scriptAfter]; rfl

theorem step_waitIdle (hp : s.env.script = .waitIdle :: more) :
    step s = .next (regRead 1#3 (hostMoved s rest (if busy s then .waitIdle :: more else more))) := by
  rw [step_host hs, hostStep]; simp only [hp, scriptAfter, statusWord_busy]; rfl

end

/-- Settles O43, statement by statement: each clause is the host's step at that statement, and the write to CMD by what its
word decodes to. -/
theorem stepRunsTheCommand : Obligations.StepRunsTheCommand := by
  unfold Obligations.StepRunsTheCommand
  intro s rest more hs
  refine ⟨fun w i hp hd => ?_, fun c hp => ⟨decodeCmd_word c, ?_⟩, fun idx w hp noCommand => ?_,
    fun idx hp => step_read hs hp, fun hp => step_noStatement hs hp⟩
  · rw [step_write hs hp]
    exact regWrite_decoded hd _
  · rw [step_call hs hp]
    exact regWrite_decoded (decodeCmd_word c) _
  · rw [step_write hs hp]
    by_cases cmd : idx = 0#3
    · subst cmd
      exact regWrite_reserved (noCommand.resolve_left (absurd rfl)) _
    · exact regWrite_ignored _ w cmd

/-- Settles O44: the read of STATUS draws no free value, and its bit 0 is BUSY, which is PHASE away from IDLE. -/
theorem waitIdlePollsBusy : Obligations.WaitIdlePollsBusy := by
  unfold Obligations.WaitIdlePollsBusy
  intro s rest more hs hp
  have kept : (if busy s then HostStmt.waitIdle :: more else more) =
      if s.phase = 0x00#5 then more else .waitIdle :: more := by
    by_cases idle : s.phase = 0x00#5 <;> simp [busy, idle]
  rw [step_waitIdle hs hp, kept]
  rfl

/-! ## A placed word (log entry 10) -/

theorem eq_ok_of_toOption {ε α : Type} {x : Except ε α} {a : α} (h : x.toOption = some a) : x = .ok a := by
  cases x with
  | ok b => exact congrArg Except.ok (Option.some.inj h)
  | error e => cases h

theorem decodePhase_of_decodeTableWord {nbits w : Nat} {i : Instr} (h : decodeTableWord nbits w = some i)
    (short : nbits ≤ 8) : decodePhase (BitVec.ofNat 5 w) = .ok i := by
  rw [decodeTableWord, if_pos short] at h
  split at h
  · exact eq_ok_of_toOption h
  · cases h

theorem decodeCmd_of_decodeTableWord {nbits w : Nat} {i : Instr} (h : decodeTableWord nbits w = some i)
    (long : 8 < nbits) : decodeCmd (BitVec.ofNat 32 w) = .ok i := by
  rw [decodeTableWord, if_neg (not_le.2 long)] at h
  exact eq_ok_of_toOption h

/-- Settles O45: a phase code is placed in PHASE with the sequencer next, a command word as a write to CMD with the host
next, and each step takes up what was placed. -/
theorem placedWordRunsNext : Obligations.PlacedWordRunsNext := by
  unfold Obligations.PlacedWordRunsNext
  intro s nbits w i h
  refine ⟨fun short => ?_, fun long => ?_⟩
  · rw [State.withFetchWord, placeWord, if_pos short]
    exact stepRunsThePhase _ i s.env.sched rfl (decodePhase_of_decodeTableWord h short)
  · rw [State.withFetchWord, placeWord, if_neg (not_le.2 long),
      step_write (rest := s.env.sched) (more := s.env.script) rfl rfl]
    exact regWrite_decoded (decodeCmd_of_decodeTableWord h long) s

end Sys2Proof.Machine
end

section
/-! The host commands and the phases outside the datapaths (40_host_commands.md: O5 to O9). -/

namespace Sys2Proof.Machine

/-! ## Acceptance (R120) -/

theorem accept_of_idle (ready : Bool) (p : BitVec 5) {s : State} (idle : s.phase = Phase.idle) :
    accept ready p s = .next (if ready = true then s.goto p else s) := by
  simp only [accept, idle, true_and]

theorem accept_idle {ready : Bool} {p : BitVec 5} {s : State} (idle : s.phase = Phase.idle) (h : ready = true) :
    accept ready p s = .next (s.goto p) := by
  rw [accept_of_idle ready p idle, if_pos h]

theorem accept_busy (ready : Bool) (p : BitVec 5) {s : State} (busy : s.phase ≠ Phase.idle) :
    accept ready p s = .next s := by
  rw [accept, if_neg fun h => busy h.1]

theorem accept_notReady {ready : Bool} (p : BitVec 5) (s : State) (h : ready = false) : accept ready p s = .next s := by
  rw [accept, if_neg fun h' => by rw [h] at h'; cases h'.2]

/-- Settles O6: each command is an acceptance, taken when the block is idle and its unit ready. -/
theorem acceptedCommandsEnterTheirUnit : Obligations.AcceptedCommandsEnterTheirUnit := by
  unfold Obligations.AcceptedCommandsEnterTheirUnit
  intro s idle
  exact ⟨accept_idle idle rfl, fun ready => accept_idle idle ready, accept_idle idle rfl,
    fun ready => accept_idle idle ready⟩

/-! ## A write to CMD, by the low byte of its word (R91, R92, R127) -/

/-- A low byte that is no command code is reserved. -/
theorem regWrite_reservedOp {w : Word} (h : cmdOp w ∉ commandTable.map Prod.fst) (s : State) :
    regWrite 0#3 w s = .next s :=
  regWrite_reserved (fun i hi => h (List.mem_map_of_mem (f := Prod.fst) ((decodeCmd_eq_ok_iff w i).1 hi))) s

/-- A low byte that is a command code runs its command. -/
theorem regWrite_op {w : Word} {op : BitVec 8} {i : Instr} (h : cmdOp w = op) (row : (op, i) ∈ commandTable) (s : State) :
    regWrite 0#3 w s = exec i s :=
  regWrite_decoded ((decodeCmd_eq_ok_iff w i).2 (h ▸ row)) s

theorem regWrite_busy (idx : BitVec 3) (w : Word) {s : State} (busy : s.phase ≠ Phase.idle) :
    regWrite idx w s = .next s := by
  rcases regWrite_effect idx w s with ⟨idle, -⟩ | ⟨idle, -⟩ | ⟨idle, -⟩ | ⟨idle, -⟩ | e
  · exact absurd idle busy
  · exact absurd idle busy
  · exact absurd idle busy
  · exact absurd idle busy
  · exact e

theorem commandCodes : commandTable.map Prod.fst = [0x01#8, 0x02#8, 0x03#8, 0x04#8] := rfl

/-- Settles O5: a busy block drops the write; an idle one takes the command that the low byte names, an update when its unit
is ready, and no other low byte names one. -/
theorem commandWriteFollowsAcceptance : Obligations.CommandWriteFollowsAcceptance := by
  unfold Obligations.CommandWriteFollowsAcceptance
  intro w s
  change regWrite 0#3 w s = .next (if s.phase ≠ Phase.idle then s
    else if cmdOp w = 0x01#8 then s.goto Phase.fcInitRun
    else if cmdOp w = 0x02#8 ∧ s.flags.fcReady = true then s.goto Phase.fcCritEnter
    else if cmdOp w = 0x03#8 then s.goto Phase.waInitRun
    else if cmdOp w = 0x04#8 ∧ s.flags.waReady = true then s.goto Phase.waP1Start
    else s)
  by_cases idle : s.phase = Phase.idle
  case neg => rw [regWrite_busy _ _ idle, if_pos idle]
  rw [if_neg (not_not.2 idle)]
  by_cases known : cmdOp w ∈ commandTable.map Prod.fst
  · simp only [commandCodes, List.mem_cons, List.not_mem_nil, or_false] at known
    rcases known with op | op | op | op
    · have accepted : exec .fcInit s = _ := accept_of_idle true Phase.fcInitRun idle
      rw [regWrite_op op (i := .fcInit) (by decide), accepted, op]
      simp
    · have accepted : exec .fcUpdate s = _ := accept_of_idle s.flags.fcReady Phase.fcCritEnter idle
      rw [regWrite_op op (i := .fcUpdate) (by decide), accepted, op]
      simp
    · have accepted : exec .waInit s = _ := accept_of_idle true Phase.waInitRun idle
      rw [regWrite_op op (i := .waInit) (by decide), accepted, op]
      simp
    · have accepted : exec .waUpdate s = _ := accept_of_idle s.flags.waReady Phase.waP1Start idle
      rw [regWrite_op op (i := .waUpdate) (by decide), accepted, op]
      simp
  · rw [regWrite_reservedOp known]
    simp only [commandCodes, List.mem_cons, List.not_mem_nil, or_false, not_or] at known
    obtain ⟨h1, h2, h3, h4⟩ := known
    simp [h1, h2, h3, h4]

/-- Settles O7: a busy block and a unit that is not ready refuse acceptance, and a low byte that is no command code names no
command. -/
theorem droppedCommandsChangeNothing : Obligations.DroppedCommandsChangeNothing := by
  unfold Obligations.DroppedCommandsChangeNothing
  intro s
  refine ⟨fun busy => ⟨accept_busy _ _ busy, accept_busy _ _ busy, accept_busy _ _ busy, accept_busy _ _ busy⟩,
    accept_notReady _ s, accept_notReady _ s, fun w reserved => regWrite_reservedOp (fun known => ?_) s⟩
  have listed : ∀ op ∈ commandTable.map Prod.fst, ¬ (op = 0x00#8 ∨ 5 ≤ op.toNat) := by decide
  exact listed _ known reserved

/-! ## The phases outside the datapaths (R125, R126, R128) -/

/-- Settles O8: the two meanings are record updates. -/
theorem initPhasesSetReady : Obligations.InitPhasesSetReady := by
  unfold Obligations.InitPhasesSetReady
  exact fun s => ⟨rfl, rfl⟩

/-- Settles O9: the meaning of IDLE is the identity. -/
theorem idleStepChangesNothing : Obligations.IdleStepChangesNothing := by
  unfold Obligations.IdleStepChangesNothing
  exact fun s => rfl

end Sys2Proof.Machine
end

section
/-! Runs of one update (40_host_commands.md R122, R124): what every step keeps beside the invariant, which calls the drawn
samples stand for (20_memory.md R67), and the induction over Safety.busyRun, said once for both units. -/

namespace Sys2Proof.Machine

theorem SameWaveform.refl (s : State) : SameWaveform s s := ⟨rfl, rfl, rfl, rfl, rfl, rfl⟩

theorem SameWaveform.trans {s t u : State} (h : SameWaveform s t) (k : SameWaveform t u) : SameWaveform s u where
  wa := k.wa.trans h.wa
  vpp := k.vpp.trans h.vpp
  wclass := k.wclass.trans h.wclass
  waValid := k.waValid.trans h.waValid
  waReady := k.waReady.trans h.waReady
  clipf := k.clipf.trans h.clipf

theorem SameFrequency.refl (s : State) : SameFrequency s s := ⟨rfl, rfl, rfl, rfl, rfl, rfl, rfl, rfl⟩

theorem SameFrequency.trans {s t u : State} (h : SameFrequency s t) (k : SameFrequency t u) : SameFrequency s u where
  blk := k.blk.trans h.blk
  fc := k.fc.trans h.fc
  idx := k.idx.trans h.idx
  corrFreq := k.corrFreq.trans h.corrFreq
  fcValid := k.fcValid.trans h.fcValid
  fcReady := k.fcReady.trans h.fcReady
  crit := k.crit.trans h.crit
  found := k.found.trans h.found

end Sys2Proof.Machine

namespace Sys2Proof.Safety
open Machine

/-! ## The draws of a run -/

namespace Draws

@[simp] theorem none_raw : Draws.none.raw = [] := rfl
@[simp] theorem none_p1 : Draws.none.p1 = [] := rfl
@[simp] theorem none_p2 : Draws.none.p2 = [] := rfl
@[simp] theorem append_raw (d e : Draws) : (d.append e).raw = d.raw ++ e.raw := rfl
@[simp] theorem append_p1 (d e : Draws) : (d.append e).p1 = d.p1 ++ e.p1 := rfl
@[simp] theorem append_p2 (d e : Draws) : (d.append e).p2 = d.p2 ++ e.p2 := rfl
@[simp] theorem append_none (d : Draws) : d.append Draws.none = d := by simp [append, none]
theorem append_assoc (d e f : Draws) : (d.append e).append f = d.append (e.append f) := by simp [append]

end Draws

section
variable {s t : State}

/-! ## The draw of a step, by the phase -/

/-- Outside the three sampling phases the sequencer draws nothing. -/
theorem seqDraws_eq_none {p : BitVec 5} (hp : s.phase = p)
    (silent : p ∉ [Phase.fcAcq, Phase.waP1Sample, Phase.waP2Sample] := by decide) : seqDraws s = Draws.none := by
  subst hp
  simp only [List.mem_cons, List.not_mem_nil, or_false, not_or] at silent
  obtain ⟨acq, pass1, pass2⟩ := silent
  rw [seqDraws, if_neg acq, if_neg pass1, if_neg pass2]

theorem seqDraws_fcAcqWaits (hp : s.phase = Phase.fcAcq) (guard : acqEnabled s = false) : seqDraws s = Draws.none := by
  rw [seqDraws, if_pos hp, if_neg (by simp [guard])]

theorem seqDraws_fcAcqSamples {c : Nat} {u : State} (hp : s.phase = Phase.fcAcq) (guard : acqEnabled s = true)
    (drawn : rawRead s = .ok (c, u)) : seqDraws s = ⟨[c], [], []⟩ := by
  rw [seqDraws, if_pos hp, if_pos guard, drawn]

theorem seqDraws_waP1Sample (hp : s.phase = Phase.waP1Sample) :
    seqDraws s = ⟨[], [(convExchange waChannel s).1], []⟩ := by
  rw [seqDraws, hp, if_neg (by decide), if_pos rfl, convRead_channel]

theorem seqDraws_waP2Sample (hp : s.phase = Phase.waP2Sample) :
    seqDraws s = ⟨[], [], [(convExchange waChannel s).1]⟩ := by
  rw [seqDraws, hp, if_neg (by decide), if_neg (by decide), if_pos rfl, convRead_channel]

/-- A raw count is drawn in FC_ACQ only. -/
theorem seqDraws_raw_eq_nil (hp : s.phase ≠ Phase.fcAcq) : (seqDraws s).raw = [] := by
  rw [seqDraws, if_neg hp]; split_ifs <;> rfl

/-- A pass-1 sample is drawn in WA_P1_SAMPLE only. -/
theorem seqDraws_p1_eq_nil (hp : s.phase ≠ Phase.waP1Sample) : (seqDraws s).p1 = [] := by
  rw [seqDraws, if_neg hp]; split_ifs
  · split <;> rfl
  all_goals rfl

/-- A pass-2 sample is drawn in WA_P2_SAMPLE only. -/
theorem seqDraws_p2_eq_nil (hp : s.phase ≠ Phase.waP2Sample) : (seqDraws s).p2 = [] := by
  rw [seqDraws, if_neg hp]; split_ifs
  · split <;> rfl
  all_goals rfl

/-- Choosing the agent changes no answer of a source. -/
theorem seqDraws_nextAgent (s : State) : seqDraws (nextAgent s).2 = seqDraws s := by
  have guard : acqEnabled (nextAgent s).2 = acqEnabled s := by simp [acqEnabled]
  have pass : (convRead waChannel (nextAgent s).2).1 = (convRead waChannel s).1 := by
    simp only [convRead_channel, convExchange, nextAgent_convQ, nextAgent_convCalls]; split <;> rfl
  simp only [seqDraws, nextAgent_phase, guard, pass, rawRead, nextAgent_rawQ, nextAgent_rawCalls, nextAgent_cfg]
  cases s.env.rawQ with
  | nil => rfl
  | cons c rest => by_cases hc : c ≤ s.cfg.fcMaxCount <;> simp [hc]

theorem stepDraws_seq (agent : (nextAgent s).1 = .seq) : stepDraws s = seqDraws (nextAgent s).2 := by
  rw [stepDraws, if_pos agent, seqDraws_nextAgent]

theorem stepDraws_not_seq (agent : (nextAgent s).1 ≠ .seq) : stepDraws s = Draws.none := if_neg agent

/-! ## The calls behind the draws (R15, R67) -/

/-- From s to t the parameters stay, and the calls of the two sources are those that drew d, each raw count in contract. -/
structure Drew (d : Draws) (s t : State) : Prop where
  cfg       : t.cfg = s.cfg
  rawCalls  : t.env.rawCalls = s.env.rawCalls + d.raw.length
  convCalls : t.env.convCalls = s.env.convCalls + d.p1.length + d.p2.length
  contract  : ∀ c ∈ d.raw, c ≤ s.cfg.fcMaxCount

theorem Drew.refl (s : State) : Drew Draws.none s s := ⟨rfl, rfl, rfl, nofun⟩

theorem Drew.trans {u : State} {d e : Draws} (h : Drew d s t) (k : Drew e t u) : Drew (d.append e) s u where
  cfg := k.cfg.trans h.cfg
  rawCalls := by simp [k.rawCalls, h.rawCalls, Nat.add_assoc]
  convCalls := by simp only [k.convCalls, h.convCalls, Draws.append_p1, Draws.append_p2, List.length_append]; omega
  contract c hc := by
    rcases List.mem_append.1 hc with hc | hc
    · exact h.contract c hc
    · exact h.cfg ▸ k.contract c hc

theorem drew_of_sameSources (h : SameSources s t) : Drew Draws.none s t := ⟨h.cfg, h.rawCalls, h.convCalls, nofun⟩

theorem drew_of_seqMove (m : SeqMove s t) : Drew (seqDraws s) s t := by
  cases m with
  | fcAcqWaits hp guard e => rw [seqDraws_fcAcqWaits hp guard, e]; exact .refl s
  | fcAcqSamples hp guard hi c hc drawn e =>
    rw [seqDraws_fcAcqSamples hp guard drawn, e]
    exact ⟨rfl, rfl, rfl, fun c' hc' => List.eq_of_mem_singleton hc' ▸ hc⟩
  | waP1Sample hp e => rw [seqDraws_waP1Sample hp, e]; exact ⟨rfl, rfl, rfl, nofun⟩
  | waP2Sample hp e => rw [seqDraws_waP2Sample hp, e]; exact ⟨rfl, rfl, rfl, nofun⟩
  | _ hp e => cases e; rw [seqDraws_eq_none hp]; exact ⟨rfl, rfl, rfl, nofun⟩

theorem drew_step (h : step s = .next t) : Drew (stepDraws s) s t := by
  have chosen := drew_of_sameSources (sameSources_nextAgent s)
  rcases step_cases s with ⟨agent, e⟩ | ⟨d, agent, e⟩ | ⟨agent, e⟩ <;> rw [e] at h
  · rw [stepDraws_seq agent]
    exact chosen.trans (drew_of_seqMove (seqMove_of_seqStep h))
  · cases h
    rw [stepDraws_not_seq (by simp [agent])]
    have ticked : Drew Draws.none (nextAgent s).2 (tick d (nextAgent s).2) := ⟨rfl, rfl, rfl, nofun⟩
    exact chosen.trans ticked
  · rw [stepDraws_not_seq (by simp [agent])]
    exact chosen.trans (drew_of_sameSources (sameSources_hostStep h))

/-! ## A script without RESET -/

/-- The host's statements are used up, and the only one it adds is the wait of a CALL. -/
theorem mem_scriptAfter {x : HostStmt} (h : x ∈ scriptAfter s) : x ∈ s.env.script ∨ x = .waitIdle := by
  cases hs : s.env.script with
  | nil => rw [scriptAfter, hs] at h; exact absurd h List.not_mem_nil
  | cons a rest =>
    rw [scriptAfter, hs] at h
    cases a with
    | call c =>
      rcases List.mem_cons.1 h with rfl | h
      · exact .inr rfl
      · exact .inl (List.mem_cons_of_mem _ h)
    | waitIdle =>
      dsimp only at h
      split at h
      · exact .inl h
      · exact .inl (List.mem_cons_of_mem _ h)
    | write idx w | read idx | reset => exact .inl (List.mem_cons_of_mem _ h)

theorem noReset_hostBase (h : NoReset s) : NoReset (hostBase s) := fun hr => by
  rcases mem_scriptAfter hr with hr | hr
  · exact h hr
  · cases hr

theorem noReset_of_script (h : NoReset s) (e : t.env.script = s.env.script) : NoReset t := fun hr => h (e ▸ hr)

theorem noReset_of_hostStep (h : NoReset s) (e : hostStep s = .next t) : NoReset t := by
  have base := noReset_hostBase h
  rcases hostStep_cases s with
      e' | e' | ⟨idx, e'⟩ | ⟨-, e'⟩ | ⟨-, e' | ⟨-, e'⟩ | e' | ⟨-, e'⟩⟩ <;> rw [e'] at e <;> cases e
  · exact h
  all_goals exact noReset_of_script base rfl

theorem seqMove_script (m : SeqMove s t) : t.env.script = s.env.script := by
  cases m with
  | _ => rename_i e; cases e; rfl

theorem noReset_of_step (h : NoReset s) (e : step s = .next t) : NoReset t := by
  have chosen : NoReset (nextAgent s).2 := noReset_of_script h (nextAgent_script s)
  rcases step_cases s with ⟨-, e'⟩ | ⟨d, -, e'⟩ | ⟨-, e'⟩ <;> rw [e'] at e
  · exact noReset_of_script chosen (seqMove_script (seqMove_of_seqStep e))
  · cases e; exact noReset_of_script chosen rfl
  · exact noReset_of_hostStep chosen e

theorem NoReset.next_ne_reset (h : NoReset s) : ¬ ((nextAgent s).1 = .host ∧ s.env.script.head? = some .reset) :=
  fun ⟨_, hr⟩ => h (List.mem_of_mem_head? hr)

/-! ## A busy step and a busy run -/

/-- While the block is busy, and no RESET is asked for, the sequencer moves, or nothing is drawn and the block stays. -/
theorem busyStep_cases (h : step s = .next t) (noReset : NoReset s) (busy : s.phase ≠ Phase.idle) :
    (stepDraws s = seqDraws (nextAgent s).2 ∧ seqStep (nextAgent s).2 = .next t) ∨
    (stepDraws s = Draws.none ∧ SameBlock s t) := by
  rcases step_cases s with ⟨agent, e⟩ | ⟨d, agent, e⟩ | ⟨agent, e⟩
  · exact .inl ⟨stepDraws_seq agent, e ▸ h⟩
  · rw [e] at h; cases h
    exact .inr ⟨stepDraws_not_seq (by simp [agent]), (sameBlock_nextAgent s).trans (sameBlock_tick d _)⟩
  · refine .inr ⟨stepDraws_not_seq (by simp [agent]), ?_⟩
    cases stepMove_of_step h with
    | seq other m => rw [agent] at other; cases other
    | stay same => exact same
    | accept u same p acc _ =>
      have idle : u.phase = Phase.idle := by cases acc <;> assumption
      exact absurd (same.phase ▸ idle) busy
    | reset u _ agent stmt _ => exact absurd ⟨agent, stmt⟩ noReset.next_ne_reset

/-- What a run keeps whatever the unit: the invariant, a script without RESET, and the account of the drawn samples. -/
structure Running (s₀ : State) (d : Draws) (s : State) : Prop where
  inv     : Inv s
  noReset : NoReset s
  drew    : Drew d s₀ s

theorem Running.step {s₀ : State} {d : Draws} (r : Running s₀ d s) (h : step s = .next t) :
    Running s₀ (d.append (stepDraws s)) t where
  inv := r.inv.of_stepMove (stepMove_of_step h)
  noReset := noReset_of_step r.noReset h
  drew := r.drew.trans (drew_step h)

/-- A run of k + 1 busy steps is a busy step and a run of k. -/
theorem busyRun_succ {k : Nat} {d : Draws} (run : busyRun (k + 1) s = some (d, t)) :
    s.phase ≠ Phase.idle ∧
    ∃ u e, step s = .next u ∧ busyRun k u = some (e, t) ∧ d = (stepDraws s).append e := by
  rw [busyRun] at run
  split at run
  case isFalse => cases run
  next hb =>
  split at run
  case h_2 => cases run
  next u hu =>
  split at run
  case h_2 => cases run
  next e v rest =>
  cases run
  exact ⟨of_decide_eq_true hb, u, e, hu, rest, rfl⟩

/-- What every busy step keeps, for the samples drawn so far, holds at the end of a busy run. -/
theorem busyRun_keeps {P : Draws → State → Prop}
    (keep : ∀ {d s t}, P d s → s.phase ≠ Phase.idle → step s = .next t → P (d.append (stepDraws s)) t)
    {k : Nat} {d e : Draws} (hs : P d s) (run : busyRun k s = some (e, t)) : P (d.append e) t := by
  induction k generalizing s d e with
  | zero => cases run; rwa [Draws.append_none]
  | succ k ih =>
    obtain ⟨busy, u, f, hu, rest, rfl⟩ := busyRun_succ run
    rw [← Draws.append_assoc]
    exact ih (keep hs busy hu) rest

end
end Sys2Proof.Safety
end

section
/-! FC_UPDATE as a refinement of FcResult (40_host_commands.md R122, R129: O56): in each phase the registers hold what FcResult
has computed so far of the counts drawn so far. -/

namespace Sys2Proof.Safety
open Machine

/-! ## FcResult, step by step -/

/-- The voltage of each count drawn (R141). -/
def voltsOf (c : Params) (raw : List Nat) (i : Nat) : Num := rawVolt c (raw.getD i 0)

/-- The block after the window (R160). -/
def windowedOf (c : Params) (raw : List Nat) : Nat → Num := window c.n (voltsOf c raw)

/-- The real part of the spectrum; the imaginary part of the block is zero (R143, R161). -/
def spectrumRe (c : Params) (raw : List Nat) : Nat → Num := transformRe c.n (windowedOf c raw) fun _ => Num.zero

/-- The imaginary part of the spectrum (R161). -/
def spectrumIm (c : Params) (raw : List Nat) : Nat → Num := transformIm c.n (windowedOf c raw) fun _ => Num.zero

/-- The frequency of the peak of the magnitudes (R162, R163). -/
def detectedFreq (c : Params) (raw : List Nat) : Num := peakFreq c (magnitude (spectrumRe c raw) (spectrumIm c raw))

theorem fcResult_eq_calibrate (c : Params) (raw : List Nat) :
    fcResult c (fun i => raw.getD i 0) = calibrate c (detectedFreq c raw) := rfl

theorem transformRe_congr {n : Nat} {x x' y y' : Nat → Num} (hx : ∀ i, i < n → x i = x' i) (hy : ∀ i, i < n → y i = y' i)
    (k : Nat) : transformRe n x y k = transformRe n x' y' k :=
  sumTo_congr fun i hi => by rw [hx i hi, hy i hi]

theorem transformIm_congr {n : Nat} {x x' y y' : Nat → Num} (hx : ∀ i, i < n → x i = x' i) (hy : ∀ i, i < n → y i = y' i)
    (k : Nat) : transformIm n x y k = transformIm n x' y' k :=
  sumTo_congr fun i hi => by rw [hx i hi, hy i hi]

theorem peakFreq_congr {c : Params} (hc : c.wf = true) {m m' : Nat → Num} (h : ∀ k, k < c.n → m k = m' k) :
    peakFreq c m = peakFreq c m' := by
  rw [peakFreq, peakFreq, peakBin_congr hc h]

/-- An element of a block rewritten as a whole. -/
theorem read_fill_of_lt {n i : Nat} (f : Nat → Num) (hi : i < n) : (NumMem.fill n f).read i = f i := by
  rw [NumMem.read_fill, if_pos hi]

theorem voltsOf_append_of_lt (c : Params) (raw : List Nat) (k : Nat) {i : Nat} (hi : i < raw.length) :
    voltsOf c (raw ++ [k]) i = voltsOf c raw i := by
  rw [voltsOf, List.getD_append _ _ _ _ hi, voltsOf]

theorem voltsOf_append_length (c : Params) (raw : List Nat) (k : Nat) :
    voltsOf c (raw ++ [k]) raw.length = rawVolt c k := by
  simp [voltsOf]

/-! ## The stages of an update -/

/-- What the frequency registers hold in each phase, raw being the counts drawn so far. -/
inductive FcStage (raw : List Nat) (s : State) : Prop
  | entering (hp : s.phase = Phase.fcCritEnter) (empty : raw = [])
  | acquiring (hp : s.phase = Phase.fcAcq) (count : raw.length = s.idx)
      (re : ∀ i, i < s.idx → s.reAt i = voltsOf s.cfg raw i)
  | acquired (hp : s.phase ∈ [Phase.fcCritExit, Phase.spdWindow]) (count : raw.length = s.cfg.n)
      (re : ∀ i, i < s.cfg.n → s.reAt i = voltsOf s.cfg raw i)
  | windowed (hp : s.phase = Phase.spdFft) (count : raw.length = s.cfg.n)
      (re : ∀ i, i < s.cfg.n → s.reAt i = windowedOf s.cfg raw i)
  | transformed (hp : s.phase = Phase.spdMag) (count : raw.length = s.cfg.n)
      (re : ∀ k, k < s.cfg.n → s.reAt k = spectrumRe s.cfg raw k)
      (im : ∀ k, k < s.cfg.n → s.imAt k = spectrumIm s.cfg raw k)
  | measured (hp : s.phase = Phase.spdPeak) (count : raw.length = s.cfg.n)
      (re : ∀ k, k < s.cfg.n → s.reAt k = magnitude (spectrumRe s.cfg raw) (spectrumIm s.cfg raw) k)
  | detected (hp : s.phase = Phase.calLookup) (count : raw.length = s.cfg.n)
      (rawFreq : s.fc.rawFreq = detectedFreq s.cfg raw)
  | calibrated (hp : s.phase = Phase.fcPublish) (count : raw.length = s.cfg.n)
      (corrT : s.fc.corrT = fcResult s.cfg fun i => raw.getD i 0)
  | published (hp : s.phase = Phase.idle) (count : raw.length = s.cfg.n)
      (corrFreq : s.pub.corrFreq = fcResult s.cfg fun i => raw.getD i 0) (valid : s.flags.fcValid = true)

section
variable {raw : List Nat} {s t : State}

theorem FcStage.of_sameBlock (f : FcStage raw s) (same : SameBlock s t) : FcStage raw t := by
  obtain ⟨cfg, phase, idx, tMark, flags, pub, fc, wa, blk, env⟩ := t
  obtain ⟨rfl, rfl, rfl, rfl, rfl, rfl, rfl, rfl, rfl, -⟩ := same
  cases f with
  | entering hp empty => exact .entering hp empty
  | acquiring hp count re => exact .acquiring hp count re
  | acquired hp count re => exact .acquired hp count re
  | windowed hp count re => exact .windowed hp count re
  | transformed hp count re im => exact .transformed hp count re im
  | measured hp count re => exact .measured hp count re
  | detected hp count rawFreq => exact .detected hp count rawFreq
  | calibrated hp count corrT => exact .calibrated hp count corrT
  | published hp count corrFreq valid => exact .published hp count corrFreq valid

theorem FcStage.phase_mem (f : FcStage raw s) (busy : s.phase ≠ Phase.idle) : s.phase ∈ fcPhases := by
  cases f with
  | published hp => exact absurd hp busy
  | acquired hp =>
    simp only [List.mem_cons, List.not_mem_nil, or_false] at hp
    rcases hp with hp | hp <;> rw [hp] <;> decide
  | _ hp => rw [hp]; decide

/-- The sample written is the voltage of the count drawn, and the earlier ones stay (R141). -/
theorem reAt_takeSample (h : Inv s) (c : Nat) (count : raw.length = s.idx)
    (re : ∀ i, i < s.idx → s.reAt i = voltsOf s.cfg raw i) {i : Nat} (hi : i < s.idx + 1) :
    (takeSample c s).reAt i = voltsOf s.cfg (raw ++ [c]) i := by
  rw [State.reAt, takeSample_blk, Memory.read_write h.re]
  split
  · next hlast => rw [hlast, ← count, voltsOf_append_length]
  · rw [voltsOf_append_of_lt _ _ _ (by omega)]
    exact re i (by omega)

/-- A sample taken is one of the acquisition's, or its last. -/
theorem fcStage_takeSample (h : Inv s) (hp : s.phase = Phase.fcAcq) (c : Nat) (count : raw.length = s.idx)
    (re : ∀ i, i < s.idx → s.reAt i = voltsOf s.cfg raw i) : FcStage (raw ++ [c]) (takeSample c s) := by
  have len : (raw ++ [c]).length = s.idx + 1 := by simp [count]
  have volts {i : Nat} (hi : i < s.idx + 1) := reAt_takeSample h c count re hi
  by_cases last : s.idx + 1 = s.cfg.n
  · exact .acquired (by simp [last]) (len.trans last) fun i hi => volts (by rw [last]; exact hi)
  · refine .acquiring (by simp [last, hp]) (by simp [last, len]) fun i hi => ?_
    exact volts (by simpa [last] using hi)

/-- While FC_ACQ waits the stage stays; when it samples, the count joins those drawn. -/
theorem fcStage_seqStep_fcAcq (h : Inv s) (hp : s.phase = Phase.fcAcq) (count : raw.length = s.idx)
    (re : ∀ i, i < s.idx → s.reAt i = voltsOf s.cfg raw i) (e : seqStep s = .next t) :
    FcStage (raw ++ (seqDraws s).raw) t := by
  rw [seqStep_fcAcq hp] at e
  rcases execFcAcq_cases s with ⟨guard, e'⟩ | ⟨guard, -, ⟨c, -, drawn, e'⟩ | ⟨c, -, -, e'⟩⟩ | ⟨-, -, e'⟩ <;>
    rw [e'] at e <;> cases e
  · rw [seqDraws_fcAcqWaits hp guard, Draws.none_raw, List.append_nil]
    exact .acquiring hp count re
  · rw [seqDraws_fcAcqSamples hp guard drawn]
    exact fcStage_takeSample (h.of_sameBlock (sameBlock_afterRaw s)) hp c count re

/-- A move of the sequencer takes the update to its next stage, the count it drew, if any, joining those drawn. -/
theorem FcStage.seqStep (h : Inv s) (f : FcStage raw s) (e : seqStep s = .next t) :
    FcStage (raw ++ (seqDraws s).raw) t := by
  by_cases acq : s.phase = Phase.fcAcq
  · cases f with
    | acquiring hp count re => exact fcStage_seqStep_fcAcq h hp count re e
    | _ hp => rw [acq] at hp; exact absurd hp (by decide)
  rw [seqDraws_raw_eq_nil acq, List.append_nil]
  cases f with
  | entering hp empty =>
    rw [seqStep_fcCritEnter hp] at e; cases e
    exact .acquiring rfl (by rw [empty]; rfl) nofun
  | acquiring hp => exact absurd hp acq
  | acquired hp count re =>
    simp only [List.mem_cons, List.not_mem_nil, or_false] at hp
    rcases hp with hp | hp
    · rw [seqStep_fcCritExit hp] at e; cases e
      exact .acquired (by simp) count re
    · rw [seqStep_spdWindow hp] at e; cases e
      refine .windowed rfl count fun i hi => (read_fill_of_lt _ hi).trans ?_
      rw [window, re i hi]; rfl
  | windowed hp count re =>
    rw [seqStep_spdFft hp] at e; cases e
    have zero := h.imZero (by simp [hp])
    exact .transformed rfl count (fun k hk => (read_fill_of_lt _ hk).trans (transformRe_congr re zero k))
      fun k hk => (read_fill_of_lt _ hk).trans (transformIm_congr re zero k)
  | transformed hp count re im =>
    rw [seqStep_spdMag hp] at e; cases e
    refine .measured rfl count fun k hk => (read_fill_of_lt _ hk).trans ?_
    rw [magnitude, magnitude, re k hk, im k hk]
  | measured hp count re =>
    rw [seqStep_spdPeak hp] at e; cases e
    exact .detected rfl count (peakFreq_congr h.params re)
  | detected hp count rawFreq =>
    rw [seqStep_calLookup hp] at e; cases e
    exact .calibrated rfl count (congrArg (calibrate s.cfg) rawFreq)
  | calibrated hp count corrT =>
    rw [seqStep_fcPublish hp] at e; cases e
    exact .published rfl count corrT rfl
  | published hp count corrFreq valid =>
    rw [seqStep_idle hp] at e; cases e
    exact .published hp count corrFreq valid

end

/-! ## The whole update -/

/-- A run of FC_UPDATE from s₀ that has drawn d and reached s. -/
structure FcRun (s₀ : State) (d : Draws) (s : State) : Prop where
  running  : Running s₀ d s
  p1       : d.p1 = []
  p2       : d.p2 = []
  waveform : SameWaveform s₀ s
  stage    : FcStage d.raw s

theorem fcRun_start {s : State} (h : Inv s) (noReset : NoReset s) (hp : s.phase = Phase.fcCritEnter) :
    FcRun s Draws.none s :=
  ⟨⟨h, noReset, .refl s⟩, rfl, rfl, .refl s, .entering hp rfl⟩

theorem FcRun.step {s₀ s t : State} {d : Draws} (r : FcRun s₀ d s) (busy : s.phase ≠ Phase.idle)
    (h : step s = .next t) : FcRun s₀ (d.append (stepDraws s)) t := by
  have hp : s.phase ∈ fcPhases := r.stage.phase_mem busy
  have waveform := r.waveform.trans (sameWaveform_step h hp r.running.noReset.next_ne_reset)
  have noPass (p : BitVec 5) (off : p ∉ fcPhases) : (nextAgent s).2.phase ≠ p := by
    rintro rfl; exact off (nextAgent_phase s ▸ hp)
  have running := r.running.step h
  rcases busyStep_cases h r.running.noReset busy with ⟨drawn, e⟩ | ⟨drawn, same⟩
  · refine ⟨running, ?_, ?_, waveform, ?_⟩
    · rw [Draws.append_p1, r.p1, drawn, seqDraws_p1_eq_nil (noPass _ (by decide))]; rfl
    · rw [Draws.append_p2, r.p2, drawn, seqDraws_p2_eq_nil (noPass _ (by decide))]; rfl
    · have choice := sameBlock_nextAgent s
      rw [Draws.append_raw, drawn]
      exact (r.stage.of_sameBlock choice).seqStep (r.running.inv.of_sameBlock choice) e
  · rw [drawn, Draws.append_none] at running ⊢
    exact ⟨running, r.p1, r.p2, waveform, r.stage.of_sameBlock same⟩

/-- Settles O56: every busy step keeps FcRun, and at IDLE its stage is the published one. -/
theorem frequencyUpdatePublishesFcResult : Obligations.FrequencyUpdatePublishesFcResult := by
  unfold Obligations.FrequencyUpdatePublishesFcResult
  intro k s t d h noReset hp run idle
  have r : FcRun s d t := busyRun_keeps FcRun.step (fcRun_start h noReset hp) run
  obtain ⟨⟨inv, -, cfg, rawCalls, convCalls, contract⟩, p1, p2, ⟨-, vpp, wclass, waValid, waReady, -⟩, stage⟩ := r
  cases stage with
  | published _ count corrFreq valid =>
    rw [cfg] at count corrFreq
    have ready : t.flags.fcReady = s.flags.fcReady := by rw [inv.fcValid valid, h.fcReady_eq_true hp]
    rw [count] at rawCalls
    rw [p1, p2] at convCalls
    exact ⟨count, contract, p1, p2, corrFreq, valid, inv.crit_eq_false idle, vpp, wclass, waValid, ready, waReady,
      rawCalls, convCalls⟩
  | _ busy => rw [idle] at busy; exact absurd busy (by decide)

end Sys2Proof.Safety
end

section
/-! WA_UPDATE as a refinement of WaResult (40_host_commands.md R124, R130: O57): in each phase the registers hold what WaResult
has computed so far of the samples drawn so far in the two passes. -/

namespace Sys2Proof.Safety
open Machine

/-! ## WaResult, step by step -/

/-- The running sum of pass 1 (R212). -/
def voltSum (c : Params) (p : List Count10) : Num := p.foldl (fun v k => Num.add v (volt c k.val)) Num.zero

/-- The running sum of squares of pass 2 (R215). -/
def sqDevSum (c : Params) (dc : Num) (p : List Count10) : Num :=
  p.foldl (fun v k => Num.add v (sqDev c dc k)) Num.zero

/-- The crest factor of the two passes (R214, R216). -/
def crestOfPasses (c : Params) (p1 p2 : List Count10) : Num :=
  crestFactor c (envelope c p1).1 (envelope c p1).2 p2

section
variable (c : Params) (p : List Count10) (k : Count10)

theorem minOf_append : minOf (p ++ [k]) = min (minOf p) k := List.foldl_concat ..
theorem maxOf_append : maxOf (p ++ [k]) = max (maxOf p) k := List.foldl_concat ..
theorem anyClips_append : anyClips c (p ++ [k]) = (anyClips c p || clips c k) := List.foldl_concat ..
theorem voltSum_append : voltSum c (p ++ [k]) = .add (voltSum c p) (volt c k.val) := List.foldl_concat ..
theorem sqDevSum_append (dc : Num) : sqDevSum c dc (p ++ [k]) = .add (sqDevSum c dc p) (sqDev c dc k) :=
  List.foldl_concat ..

end

/-- The registers of pass 1 after the samples p (R212). -/
structure Tally1 (p : List Count10) (s : State) : Prop where
  minc  : s.wa.minc = minOf p
  maxc  : s.wa.maxc = maxOf p
  sumv  : s.wa.sumv = voltSum s.cfg p
  cnt1  : s.wa.cnt1 = p.length
  clipf : s.flags.clipf = anyClips s.cfg p

/-- The registers of pass 2 after the samples p2, those of pass 1 being p1 (R214, R215). -/
structure Tally2 (p1 p2 : List Count10) (s : State) : Prop where
  vppT  : s.wa.vppT = (envelope s.cfg p1).1
  dcoff : s.wa.dcoff = (envelope s.cfg p1).2
  sumsq : s.wa.sumsq = sqDevSum s.cfg (envelope s.cfg p1).2 p2
  cnt2  : s.wa.cnt2 = p2.length

/-! ## The stages of an update -/

/-- What the waveform registers hold in each phase, p1 and p2 being the samples drawn so far. -/
inductive WaStage (p1 p2 : List Count10) (s : State) : Prop
  | starting (hp : s.phase = Phase.waP1Start) (empty1 : p1 = []) (empty2 : p2 = [])
  | pass1 (hp : s.phase = Phase.waP1Sample) (tally : Tally1 p1 s) (empty2 : p2 = [])
  | pass1Over (hp : s.phase = Phase.waP1Finish) (some1 : p1 ≠ []) (tally : Tally1 p1 s) (empty2 : p2 = [])
  | pass2 (hp : s.phase = Phase.waP2Sample) (some1 : p1 ≠ []) (tally : Tally2 p1 p2 s)
  | pass2Over (hp : s.phase = Phase.waP2Finish) (some1 : p1 ≠ []) (some2 : p2 ≠ []) (tally : Tally2 p1 p2 s)
  | measured (hp : s.phase = Phase.waClassify) (some1 : p1 ≠ []) (some2 : p2 ≠ [])
      (vppT : s.wa.vppT = (envelope s.cfg p1).1) (crest : s.wa.crest = crestOfPasses s.cfg p1 p2)
  | classified (hp : s.phase = Phase.waPubVpp) (some1 : p1 ≠ []) (some2 : p2 ≠ [])
      (result : (s.wa.vppT, s.wa.clsT) = waResult s.cfg p1 p2)
  | vppPublished (hp : s.phase = Phase.waPubCls) (some1 : p1 ≠ []) (some2 : p2 ≠ [])
      (result : (s.pub.vpp, s.wa.clsT) = waResult s.cfg p1 p2)
  | published (hp : s.phase = Phase.idle) (some1 : p1 ≠ []) (some2 : p2 ≠ [])
      (result : (s.pub.vpp, s.pub.wclass) = waResult s.cfg p1 p2) (valid : s.flags.waValid = true)

section
variable {p p1 p2 : List Count10} {s t : State}

theorem WaStage.of_sameBlock (f : WaStage p1 p2 s) (same : SameBlock s t) : WaStage p1 p2 t := by
  obtain ⟨cfg, phase, idx, tMark, flags, pub, fc, wa, blk, env⟩ := t
  obtain ⟨rfl, rfl, rfl, rfl, rfl, rfl, rfl, rfl, rfl, -⟩ := same
  cases f with
  | starting hp empty1 empty2 => exact .starting hp empty1 empty2
  | pass1 hp tally empty2 => exact .pass1 hp { tally with } empty2
  | pass1Over hp some1 tally empty2 => exact .pass1Over hp some1 { tally with } empty2
  | pass2 hp some1 tally => exact .pass2 hp some1 { tally with }
  | pass2Over hp some1 some2 tally => exact .pass2Over hp some1 some2 { tally with }
  | measured hp some1 some2 vppT crest => exact .measured hp some1 some2 vppT crest
  | classified hp some1 some2 result => exact .classified hp some1 some2 result
  | vppPublished hp some1 some2 result => exact .vppPublished hp some1 some2 result
  | published hp some1 some2 result valid => exact .published hp some1 some2 result valid

theorem WaStage.phase_mem (f : WaStage p1 p2 s) (busy : s.phase ≠ Phase.idle) : s.phase ∈ waPhases := by
  cases f with
  | published hp => exact absurd hp busy
  | _ hp => rw [hp]; decide

theorem Tally1.tally1 (tally : Tally1 p s) (k : Count10) : Tally1 (p ++ [k]) (tally1 k s) where
  minc := by rw [minOf_append, ← tally.minc]; rfl
  maxc := by rw [maxOf_append, ← tally.maxc]; rfl
  sumv := by rw [tally1_cfg, voltSum_append, ← tally.sumv]; rfl
  cnt1 := by rw [List.length_append, ← tally.cnt1]; rfl
  clipf := by rw [tally1_cfg, anyClips_append, ← tally.clipf]; rfl

theorem Tally2.tally2 (tally : Tally2 p1 p2 s) (k : Count10) : Tally2 p1 (p2 ++ [k]) (tally2 k s) where
  vppT := tally.vppT
  dcoff := tally.dcoff
  sumsq := by rw [tally2_cfg, sqDevSum_append, ← tally.sumsq, ← tally.dcoff]; rfl
  cnt2 := by rw [List.length_append, ← tally.cnt2]; rfl

/-- A sample of pass 1 is the last when the window is over (R212). -/
theorem waStage_tally1 (hp : s.phase = Phase.waP1Sample) (tally : Tally1 p1 s) (empty2 : p2 = []) (k : Count10) :
    WaStage (p1 ++ [k]) p2 (tally1 k s) := by
  by_cases ended : windowOver s.cfg.tPass1 s = true
  · exact .pass1Over (by simp [ended]) (by simp) (tally.tally1 k) empty2
  · exact .pass1 (by simp [ended, hp]) (tally.tally1 k) empty2

/-- A sample of pass 2 is the last when the window is over (R215). -/
theorem waStage_tally2 (hp : s.phase = Phase.waP2Sample) (some1 : p1 ≠ []) (tally : Tally2 p1 p2 s) (k : Count10) :
    WaStage p1 (p2 ++ [k]) (tally2 k s) := by
  by_cases ended : windowOver s.cfg.tPass2 s = true
  · exact .pass2Over (by simp [ended]) some1 (by simp) (tally.tally2 k)
  · exact .pass2 (by simp [ended, hp]) some1 (tally.tally2 k)

/-- WA_P1_FINISH computes the envelope of the pass (R214). -/
theorem Tally1.execWaP1Finish (tally : Tally1 p s) (e : execWaP1Finish s = .next t) : Tally2 p [] t := by
  have clipped : clippedLow s = (anyClips s.cfg p && decide ((minOf p).val ≤ s.cfg.clipMargin)) := by
    rw [clippedLow, tally.clipf, tally.minc]
  have average : Num.div s.wa.sumv (.num s.wa.cnt1) = averageOf s.cfg p := by rw [tally.sumv, tally.cnt1]; rfl
  cases e
  constructor <;> simp [envelope, clipped, average, tally.minc, tally.maxc, sqDevSum]

/-- WA_P2_FINISH computes the crest factor of the two passes (R216). -/
theorem Tally2.crest (tally : Tally2 p1 p2 s) :
    crestOf s.cfg s.wa.vppT (rmsOf s.wa.sumsq s.wa.cnt2) = crestOfPasses s.cfg p1 p2 := by
  rw [tally.vppT, tally.sumsq, tally.cnt2]; rfl

/-- A move of the sequencer takes the update to its next stage, the sample it drew, if any, joining those of its pass. -/
theorem WaStage.seqStep (f : WaStage p1 p2 s) (e : seqStep s = .next t) :
    WaStage (p1 ++ (seqDraws s).p1) (p2 ++ (seqDraws s).p2) t := by
  cases f with
  | pass1 hp tally empty2 =>
    rw [seqStep_waP1Sample hp, execWaP1Sample_eq] at e; cases e
    rw [seqDraws_waP1Sample hp, List.append_nil]
    exact waStage_tally1 (s := afterConv s) hp { tally with } empty2 _
  | pass2 hp some1 tally =>
    rw [seqStep_waP2Sample hp, execWaP2Sample_eq] at e; cases e
    rw [seqDraws_waP2Sample hp, List.append_nil]
    exact waStage_tally2 (s := afterConv s) hp some1 { tally with } _
  | _ hp => ?_
  all_goals rw [seqDraws_eq_none hp, Draws.none_p1, Draws.none_p2, List.append_nil, List.append_nil]
  case starting empty1 empty2 =>
    rw [seqStep_waP1Start hp] at e; cases e
    rw [empty1]
    exact .pass1 rfl ⟨rfl, rfl, rfl, rfl, rfl⟩ empty2
  case pass1Over some1 tally empty2 =>
    rw [seqStep_waP1Finish hp] at e
    rw [empty2]
    refine .pass2 ?_ some1 (tally.execWaP1Finish e)
    cases e; rfl
  case pass2Over some1 some2 tally =>
    rw [seqStep_waP2Finish hp] at e; cases e
    exact .measured rfl some1 some2 tally.vppT tally.crest
  case measured some1 some2 vppT crest =>
    rw [seqStep_waClassify hp] at e; cases e
    exact .classified rfl some1 some2 (Prod.ext vppT (congrArg (classify s.cfg) crest))
  case classified some1 some2 result =>
    rw [seqStep_waPubVpp hp] at e; cases e
    exact .vppPublished rfl some1 some2 result
  case vppPublished some1 some2 result =>
    rw [seqStep_waPubCls hp] at e; cases e
    exact .published rfl some1 some2 result rfl
  case published some1 some2 result valid =>
    rw [seqStep_idle hp] at e; cases e
    exact .published hp some1 some2 result valid

end

/-! ## The whole update -/

/-- A run of WA_UPDATE from s₀ that has drawn d and reached s. -/
structure WaRun (s₀ : State) (d : Draws) (s : State) : Prop where
  running   : Running s₀ d s
  raw       : d.raw = []
  frequency : SameFrequency s₀ s
  stage     : WaStage d.p1 d.p2 s

theorem waRun_start {s : State} (h : Inv s) (noReset : NoReset s) (hp : s.phase = Phase.waP1Start) :
    WaRun s Draws.none s :=
  ⟨⟨h, noReset, .refl s⟩, rfl, .refl s, .starting hp rfl rfl⟩

theorem WaRun.step {s₀ s t : State} {d : Draws} (r : WaRun s₀ d s) (busy : s.phase ≠ Phase.idle)
    (h : step s = .next t) : WaRun s₀ (d.append (stepDraws s)) t := by
  have hp : s.phase ∈ waPhases := r.stage.phase_mem busy
  have frequency := r.frequency.trans (sameFrequency_step h hp r.running.noReset.next_ne_reset)
  have noRaw : (nextAgent s).2.phase ≠ Phase.fcAcq := by
    intro acq; rw [nextAgent_phase] at acq; rw [acq] at hp; exact absurd hp (by decide)
  have running := r.running.step h
  rcases busyStep_cases h r.running.noReset busy with ⟨drawn, e⟩ | ⟨drawn, same⟩
  · refine ⟨running, ?_, frequency, ?_⟩
    · rw [Draws.append_raw, r.raw, drawn, seqDraws_raw_eq_nil noRaw]; rfl
    · rw [Draws.append_p1, Draws.append_p2, drawn]
      exact (r.stage.of_sameBlock (sameBlock_nextAgent s)).seqStep e
  · rw [drawn, Draws.append_none] at running ⊢
    exact ⟨running, r.raw, frequency, r.stage.of_sameBlock same⟩

/-- Settles O57: every busy step keeps WaRun, and at IDLE its stage is the published one. -/
theorem waveformUpdatePublishesWaResult : Obligations.WaveformUpdatePublishesWaResult := by
  unfold Obligations.WaveformUpdatePublishesWaResult
  intro k s t d h noReset hp run idle
  have r : WaRun s d t := busyRun_keeps WaRun.step (waRun_start h noReset hp) run
  obtain ⟨⟨inv, -, cfg, rawCalls, convCalls, -⟩, raw, ⟨-, -, -, corrFreq, fcValid, fcReady, crit, -⟩, stage⟩ := r
  cases stage with
  | published _ some1 some2 result valid =>
    rw [cfg] at result
    rw [raw] at rawCalls
    have ready : t.flags.waReady = s.flags.waReady := by rw [inv.waValid valid, h.waReady_eq_true hp]
    exact ⟨some1, some2, raw, result, valid, corrFreq, fcValid, crit, fcReady, ready, convCalls, rawCalls⟩
  | _ busy => rw [idle] at busy; exact absurd busy (by decide)

end Sys2Proof.Safety
end

section
/-! The frequency path's acquisition (41_frequency_acquisition.md R140 to R142: O14, O15, O16). -/

namespace Sys2Proof.Machine

/-! ## The critical section (R140, R142, R266) -/

/-- Settles O14: the two meanings are record updates, and the output is the flag. -/
theorem criticalSectionOpensAndCloses : Obligations.CriticalSectionOpensAndCloses := by
  unfold Obligations.CriticalSectionOpensAndCloses
  exact fun s => ⟨rfl, rfl, rfl⟩

/-! ## The guard of FC_ACQ (R141) -/

/-- T_S is positive, so a mark ahead of the clock holds the guard closed: the truncated difference of acqEnabled says the
same as the sum. -/
theorem acqEnabled_iff_interval {s : State} (wf : s.cfg.wf = true) :
    acqEnabled s = true ↔ s.idx = 0 ∨ s.tMark + s.cfg.tS ≤ s.env.now := by
  have tS : 1 ≤ s.cfg.tS := Params.tS_pos wf
  rw [acqEnabled_iff]
  exact or_congr_right (by omega)

theorem execFcAcq_waits {s : State} (closed : ¬ acqEnabled s = true) : execFcAcq s = .next s := by
  rw [execFcAcq, if_neg closed]

/-- Settles O16: the two premises close the guard. -/
theorem sampleWaitsForTheInterval : Obligations.SampleWaitsForTheInterval := by
  unfold Obligations.SampleWaitsForTheInterval
  intro s wf hi early
  have closed : ¬ acqEnabled s = true := by rw [acqEnabled_iff_interval wf]; omega
  exact execFcAcq_waits closed

/-! ## One sample (R141) -/

/-- An answer the state lists is the one RawRead gives (R15). -/
theorem rawRead_listed {s t : State} {c d : Nat} (drawn : rawRead s = .ok (c, t)) (listed : s.env.rawQ.head? = some d) :
    c = d := by
  obtain ⟨rest, hq⟩ := List.head?_eq_some_iff.1 listed
  rw [rawRead, hq] at drawn
  split at drawn
  · next empty => cases empty
  · next cons =>
    cases cons
    split at drawn <;> cases drawn
    rfl

/-- Inside the contract FC_ACQ, enabled at an element of the block, takes a sample. -/
theorem execFcAcq_takes {s : State} (guard : acqEnabled s = true) (hi : s.idx < s.cfg.n)
    (contract : ∀ c ∈ s.env.rawQ, c ≤ s.cfg.fcMaxCount) :
    ∃ c, c ≤ s.cfg.fcMaxCount ∧ rawRead s = .ok (c, afterRaw s) ∧ execFcAcq s = .next (takeSample c (afterRaw s)) := by
  rcases execFcAcq_cases s with ⟨closed, -⟩ | ⟨-, -, taken | ⟨c, listed, above, -⟩⟩ | ⟨-, outside, -⟩
  · rw [guard] at closed; cases closed
  · exact taken
  · exact absurd (contract c listed) (not_le.2 above)
  · exact absurd hi (not_lt.2 outside)

theorem takeSample_reAt {s : State} (re : Memory.wf s.cfg.n s.blk.re = true) (c j : Nat) :
    (takeSample c s).reAt j = if j = s.idx then rawVolt s.cfg c else s.reAt j := Memory.read_write re ..

theorem takeSample_imAt {s : State} (im : Memory.wf s.cfg.n s.blk.im = true) (c j : Nat) :
    (takeSample c s).imAt j = if j = s.idx then Num.zero else s.imAt j := Memory.read_write im ..

/-- A sample writes the block, T_MARK, PHASE and IDX, and no other register. -/
theorem takeSample_eq {s : State} (hi : s.idx < s.cfg.n) (c : Nat) :
    takeSample c s = { s with
      blk := (takeSample c s).blk, tMark := s.env.now
      phase := if s.idx = s.cfg.n - 1 then Phase.fcCritExit else s.phase
      idx := if s.idx = s.cfg.n - 1 then s.idx else s.idx + 1 } := by
  have last : s.idx + 1 = s.cfg.n ↔ s.idx = s.cfg.n - 1 := by omega
  simp only [takeSample, last, decide_eq_true_eq]

/-- Settles O15: the premises leave of FC_ACQ's cases the sample taken, and the sample writes the element at IDX of each
array. -/
theorem timedSampleTaken : Obligations.TimedSampleTaken := by
  unfold Obligations.TimedSampleTaken
  intro s wf re im hi enabled contract
  obtain ⟨c, inRange, drawn, taken⟩ := execFcAcq_takes ((acqEnabled_iff_interval wf).2 enabled) hi contract
  have reAt (j : Nat) : (takeSample c (afterRaw s)).reAt j = if j = s.idx then rawVolt s.cfg c else s.reAt j :=
    takeSample_reAt (s := afterRaw s) re c j
  have imAt (j : Nat) : (takeSample c (afterRaw s)).imAt j = if j = s.idx then Num.zero else s.imAt j :=
    takeSample_imAt (s := afterRaw s) im c j
  refine ⟨c, _, inRange, fun d => rawRead_listed drawn, taken, ?_, ?_, fun j hj => ⟨?_, ?_⟩, takeSample_eq (s := afterRaw s) hi c⟩
  · rw [reAt, if_pos rfl, rawVolt_toReal wf]
  · rw [imAt, if_pos rfl, Num.toReal_zero]
  · rw [reAt, if_neg hj]
  · rw [imAt, if_neg hj]

end Sys2Proof.Machine
end

section
/-! The spectral peak detector (42_spectral_peak.md R160 to R164: O18 to O24). -/

namespace Sys2Proof.Machine
open Safety

/-! ## The scan for the peak (R163) -/

/-- The recursion of the scan is the fold over the bins it visits, in ascending order. -/
theorem peakScan_eq_foldl (c : Params) (m : Nat → Num) (steps k kmax : Nat) :
    peakScan c m steps k kmax =
      (List.range' k steps).foldl (fun kmax j => if c.lt (m kmax) (m j) = true then j else kmax) kmax := by
  induction steps generalizing k kmax with
  | zero => rfl
  | succ n ih => rw [peakScan, ih, List.range'_succ, List.foldl_cons]

/-- Settles O21: the scan is the fold, and in exact reals the bin it leaves is the least of greatest value. -/
theorem peakIsTheLeastGreatestBin : Obligations.PeakIsTheLeastGreatestBin := by
  unfold Obligations.PeakIsTheLeastGreatestBin
  intro s wf
  have range : s.cfg.kMin ≤ s.cfg.kMax := Params.kMin_le wf
  obtain ⟨lower, upper⟩ := peakBin_range s.cfg s.reAt range
  exact ⟨peakBin s.cfg s.reAt, _, rfl, lower, upper, peakScan_eq_foldl .., rfl, peakFreq_toReal wf s.reAt,
    fun reference => peakBin_spec reference s.reAt range⟩

/-- The scan sees the magnitudes through the build's comparison alone. -/
theorem peakScan_congr_lt (c : Params) {m m' : Nat → Num} (h : ∀ i j, c.lt (m i) (m j) = c.lt (m' i) (m' j))
    (steps k kmax : Nat) : peakScan c m steps k kmax = peakScan c m' steps k kmax := by
  induction steps generalizing k kmax with
  | zero => rfl
  | succ n ih => rw [peakScan, peakScan, h, ih]

theorem peakFreq_congr_lt (c : Params) {m m' : Nat → Num} (h : ∀ i j, c.lt (m i) (m j) = c.lt (m' i) (m' j)) :
    peakFreq c m = peakFreq c m' := by
  rw [peakFreq, peakFreq, peakBin, peakBin, peakScan_congr_lt c h]

/-- A positive common factor leaves the order of the magnitudes, and with it the peak, as it was (R164 (a)). -/
theorem peakFreq_of_scaled {c : Params} (reference : c.numerics = .reference) {r : ℝ} (pos : 0 < r) {m m' : Nat → Num}
    (scaled : ∀ k, (m' k).toReal = r * (m k).toReal) : peakFreq c m = peakFreq c m' := by
  refine peakFreq_congr_lt c fun i j => Bool.eq_iff_iff.2 ?_
  rw [Params.lt_iff reference, Params.lt_iff reference, scaled, scaled, mul_lt_mul_iff_right₀ pos]

/-! ## The window (R160) -/

/-- N is a power of two and at least 8. -/
theorem two_dvd_blockSize {c : Params} (wf : c.wf = true) : 2 ∣ c.n := by
  have size := Params.n_ge wf
  have pow := Params.n_pow wf
  have log : Nat.log2 c.n ≠ 0 := fun zero => by rw [zero] at pow; omega
  rw [← pow]
  exact dvd_pow_self 2 log

/-- The window is the square of the sine of half its angle. -/
theorem hann_eq_sin_sq {n : Nat} (h : n - 1 ≠ 0) (i : Nat) :
    (hann n i).toReal = Real.sin (Real.pi * i / (n - 1 : Nat)) ^ 2 := by
  rw [hann_toReal h, Real.sin_sq_eq_half_sub]
  ring_nf

theorem hann_first {n : Nat} (h : n - 1 ≠ 0) : (hann n 0).toReal = 0 := by simp [hann_eq_sin_sq h]

/-- Seen from the other end the half angle is its supplement, which has the same sine. -/
theorem hann_mirror {n i : Nat} (h : n - 1 ≠ 0) (hi : i < n) : (hann n (n - 1 - i)).toReal = (hann n i).toReal := by
  have divisor : ((n - 1 : Nat) : ℝ) ≠ 0 := Nat.cast_ne_zero.2 h
  have supplement : Real.pi * ((n - 1 - i : Nat) : ℝ) / (n - 1 : Nat) = Real.pi - Real.pi * i / (n - 1 : Nat) := by
    rw [Nat.cast_sub (by omega)]
    field_simp
  rw [hann_eq_sin_sq h, hann_eq_sin_sq h, supplement, Real.sin_pi_sub]

theorem hann_last {n : Nat} (h : n - 1 ≠ 0) : (hann n (n - 1)).toReal = 0 := by
  rw [← hann_first h, ← hann_mirror h (by omega : 0 < n), Nat.sub_zero]

/-- The window reaches 1 only at an angle of pi, midway between the ends, where a block of even length has no sample. -/
theorem hann_lt_one {n : Nat} (h : n - 1 ≠ 0) (even : 2 ∣ n) (i : Nat) : (hann n i).toReal < 1 := by
  have divisor : ((n - 1 : Nat) : ℝ) ≠ 0 := Nat.cast_ne_zero.2 h
  have cos_ne_zero : Real.cos (Real.pi * i / (n - 1 : Nat)) ≠ 0 := by
    rw [Real.cos_ne_zero_iff]
    intro k midway
    have double : (2 * i : ℝ) = (2 * k + 1) * (n - 1 : Nat) := by
      field_simp at midway
      linarith
    have double_int : (2 * i : ℤ) = (2 * k + 1) * (n - 1 : Nat) := by exact_mod_cast double
    have odd : Odd ((2 * k + 1) * ((n - 1 : Nat) : ℤ)) := by
      refine (odd_two_mul_add_one k).mul ?_
      rw [Int.odd_coe_nat, Nat.odd_iff]
      omega
    exact Int.not_even_iff_odd.2 odd (double_int ▸ even_two_mul _)
  rw [hann_eq_sin_sq h, Real.sin_sq]
  exact sub_lt_self 1 (by positivity)

/-- Settles O22, from the lemmas on the window: N is even and above 1. -/
theorem hannWindowShape : Obligations.HannWindowShape := by
  unfold Obligations.HannWindowShape
  intro c wf
  have h : c.n - 1 ≠ 0 := by have := Params.n_ge wf; omega
  refine ⟨hann_first h, hann_last h, fun i hi => ⟨(hann_mirror h hi).symm, ?_, hann_lt_one h (two_dvd_blockSize wf) i⟩⟩
  rw [hann_eq_sin_sq h]
  exact sq_nonneg _

/-! ## The elements of the block after a step (R65) -/

section
variable {s t : State} {k : Nat}

theorem execSpdWindow_reAt (e : execSpdWindow s = .next t) (hk : k < s.cfg.n) : t.reAt k = window s.cfg.n s.reAt k := by
  cases e
  exact read_fill_of_lt _ hk

theorem execSpdFft_reAt (e : execSpdFft s = .next t) (hk : k < s.cfg.n) :
    t.reAt k = transformRe s.cfg.n s.reAt s.imAt k := by
  cases e
  exact read_fill_of_lt _ hk

theorem execSpdFft_imAt (e : execSpdFft s = .next t) (hk : k < s.cfg.n) :
    t.imAt k = transformIm s.cfg.n s.reAt s.imAt k := by
  cases e
  exact read_fill_of_lt _ hk

theorem execSpdFft_cfg (e : execSpdFft s = .next t) : t.cfg = s.cfg := by
  cases e
  rfl

theorem execSpdMag_reAt (e : execSpdMag s = .next t) (hk : k < s.cfg.n) : t.reAt k = magnitude s.reAt s.imAt k := by
  cases e
  exact read_fill_of_lt _ hk

end

/-- Settles O18: an element of the block is its sample times the window. -/
theorem windowWeighsEachSample : Obligations.WindowWeighsEachSample := by
  unfold Obligations.WindowWeighsEachSample
  intro s wf
  have size := Params.n_ge wf
  refine ⟨_, rfl, fun i hi => ?_, rfl⟩
  rw [execSpdWindow_reAt rfl hi, window, Num.toReal_mul, hann_toReal (by omega), Nat.cast_pred (by omega)]

/-- Settles O19: the elements are the two sums of the transform. -/
theorem transformIsTheDft : Obligations.TransformIsTheDft := by
  unfold Obligations.TransformIsTheDft
  refine fun s => ⟨_, rfl, fun k hk => ⟨?_, ?_⟩, rfl⟩
  · rw [execSpdFft_reAt rfl hk, transformRe_toReal (by omega)]
  · rw [execSpdFft_imAt rfl hk, transformIm_toReal (by omega)]

/-- Settles O20: the elements are the magnitudes of the bins. -/
theorem magnitudeIsTheModulus : Obligations.MagnitudeIsTheModulus := by
  unfold Obligations.MagnitudeIsTheModulus
  refine fun s => ⟨_, rfl, fun k hk => ?_, rfl⟩
  rw [execSpdMag_reAt rfl hk, magnitude_toReal, sq, sq]

/-! ## The spectrum of a real block (R161 (a), R162) -/

section
variable {n k : Nat} {x y : Nat → Num}

/-- The angle of bin N - k is that of bin k taken backwards, up to whole turns. -/
theorem mirroredAngle (hk : k < n) (i : Nat) :
    2 * Real.pi * ((n - k : Nat) : ℝ) * i / n = i * (2 * Real.pi) - 2 * Real.pi * k * i / n := by
  have divisor : (n : ℝ) ≠ 0 := Nat.cast_ne_zero.2 (by omega)
  rw [Nat.cast_sub hk.le]
  field_simp

theorem transformRe_mirror (hk : k < n) (real : ∀ i, i < n → (y i).toReal = 0) :
    (transformRe n x y (n - k)).toReal = (transformRe n x y k).toReal := by
  rw [transformRe_toReal (by omega), transformRe_toReal (by omega)]
  refine Finset.sum_congr rfl fun i hi => ?_
  rw [real i (Finset.mem_range.1 hi), mirroredAngle hk, Real.cos_nat_mul_two_pi_sub]
  ring

theorem transformIm_mirror (hk : k < n) (real : ∀ i, i < n → (y i).toReal = 0) :
    (transformIm n x y (n - k)).toReal = -(transformIm n x y k).toReal := by
  rw [transformIm_toReal (by omega), transformIm_toReal (by omega), ← Finset.sum_neg_distrib]
  refine Finset.sum_congr rfl fun i hi => ?_
  rw [real i (Finset.mem_range.1 hi), mirroredAngle hk, Real.sin_nat_mul_two_pi_sub]
  ring

theorem transformIm_bin_zero (hn : 0 < n) (real : ∀ i, i < n → (y i).toReal = 0) : (transformIm n x y 0).toReal = 0 := by
  rw [transformIm_toReal hn.ne']
  refine Finset.sum_eq_zero fun i hi => ?_
  simp [real i (Finset.mem_range.1 hi)]

end

/-- Settles O23: bin N/2 mirrors onto itself, and a magnitude does not see the sign of the imaginary part. -/
theorem realSpectrumIsMirrored : Obligations.RealSpectrumIsMirrored := by
  unfold Obligations.RealSpectrumIsMirrored
  intro s t u wf real fft mag
  have size := Params.n_ge wf
  have half : s.cfg.n - s.cfg.n / 2 = s.cfg.n / 2 := by have := two_dvd_blockSize wf; omega
  have reAt {k : Nat} (hk : k < s.cfg.n) : t.reAt k = transformRe s.cfg.n s.reAt s.imAt k := execSpdFft_reAt fft hk
  have imAt {k : Nat} (hk : k < s.cfg.n) : t.imAt k = transformIm s.cfg.n s.reAt s.imAt k := execSpdFft_imAt fft hk
  have magAt {k : Nat} (hk : k < s.cfg.n) : u.reAt k = magnitude t.reAt t.imAt k :=
    execSpdMag_reAt mag (by rwa [execSpdFft_cfg fft])
  have reMirror (k : Nat) (pos : 0 < k) (hk : k < s.cfg.n) : (t.reAt (s.cfg.n - k)).toReal = (t.reAt k).toReal := by
    rw [reAt (by omega), reAt hk, transformRe_mirror hk real]
  have imMirror (k : Nat) (pos : 0 < k) (hk : k < s.cfg.n) : (t.imAt (s.cfg.n - k)).toReal = -(t.imAt k).toReal := by
    rw [imAt (by omega), imAt hk, transformIm_mirror hk real]
  refine ⟨?_, ?_, fun k pos hk => ⟨reMirror k pos hk, imMirror k pos hk, ?_⟩⟩
  · rw [imAt (by omega), transformIm_bin_zero (by omega) real]
  · have self := imMirror (s.cfg.n / 2) (by omega) (by omega)
    rw [half] at self
    linarith
  · rw [magAt (by omega), magAt hk, magnitude_toReal, magnitude_toReal, reMirror k pos hk, imMirror k pos hk, neg_sq]

/-! ## What the detected frequency does not depend on (R164) -/

section
variable {n : Nat} {r : ℝ} {x x' : Nat → Num}

/-- The window is zero at both ends, so the end samples have no weight (R164 (c)). -/
theorem window_of_scaled (h : n - 1 ≠ 0) (scaled : ∀ i, 0 < i → i < n - 1 → (x' i).toReal = r * (x i).toReal) {i : Nat}
    (hi : i < n) : (window n x' i).toReal = r * (window n x i).toReal := by
  rw [window, window, Num.toReal_mul, Num.toReal_mul]
  rcases Nat.eq_zero_or_pos i with rfl | pos
  · rw [hann_first h, mul_zero, mul_zero, mul_zero]
  rcases (Nat.le_sub_one_of_lt hi).eq_or_lt with rfl | inner
  · rw [hann_last h, mul_zero, mul_zero, mul_zero]
  · rw [scaled i pos inner, mul_assoc]

theorem transformRe_of_scaled (hn : n ≠ 0) (scaled : ∀ i, i < n → (x' i).toReal = r * (x i).toReal) (k : Nat) :
    (transformRe n x' (fun _ => Num.zero) k).toReal = r * (transformRe n x (fun _ => Num.zero) k).toReal := by
  rw [transformRe_toReal hn, transformRe_toReal hn, Finset.mul_sum]
  refine Finset.sum_congr rfl fun i hi => ?_
  rw [scaled i (Finset.mem_range.1 hi), Num.toReal_zero]
  ring

theorem transformIm_of_scaled (hn : n ≠ 0) (scaled : ∀ i, i < n → (x' i).toReal = r * (x i).toReal) (k : Nat) :
    (transformIm n x' (fun _ => Num.zero) k).toReal = r * (transformIm n x (fun _ => Num.zero) k).toReal := by
  rw [transformIm_toReal hn, transformIm_toReal hn, Finset.mul_sum]
  refine Finset.sum_congr rfl fun i hi => ?_
  rw [scaled i (Finset.mem_range.1 hi), Num.toReal_zero]
  ring

theorem magnitude_of_scaled (pos : 0 ≤ r) {a b a' b' : Nat → Num} {k : Nat} (re : (a' k).toReal = r * (a k).toReal)
    (im : (b' k).toReal = r * (b k).toReal) : (magnitude a' b' k).toReal = r * (magnitude a b k).toReal := by
  rw [magnitude_toReal, magnitude_toReal, re, im, mul_pow, mul_pow, ← mul_add, Real.sqrt_mul (sq_nonneg r), Real.sqrt_sq pos]

end

/-- Settles O24: window, transform and modulus carry the common factor through to every magnitude. -/
theorem peakIgnoresScaleAndEndSamples : Obligations.PeakIgnoresScaleAndEndSamples := by
  unfold Obligations.PeakIgnoresScaleAndEndSamples
  intro c r x x' wf reference pos scaled
  have size := Params.n_ge wf
  have windowed : ∀ i, i < c.n → (window c.n x' i).toReal = r * (window c.n x i).toReal :=
    fun i hi => window_of_scaled (by omega) scaled hi
  exact peakFreq_of_scaled reference pos fun k =>
    magnitude_of_scaled pos.le (transformRe_of_scaled (by omega) windowed k) (transformIm_of_scaled (by omega) windowed k)

end Sys2Proof.Machine
end

section
/-! The calibration interpolator and the publication of the frequency (43_calibration.md R190 to R193: O25 to O28). -/

namespace Sys2Proof.Machine

/-! ## The brackets of the table (R190) -/

/-- The table has an i-th bracket, and it contains raw by the build's comparison. -/
def Bracketed (c : Params) (raw : Num) (i : Nat) : Prop :=
  i + 1 < calLen c ∧ inBracket c (c.cal.getD i default) (c.cal.getD (i + 1) default) raw = true

/-- The interpolation of the i-th bracket. -/
def calPiece (c : Params) (raw : Num) (i : Nat) : Num :=
  interpolate (c.cal.getD i default) (c.cal.getD (i + 1) default) raw

section
variable {c : Params} {raw : Num} {i j : Nat}

theorem bracketed_iff :
    Bracketed c raw i ↔ i + 1 < calLen c ∧ c.le (calMeas c i) raw = true ∧ c.le raw (calMeas c (i + 1)) = true := by
  rw [Bracketed, inBracket, Bool.and_eq_true, calMeas, calMeas]

/-- What the scan of the table can answer: the first bracket that contains raw, or nothing. -/
theorem calScan_cases (c : Params) (raw : Num) :
    (∃ i, Bracketed c raw i ∧ (∀ j, j < i → ¬ Bracketed c raw j) ∧ calScan c c.cal raw = some (calPiece c raw i)) ∨
    ((∀ i, ¬ Bracketed c raw i) ∧ calScan c c.cal raw = none) := by
  rcases calScan_spec c c.cal raw with ⟨i, hi, inside, before, scan⟩ | ⟨outside, scan⟩
  · exact .inl ⟨i, ⟨hi, inside⟩, fun j hj b => Bool.false_ne_true ((before j hj).symm.trans b.2), scan⟩
  · exact .inr ⟨fun i b => Bool.false_ne_true ((outside i b.1).symm.trans b.2), scan⟩

theorem calScan_of_first (inside : Bracketed c raw i) (first : ∀ j, j < i → ¬ Bracketed c raw j) :
    calScan c c.cal raw = some (calPiece c raw i) := by
  rcases calScan_cases c raw with ⟨k, bracket, before, scan⟩ | ⟨outside, -⟩
  · rcases lt_trichotomy k i with lt | rfl | gt
    · exact absurd bracket (first k lt)
    · exact scan
    · exact absurd inside (before i gt)
  · exact absurd inside (outside i)

theorem calScan_of_outside (outside : ∀ i, ¬ Bracketed c raw i) : calScan c c.cal raw = none := by
  rcases calScan_cases c raw with ⟨i, bracket, -, -⟩ | ⟨-, scan⟩
  · exact absurd bracket (outside i)
  · exact scan

theorem calibrate_of_some {v : Num} (scan : calScan c c.cal raw = some v) : calibrate c raw = v := by
  rw [calibrate, scan, Option.getD_some]

theorem calibrate_of_none (scan : calScan c c.cal raw = none) : calibrate c raw = raw := by
  rw [calibrate, scan, Option.getD_none]

end

section
variable {s t : State}

theorem calLookup_of_some {v : Num} (scan : calScan s.cfg s.cfg.cal s.fc.rawFreq = some v) (e : execCalLookup s = .next t) :
    t.flags.found = true ∧ t.fc.corrT = v := by
  cases e
  exact ⟨by rw [scan, Option.isSome_some], calibrate_of_some scan⟩

theorem calLookup_of_none (scan : calScan s.cfg s.cfg.cal s.fc.rawFreq = none) (e : execCalLookup s = .next t) :
    t.flags.found = false ∧ t.fc.corrT = s.fc.rawFreq := by
  cases e
  exact ⟨by rw [scan, Option.isSome_none], calibrate_of_none scan⟩

end

/-! ## The brackets in real numbers -/

section
variable {c : Params} {raw : Num} {i j : Nat} (wf : c.wf = true) (reference : c.numerics = .reference)

include reference in
theorem bracketed_iff_real : Bracketed c raw i ↔
    i + 1 < calLen c ∧ (calMeas c i).toReal ≤ raw.toReal ∧ raw.toReal ≤ (calMeas c (i + 1)).toReal := by
  rw [bracketed_iff, Params.le_iff reference, Params.le_iff reference]

include wf reference

theorem calMeas_mono (hij : i ≤ j) (hj : j < calLen c) : (calMeas c i).toReal ≤ (calMeas c j).toReal := by
  rcases hij.eq_or_lt with rfl | lt
  · exact le_rfl
  · exact (Params.calMeas_lt wf reference lt hj).le

theorem calPiece_toReal (hi : i + 1 < calLen c) : (calPiece c raw i).toReal = (calTrue c i).toReal +
    (raw.toReal - (calMeas c i).toReal) * ((calTrue c (i + 1)).toReal - (calTrue c i).toReal) /
      ((calMeas c (i + 1)).toReal - (calMeas c i).toReal) :=
  interpolate_toReal _ _ raw (Params.calMeas_step wf reference hi)

theorem calPiece_at_lower (hi : i + 1 < calLen c) (at_lower : raw.toReal = (calMeas c i).toReal) :
    (calPiece c raw i).toReal = (calTrue c i).toReal := by
  rw [calPiece_toReal wf reference hi, at_lower, sub_self, zero_mul, zero_div, add_zero]

theorem calPiece_at_upper (hi : i + 1 < calLen c) (at_upper : raw.toReal = (calMeas c (i + 1)).toReal) :
    (calPiece c raw i).toReal = (calTrue c (i + 1)).toReal := by
  have width : (calMeas c (i + 1)).toReal - (calMeas c i).toReal ≠ 0 :=
    (sub_pos.2 (Params.calMeas_step wf reference hi)).ne'
  rw [calPiece_toReal wf reference hi, at_upper, mul_div_cancel_left₀ _ width, add_sub_cancel]

/-- Two different brackets that contain raw are neighbours, and raw is the breakpoint between them. -/
theorem shared_breakpoint (hi : Bracketed c raw i) (hj : Bracketed c raw j) (lt : i < j) :
    j = i + 1 ∧ raw.toReal = (calMeas c (i + 1)).toReal := by
  obtain ⟨-, -, upper⟩ := (bracketed_iff_real reference).1 hi
  obtain ⟨len, lower, -⟩ := (bracketed_iff_real reference).1 hj
  rcases (Nat.succ_le_of_lt lt).eq_or_lt with rfl | apart
  · exact ⟨rfl, le_antisymm upper lower⟩
  · have rising : (calMeas c (i + 1)).toReal < (calMeas c j).toReal := Params.calMeas_lt wf reference apart (by omega)
    exact absurd (lower.trans upper) (not_le.2 rising)

/-- The pieces meet (R193 (a)): the first bracket that contains raw gives the value of every other one. -/
theorem calPiece_eq_of_le (hi : Bracketed c raw i) (hj : Bracketed c raw j) (le : i ≤ j) :
    (calPiece c raw i).toReal = (calPiece c raw j).toReal := by
  rcases le.eq_or_lt with rfl | lt
  · rfl
  · obtain ⟨rfl, breakpoint⟩ := shared_breakpoint wf reference hi hj lt
    rw [calPiece_at_upper wf reference hi.1 breakpoint, calPiece_at_lower wf reference hj.1 breakpoint]

/-- In any bracket that contains raw the scan answers that bracket's value. -/
theorem calScan_of_bracketed (hi : Bracketed c raw i) :
    ∃ v, calScan c c.cal raw = some v ∧ v.toReal = (calPiece c raw i).toReal := by
  rcases calScan_cases c raw with ⟨k, bracket, before, scan⟩ | ⟨outside, -⟩
  · exact ⟨_, scan, calPiece_eq_of_le wf reference bracket hi (not_lt.1 fun lt => before i lt hi)⟩
  · exact absurd hi (outside i)

theorem calibrate_of_bracketed (hi : Bracketed c raw i) : (calibrate c raw).toReal = (calPiece c raw i).toReal := by
  obtain ⟨v, scan, value⟩ := calScan_of_bracketed wf reference hi
  rw [calibrate_of_some scan, value]

/-- Outside the table no bracket contains raw (R193 (b)). -/
theorem not_bracketed_of_outside
    (outside : raw.toReal < (calMeas c 0).toReal ∨ (calMeas c (calLen c - 1)).toReal < raw.toReal) (i : Nat) :
    ¬ Bracketed c raw i := by
  intro bracket
  obtain ⟨len, lower, upper⟩ := (bracketed_iff_real reference).1 bracket
  rcases outside with below | above
  · exact absurd ((calMeas_mono wf reference i.zero_le (by omega)).trans lower) (not_le.2 below)
  · exact absurd (upper.trans (calMeas_mono wf reference (by omega) (by omega))) (not_le.2 above)

omit wf in
/-- From the first entry to a later one the brackets leave no gap. -/
theorem exists_bracketed (hj : j + 1 < calLen c) (lower : (calMeas c 0).toReal ≤ raw.toReal)
    (upper : raw.toReal ≤ (calMeas c (j + 1)).toReal) : ∃ i, Bracketed c raw i := by
  induction j with
  | zero => exact ⟨0, (bracketed_iff_real reference).2 ⟨hj, lower, upper⟩⟩
  | succ k ih =>
    rcases le_total raw.toReal (calMeas c (k + 1)).toReal with le | ge
    · exact ih (by omega) le
    · exact ⟨k + 1, (bracketed_iff_real reference).2 ⟨hj, ge, upper⟩⟩

/-- At a measured entry Calibrate is the true entry (R193 (d)): the lower end of its own bracket, or for the last entry the
upper end of the last bracket. -/
theorem calibrate_at_breakpoint (hi : i < calLen c) (breakpoint : raw.toReal = (calMeas c i).toReal) :
    (calibrate c raw).toReal = (calTrue c i).toReal := by
  by_cases inner : i + 1 < calLen c
  · have bracket : Bracketed c raw i := (bracketed_iff_real reference).2
      ⟨inner, breakpoint.ge, breakpoint.le.trans (Params.calMeas_step wf reference inner).le⟩
    rw [calibrate_of_bracketed wf reference bracket, calPiece_at_lower wf reference inner breakpoint]
  · have two : 2 ≤ calLen c := Params.cal_len wf
    obtain ⟨k, rfl⟩ : ∃ k, i = k + 1 := ⟨i - 1, by omega⟩
    have bracket : Bracketed c raw k := (bracketed_iff_real reference).2
      ⟨hi, (Params.calMeas_step wf reference hi).le.trans breakpoint.ge, breakpoint.le⟩
    rw [calibrate_of_bracketed wf reference bracket, calPiece_at_upper wf reference hi breakpoint]

end

/-! ## The four statements -/

/-- Settles O25: the step is the scan, which answers in the first bracket; in real numbers the pieces meet, so in any. -/
theorem lookupTakesTheFirstBracket : Obligations.LookupTakesTheFirstBracket := by
  unfold Obligations.LookupTakesTheFirstBracket
  refine fun s => ⟨_, rfl, rfl, fun i len lower upper first => ?_, fun outside => ?_, fun wf reference =>
    ⟨fun i len lower upper => ?_, fun outside => ?_⟩⟩
  · exact calLookup_of_some (calScan_of_first (bracketed_iff.2 ⟨len, lower, upper⟩)
      fun j hj bracket => first j hj (bracketed_iff.1 bracket).2) rfl
  · exact calLookup_of_none (calScan_of_outside fun i bracket => outside i bracket.1 (bracketed_iff.1 bracket).2) rfl
  · obtain ⟨v, scan, value⟩ := calScan_of_bracketed wf reference ((bracketed_iff_real reference).2 ⟨len, lower, upper⟩)
    obtain ⟨found, corrT⟩ := calLookup_of_some scan rfl
    exact ⟨found, by rw [corrT, value, calPiece_toReal wf reference len]⟩
  · exact calLookup_of_none (calScan_of_outside (not_bracketed_of_outside wf reference outside)) rfl

/-- Settles O26: the brackets cover the table, and the pieces meet at the breakpoints. -/
theorem calibratePiecewiseLinear : Obligations.CalibratePiecewiseLinear := by
  unfold Obligations.CalibratePiecewiseLinear
  refine fun c raw wf reference => ⟨fun lower upper => ?_, fun i len lower upper => ?_, fun i hi breakpoint => ?_⟩
  · have two : 2 ≤ calLen c := Params.cal_len wf
    have last : calLen c - 1 = calLen c - 2 + 1 := by omega
    rw [last] at upper
    obtain ⟨i, bracket⟩ := exists_bracketed reference (by omega) lower upper
    exact ⟨i, (bracketed_iff_real reference).1 bracket⟩
  · rw [calibrate_of_bracketed wf reference ((bracketed_iff_real reference).2 ⟨len, lower, upper⟩),
      calPiece_toReal wf reference len, mul_div_assoc]
  · exact calibrate_at_breakpoint wf reference hi breakpoint

/-- Settles O27: the table starts above zero, so a frequency not positive is below it; outside it the scan finds nothing. -/
theorem calibratePassesThroughOutside : Obligations.CalibratePassesThroughOutside := by
  unfold Obligations.CalibratePassesThroughOutside
  intro c raw wf reference outside
  have beyond : raw.toReal < (calMeas c 0).toReal ∨ (calMeas c (calLen c - 1)).toReal < raw.toReal := by
    rcases outside with below | above | nonpos
    · exact .inl below
    · exact .inr above
    · exact .inl (nonpos.trans_lt (Params.cal_head_pos wf reference))
  exact calibrate_of_none (calScan_of_outside (not_bracketed_of_outside wf reference beyond))

/-- Settles O28: the state of the step is written out in its definition. -/
theorem publishWritesCorrFreq : Obligations.PublishWritesCorrFreq := by
  unfold Obligations.PublishWritesCorrFreq
  exact fun s => rfl

end Sys2Proof.Machine
end

section
/-! The waveform statistics unit (44_waveform_statistics.md R210 to R216: O29 to O35, O39). -/

namespace Sys2Proof.Machine

/-! ## The converter (R210) -/

theorem convExchange_snd (ch : BitVec 8) (s : State) : (convExchange ch s).2 = afterConv s := by
  obtain ⟨_, _, _, _, _, _, _, _, _, ⟨_, _, _, _, q, _, _, _, _⟩⟩ := s
  cases q <;> rfl

/-- An answer the state lists is the one the exchange gives (R15). -/
theorem convExchange_listed {ch : BitVec 8} {s : State} {d : Count10} (listed : s.env.convQ.head? = some d) :
    (convExchange ch s).1 = d := by
  obtain ⟨rest, hq⟩ := List.head?_eq_some_iff.1 listed
  rw [convExchange, hq]

theorem convRead_of_gt {ch : BitVec 8} (above : 7 < ch.toNat) (s : State) : convRead ch s = (0, s) := if_pos above

theorem convRead_of_le {ch : BitVec 8} (channel : ch.toNat ≤ 7) (s : State) : convRead ch s = convExchange ch s :=
  if_neg (not_lt.2 channel)

/-- Settles O34: the test of the channel decides between zero and one exchange. -/
theorem convReadOutOfRangeIsZero : Obligations.ConvReadOutOfRangeIsZero := by
  unfold Obligations.ConvReadOutOfRangeIsZero
  refine fun ch s => ⟨fun above => convRead_of_gt above s, fun channel => ?_⟩
  rw [convRead_of_le channel]
  exact ⟨convExchange_snd ch s, fun _ => convExchange_listed⟩

/-! ## The sampling steps (R211, R212, R215) -/

/-- A window is at least one microsecond, so a mark ahead of the clock keeps it open: the truncated difference of windowOver
says the same as the sum. -/
theorem windowOver_iff_marked {w : Nat} (pos : 1 ≤ w) (s : State) : windowOver w s = true ↔ s.tMark + w ≤ s.env.now := by
  rw [windowOver_iff]
  omega

section
variable {s : State} (wf : s.cfg.wf = true) (c : Count10)
include wf

theorem tally1_sumv_toReal :
    (tally1 c s).wa.sumv.toReal = s.wa.sumv.toReal + c.val * s.cfg.vRef.toReal / s.cfg.maxCountScale := by
  rw [tally1_wa, Num.toReal_add, volt_toReal wf]

theorem tally2_sumsq_toReal : (tally2 c s).wa.sumsq.toReal =
    s.wa.sumsq.toReal + (c.val * s.cfg.vRef.toReal / s.cfg.maxCountScale - s.wa.dcoff.toReal) ^ 2 := by
  rw [tally2_wa, Num.toReal_add, sqDev_toReal, volt_toReal wf]

theorem tally1_phase_marked :
    (tally1 c s).phase = if s.tMark + s.cfg.tPass1 ≤ s.env.now then Phase.waP1Finish else s.phase :=
  if_congr (windowOver_iff_marked (Params.tPass1_pos wf) s) rfl rfl

theorem tally2_phase_marked :
    (tally2 c s).phase = if s.tMark + s.cfg.tPass2 ≤ s.env.now then Phase.waP2Finish else s.phase :=
  if_congr (windowOver_iff_marked (Params.tPass2_pos wf) s) rfl rfl

end

/-- A step of pass 1 tallies one exchanged count, the listed one where the state lists one. -/
theorem exec_waP1Sample_draws (s : State) : ∃ c : Count10, (∀ d, s.env.convQ.head? = some d → c = d) ∧
    exec .waP1Sample s = .next (tally1 c (afterConv s)) :=
  ⟨_, fun _ => convExchange_listed, execWaP1Sample_eq s⟩

theorem exec_waP2Sample_draws (s : State) : ∃ c : Count10, (∀ d, s.env.convQ.head? = some d → c = d) ∧
    exec .waP2Sample s = .next (tally2 c (afterConv s)) :=
  ⟨_, fun _ => convExchange_listed, execWaP2Sample_eq s⟩

/-- Settles O29: the state of the step is written out in its definition. -/
theorem passOneStarts : Obligations.PassOneStarts := by
  unfold Obligations.PassOneStarts
  exact fun s => ⟨_, rfl, Num.toReal_zero, rfl⟩

/-- Settles O30: the step is the tally of the count exchanged. -/
theorem passOneSample : Obligations.PassOneSample := by
  unfold Obligations.PassOneSample
  intro s wf
  obtain ⟨c, listed, step⟩ := exec_waP1Sample_draws s
  have phase : (tally1 c (afterConv s)).phase = if s.tMark + s.cfg.tPass1 ≤ s.env.now then 0x13#5 else s.phase :=
    tally1_phase_marked (s := afterConv s) wf c
  refine ⟨c, _, listed, step, ?_, ?_, ?_, ?_, ?_⟩
  · exact Fin.coe_min ..
  · exact Fin.coe_max ..
  · exact tally1_sumv_toReal wf c
  · rw [tally1_flags, Bool.or_eq_true, clips_iff]; rfl
  · rw [← phase]; rfl

/-- Settles O32: the step is the tally of the count exchanged. -/
theorem passTwoSample : Obligations.PassTwoSample := by
  unfold Obligations.PassTwoSample
  intro s wf
  obtain ⟨c, listed, step⟩ := exec_waP2Sample_draws s
  have phase : (tally2 c (afterConv s)).phase = if s.tMark + s.cfg.tPass2 ≤ s.env.now then 0x15#5 else s.phase :=
    tally2_phase_marked (s := afterConv s) wf c
  refine ⟨c, _, listed, step, ?_, ?_⟩
  · exact tally2_sumsq_toReal wf c
  · rw [← phase]; rfl

/-! ## Peak-to-peak, offset and average in real numbers (R214) -/

theorem toReal_div_num (a : Num) {k : Nat} (pos : 0 < k) : (Num.div a (.num k)).toReal = a.toReal / k := by
  have nonzero : (Num.num k).toReal ≠ 0 := by rw [Num.toReal_num]; positivity
  rw [Num.toReal_div _ _ nonzero, Num.toReal_num]

theorem dcoffOf_clipped_toReal (vpp avg : Num) : (dcoffOf true vpp avg).toReal = vpp.toReal / 2 :=
  toReal_div_num vpp (k := 2) two_pos

theorem vppOf_clipped_toReal {c : Params} (wf : c.wf = true) (lo hi : Count10) :
    (vppOf c true lo hi).toReal = 2 * (hi.val * c.vRef.toReal / c.maxCountScale) := by
  rw [vppOf, if_pos rfl, Num.toReal_mul, Num.toReal_num, Nat.cast_ofNat, volt_toReal wf]

theorem vppOf_unclipped_toReal {c : Params} (wf : c.wf = true) {lo hi : Count10} (le : lo ≤ hi) :
    (vppOf c false lo hi).toReal = ((hi.val : ℝ) - lo.val) * c.vRef.toReal / c.maxCountScale := by
  rw [vppOf, if_neg Bool.false_ne_true, volt_toReal wf, Nat.cast_sub le]

/-- Settles O31: the state of the step is written out in its definition; the clipping test decides the branch. -/
theorem passOneFinish : Obligations.PassOneFinish := by
  unfold Obligations.PassOneFinish
  intro s wf sampled le
  refine ⟨_, rfl, toReal_div_num _ sampled, fun clipped => ?_, fun normal => ?_, Num.toReal_zero, rfl⟩
  · have low : clippedLow s = true := (clippedLow_iff s).2 clipped
    simp only [low]
    exact ⟨vppOf_clipped_toReal wf _ _, dcoffOf_clipped_toReal _ _⟩
  · have low : clippedLow s = false := Bool.eq_false_iff.2 fun low => normal ((clippedLow_iff s).1 low)
    simp only [low]
    exact ⟨vppOf_unclipped_toReal wf le, rfl⟩

/-! ## RMS and crest factor (R216) -/

theorem crestOf_below {c : Params} {rms : Num} (below : c.lt rms c.noiseFloor = true) (vpp : Num) :
    crestOf c vpp rms = Num.zero := if_pos below

theorem crestOf_above {c : Params} {rms : Num} (above : c.lt rms c.noiseFloor = false) (vpp : Num) :
    crestOf c vpp rms = .div (.div vpp (.num 2)) rms := if_neg (Bool.eq_false_iff.1 above)

/-- Settles O33: the guard decides the crest factor, in the build's comparison and in the order of the reals. -/
theorem passTwoFinish : Obligations.PassTwoFinish := by
  unfold Obligations.PassTwoFinish
  intro s
  refine ⟨_, rfl, rfl, rfl, fun below => crestOf_below below _, fun above => crestOf_above above _,
    fun wf reference sampled nonneg => ⟨rmsOf_toReal _ _ nonneg sampled, fun below => ?_, fun above => ?_⟩⟩
  · exact (crestOf_toReal wf reference _ _).trans (if_pos below)
  · exact (crestOf_toReal wf reference _ _).trans (if_neg (not_lt.2 above))

/-! ## The sums and extremes of a pass -/

section
variable {c : Params} {p : List Count10} {lo hi k : Count10}

theorem le_minOf_iff : lo ≤ minOf p ↔ ∀ k ∈ p, lo ≤ k := by
  induction p using List.reverseRecOn with
  | nil => exact iff_of_true (Fin.le_last lo) nofun
  | append_singleton p x ih => simp [Safety.minOf_append, ih, or_imp, forall_and]

theorem maxOf_le_iff : maxOf p ≤ hi ↔ ∀ k ∈ p, k ≤ hi := by
  induction p using List.reverseRecOn with
  | nil => exact iff_of_true (Fin.zero_le hi) nofun
  | append_singleton p x ih => simp [Safety.maxOf_append, ih, or_imp, forall_and]

theorem minOf_eq_least (mem : lo ∈ p) (least : ∀ k ∈ p, lo ≤ k) : minOf p = lo :=
  le_antisymm (le_minOf_iff.1 le_rfl lo mem) (le_minOf_iff.2 least)

theorem maxOf_eq_greatest (mem : hi ∈ p) (greatest : ∀ k ∈ p, k ≤ hi) : maxOf p = hi :=
  le_antisymm (maxOf_le_iff.2 greatest) (maxOf_le_iff.1 le_rfl hi mem)

theorem anyClips_of_mem (mem : k ∈ p) (clip : clips c k = true) : anyClips c p = true := by
  induction p using List.reverseRecOn with
  | nil => cases mem
  | append_singleton p x ih =>
    rw [Safety.anyClips_append, Bool.or_eq_true]
    rcases List.mem_append.1 mem with before | last
    · exact .inl (ih before)
    · exact .inr (List.mem_singleton.1 last ▸ clip)

theorem voltSum_toReal (wf : c.wf = true) (p : List Count10) :
    (Safety.voltSum c p).toReal = (p.map fun k => (k.val : ℝ) * c.vRef.toReal / c.maxCountScale).sum := by
  induction p using List.reverseRecOn with
  | nil => exact Num.toReal_zero
  | append_singleton p x ih => simp [Safety.voltSum_append, ih, volt_toReal wf]

/-- The average of a pass 1 (R214). -/
theorem averageOf_toReal (wf : c.wf = true) (sampled : p ≠ []) : (averageOf c p).toReal =
    (p.map fun k => (k.val : ℝ) * c.vRef.toReal / c.maxCountScale).sum / p.length := by
  rw [← voltSum_toReal wf]
  exact toReal_div_num _ (List.length_pos_iff.2 sampled)

theorem sqDevSum_toReal (wf : c.wf = true) (dc : Num) (p : List Count10) : (Safety.sqDevSum c dc p).toReal =
    (p.map fun k => ((k.val : ℝ) * c.vRef.toReal / c.maxCountScale - dc.toReal) ^ 2).sum := by
  induction p using List.reverseRecOn with
  | nil => exact Num.toReal_zero
  | append_singleton p x ih => simp [Safety.sqDevSum_append, ih, sqDev_toReal, volt_toReal wf]

theorem sqDevSum_nonneg (wf : c.wf = true) (dc : Num) (p : List Count10) : 0 ≤ (Safety.sqDevSum c dc p).toReal := by
  rw [sqDevSum_toReal wf]
  exact List.sum_nonneg (List.forall_mem_map.2 fun _ _ => sq_nonneg _)

/-! ## The envelope of a pass (R214) -/

/-- A least count within the margin is itself a clipped sample, so CLIPF needs no test of its own. -/
theorem envelope_of_low (mem : minOf p ∈ p) (low : (minOf p).val ≤ c.clipMargin) : envelope c p =
    (vppOf c true (minOf p) (maxOf p), dcoffOf true (vppOf c true (minOf p) (maxOf p)) (averageOf c p)) := by
  have flagged : anyClips c p = true := anyClips_of_mem mem ((clips_iff c _).2 (.inl low))
  simp only [envelope, flagged, decide_eq_true low, Bool.and_self]

theorem envelope_of_high (high : c.clipMargin < (minOf p).val) :
    envelope c p = (vppOf c false (minOf p) (maxOf p), averageOf c p) := by
  simp only [envelope, decide_eq_false (not_le.2 high), Bool.and_false, dcoffOf, if_neg Bool.false_ne_true]

end

/-- Settles O35: the least and greatest counts are the folded extremes, and the least one alone decides the branch. -/
theorem envelopeOfAPass : Obligations.EnvelopeOfAPass := by
  unfold Obligations.EnvelopeOfAPass
  intro c p lo hi wf memLo memHi bounds
  obtain rfl : minOf p = lo := minOf_eq_least memLo fun k hk => (bounds k hk).1
  obtain rfl : maxOf p = hi := maxOf_eq_greatest memHi fun k hk => (bounds k hk).2
  refine ⟨fun low => ?_, fun high => ?_⟩
  · rw [envelope_of_low memLo low, dcoffOf_clipped_toReal, vppOf_clipped_toReal wf]
    exact ⟨by ring, by ring⟩
  · rw [envelope_of_high high]
    exact ⟨vppOf_unclipped_toReal wf (bounds _ memHi).1, averageOf_toReal wf (List.ne_nil_of_mem memLo)⟩

/-! ## A pass without signal (R216 (c), R261 (c)) -/

/-- The root mean square of the samples of a pass 2 (R215, R216). -/
theorem rmsOf_sqDevSum_toReal {c : Params} (wf : c.wf = true) (dc : Num) {p : List Count10} (sampled : p ≠ []) :
    (rmsOf (Safety.sqDevSum c dc p) p.length).toReal =
      √((p.map fun k => ((k.val : ℝ) * c.vRef.toReal / c.maxCountScale - dc.toReal) ^ 2).sum / p.length) := by
  rw [rmsOf_toReal _ _ (sqDevSum_nonneg wf dc p) (List.length_pos_iff.2 sampled), sqDevSum_toReal wf]

theorem inBand_of_below {c : Params} (reference : c.numerics = .reference) {lo hi cf : Num} (below : cf.toReal < lo.toReal) :
    inBand c lo hi cf = false :=
  Bool.eq_false_iff.2 fun inside => below.not_ge ((inBand_iff reference lo hi cf).1 inside).1

/-- A crest factor below every band is unrecognized. -/
theorem classify_of_below {c : Params} (reference : c.numerics = .reference) {cf : Num} (sine : cf.toReal < c.sineLo.toReal)
    (square : cf.toReal < c.squareLo.toReal) (triangle : cf.toReal < c.triLo.toReal) : classify c cf = .unrecognized := by
  simp [classify, inBand_of_below reference sine, inBand_of_below reference square, inBand_of_below reference triangle]

/-- Settles O39: below the noise floor the crest factor is 0, below all three bands. -/
theorem degenerateRmsIsUnrecognized : Obligations.DegenerateRmsIsUnrecognized := by
  unfold Obligations.DegenerateRmsIsUnrecognized
  intro c vpp dc p wf reference sampled sineLo squareLo triLo below
  have guard : c.lt (rmsOf (Safety.sqDevSum c dc p) p.length) c.noiseFloor = true := by
    rwa [Params.lt_iff reference, rmsOf_sqDevSum_toReal wf dc sampled]
  have crest : crestFactor c vpp dc p = Num.zero := crestOf_below guard vpp
  rw [crest]
  refine ⟨Num.toReal_zero, classify_of_below reference ?_ ?_ ?_⟩ <;> rw [Num.toReal_zero]
  · norm_num [sineLo]
  · norm_num [squareLo]
  · norm_num [triLo]

end Sys2Proof.Machine
end

section
/-! The crest-factor comparator and the publication of the waveform outputs (45_classifier.md R240 to R243: O36, O37, O38). -/

namespace Sys2Proof.Machine

/-! ## The bands in order (R240) -/

/-- A band in the build's own comparisons, whatever its NUMERICS. -/
theorem inBand_iff_le (c : Params) (lo hi cf : Num) : inBand c lo hi cf = true ↔ c.le lo cf = true ∧ c.le cf hi = true :=
  Bool.and_eq_true_iff

section
variable {c : Params} {cf : Num}

theorem classify_of_sine (sine : inBand c c.sineLo c.sineHi cf = true) : classify c cf = .sine := if_pos sine

theorem classify_of_square (sine : ¬ inBand c c.sineLo c.sineHi cf = true)
    (square : inBand c c.squareLo c.squareHi cf = true) : classify c cf = .square := by
  rw [classify, if_neg sine, if_pos square]

theorem classify_of_triangle (sine : ¬ inBand c c.sineLo c.sineHi cf = true)
    (square : ¬ inBand c c.squareLo c.squareHi cf = true) (triangle : inBand c c.triLo c.triHi cf = true) :
    classify c cf = .triangle := by
  rw [classify, if_neg sine, if_neg square, if_pos triangle]

theorem classify_of_no_band (sine : ¬ inBand c c.sineLo c.sineHi cf = true)
    (square : ¬ inBand c c.squareLo c.squareHi cf = true) (triangle : ¬ inBand c c.triLo c.triHi cf = true) :
    classify c cf = .unrecognized := by
  rw [classify, if_neg sine, if_neg square, if_neg triangle]

/-- The first band that matches decides, in any reading of the three bands: the build's comparisons or the reals. -/
theorem classify_first_match {sine square triangle : Prop} (hsine : inBand c c.sineLo c.sineHi cf = true ↔ sine)
    (hsquare : inBand c c.squareLo c.squareHi cf = true ↔ square) (htriangle : inBand c c.triLo c.triHi cf = true ↔ triangle) :
    (sine → classify c cf = .sine) ∧ (¬ sine → square → classify c cf = .square) ∧
    (¬ sine → ¬ square → triangle → classify c cf = .triangle) ∧
    (¬ sine → ¬ square → ¬ triangle → classify c cf = .unrecognized) := by
  rw [← hsine, ← hsquare, ← htriangle]
  exact ⟨classify_of_sine, classify_of_square, classify_of_triangle, classify_of_no_band⟩

end

/-- Settles O36: the first match, with the bands read in the build's comparisons and then in the order of the reals. -/
theorem classifyByBands : Obligations.ClassifyByBands := by
  unfold Obligations.ClassifyByBands
  exact fun s => ⟨_, rfl, rfl,
    classify_first_match (inBand_iff_le ..) (inBand_iff_le ..) (inBand_iff_le ..),
    fun reference => classify_first_match (inBand_iff reference ..) (inBand_iff reference ..) (inBand_iff reference ..)⟩

/-! ## The publication (R242, R243) -/

/-- Settles O37: the states of the two steps are written out in their definitions. -/
theorem waveformPublication : Obligations.WaveformPublication := by
  unfold Obligations.WaveformPublication
  exact fun _ => ⟨rfl, rfl⟩

/-! ## The ideal waveforms (R240 (d)) -/

section
variable {c : Params} (reference : c.numerics = .reference)
include reference

theorem inBand_of_above {lo hi cf : Num} (above : hi.toReal < cf.toReal) : ¬ inBand c lo hi cf = true :=
  fun inside => above.not_ge ((inBand_iff reference lo hi cf).1 inside).2

/-- A crest factor above every band is unrecognized. -/
theorem classify_of_above {cf : Num} (sine : c.sineHi.toReal < cf.toReal) (square : c.squareHi.toReal < cf.toReal)
    (triangle : c.triHi.toReal < cf.toReal) : classify c cf = .unrecognized :=
  classify_of_no_band (inBand_of_above reference sine) (inBand_of_above reference square) (inBand_of_above reference triangle)

end

/-- Settles O38: √2 lies in the sine band; 1 lies in the square band and below the sine band; √3 lies above all three bands. -/
theorem idealCrestFactors : Obligations.IdealCrestFactors := by
  unfold Obligations.IdealCrestFactors
  intro c cf reference sineLo sineHi squareLo squareHi triLo triHi
  refine ⟨fun root2 => ?_, fun one => ?_, fun root3 => ?_, fun below => ?_⟩
  · refine classify_of_sine ((inBand_iff reference ..).2 ?_)
    rw [root2, sineLo, sineHi]
    exact ⟨Real.le_sqrt_of_sq_le (by norm_num), Real.sqrt_le_iff.2 (by norm_num)⟩
  · refine classify_of_square (Bool.eq_false_iff.1 (inBand_of_below reference ?_)) ((inBand_iff reference ..).2 ?_)
    · rw [one, sineLo]; norm_num
    · rw [one, squareLo, squareHi]; norm_num
  · have above : (1.70 : ℝ) < cf.toReal := root3 ▸ Real.lt_sqrt_of_sq_lt (by norm_num)
    refine classify_of_above reference ?_ ?_ (triHi ▸ above)
    · linarith
    · linarith
  · refine classify_of_below reference ?_ (squareLo ▸ below) ?_
    · linarith
    · linarith

end Sys2Proof.Machine
end

section
/-! The block raises no exception (60_exceptions.md R260, R262, R272: O46, O55): every phase but FC_ACQ answers a next state
whatever the state is, FC_ACQ does inside the block and inside its source's contract, and no step adds to the listed answers
of the source. -/

namespace Sys2Proof.Machine

/-! ## The clock (R272) -/

/-- Settles O46: the schedule hands the step to the clock, whose step is the tick. -/
theorem clockStepAdvancesNow : Obligations.ClockStepAdvancesNow := by
  unfold Obligations.ClockStepAdvancesNow
  intro s d rest hs
  rw [step, nextAgent_cons s (.clk d) rest hs, agentStep, tick]

/-! ## Every step answers (R260) -/

/-- Every meaning but that of FC_ACQ answers a next state, in any state. -/
theorem exec_answers {i : Instr} (other : i ≠ .fcAcq) (s : State) : ∃ t, exec i s = .next t := by
  cases i with
  | fcAcq => exact absurd rfl other
  | _ => exact ⟨_, rfl⟩

/-- FC_ACQ waits, or takes a sample that the contract lets through. -/
theorem execFcAcq_answers {s : State} (hi : s.idx < s.cfg.n) (contract : Safety.Contract s) :
    ∃ t, execFcAcq s = .next t := by
  by_cases guard : acqEnabled s = true
  · obtain ⟨c, -, -, taken⟩ := execFcAcq_takes guard hi contract
    exact ⟨_, taken⟩
  · exact ⟨s, execFcAcq_waits guard⟩

theorem seqStep_answers {s : State} (h : Safety.Inv s) (contract : Safety.Contract s) : ∃ t, seqStep s = .next t := by
  by_cases acq : s.phase = Phase.fcAcq
  · rw [seqStep_fcAcq acq]
    exact execFcAcq_answers (h.idx acq) contract
  · obtain ⟨i, decoded⟩ := (decodePhase_ok_iff s.phase).2 h.phase
    have other : i ≠ .fcAcq := fun hi => by
      subst hi
      exact acq (CodeWord.phase5.inj (encode_of_decodePhase decoded)).symm
    rw [seqStep, decoded]
    exact exec_answers other s

/-- The host's step answers a next state, in any state. -/
theorem hostStep_answers (s : State) : ∃ t, hostStep s = .next t := by
  rcases hostStep_cases s with e | e | ⟨_, e⟩ | ⟨-, e⟩ | ⟨-, e | ⟨-, e⟩ | e | ⟨-, e⟩⟩ <;> exact ⟨_, e⟩

theorem contract_nextAgent {s : State} (contract : Safety.Contract s) : Safety.Contract (nextAgent s).2 := by
  rwa [Safety.Contract, nextAgent_rawQ, nextAgent_cfg]

theorem step_answers {s : State} (h : Safety.Inv s) (contract : Safety.Contract s) : ∃ t, step s = .next t := by
  rcases step_cases s with ⟨-, e⟩ | ⟨d, -, e⟩ | ⟨-, e⟩
  · rw [e]; exact seqStep_answers (h.of_sameBlock (sameBlock_nextAgent s)) (contract_nextAgent contract)
  · exact ⟨_, e⟩
  · rw [e]; exact hostStep_answers (nextAgent s).2

/-! ## The listed answers (R15, R262) -/

/-- The sequencer takes the first listed answer where FC_ACQ takes a sample, and else leaves the list. -/
theorem seqMove_rawQ {s t : State} (m : SeqMove s t) : t.env.rawQ = s.env.rawQ ∨ t.env.rawQ = s.env.rawQ.tail := by
  cases m with
  | fcAcqSamples hp guard hi c hc drawn e => rw [e]; exact .inr rfl
  | _ => rename_i e; cases e; exact .inl rfl

theorem hostStep_rawQ {s t : State} (h : hostStep s = .next t) : t.env.rawQ = s.env.rawQ := by
  rcases hostStep_cases s with
      e | e | ⟨_, e⟩ | ⟨-, e⟩ | ⟨-, e | ⟨-, e⟩ | e | ⟨-, e⟩⟩ <;> rw [e] at h <;> cases h <;> rfl

/-- No step adds to the listed answers of RawRead. -/
theorem mem_rawQ_of_step {s t : State} (h : step s = .next t) {c : Nat} (listed : c ∈ t.env.rawQ) : c ∈ s.env.rawQ := by
  rw [← nextAgent_rawQ s]
  rcases step_cases s with ⟨-, e⟩ | ⟨d, -, e⟩ | ⟨-, e⟩ <;> rw [e] at h
  · rcases seqMove_rawQ (seqMove_of_seqStep h) with left | taken
    · exact left ▸ listed
    · exact List.mem_of_mem_tail (taken ▸ listed)
  · cases h; exact listed
  · exact hostStep_rawQ h ▸ listed

theorem contract_of_step {s t : State} (contract : Safety.Contract s) (h : step s = .next t) : Safety.Contract t := by
  have cfg : t.cfg = s.cfg := (Safety.drew_step h).cfg
  intro c listed
  rw [cfg]
  exact contract c (mem_rawQ_of_step h listed)

/-- Settles O55: the agent that moves answers a next state, which lists no answer that was not listed before. -/
theorem everyStepIsTotal : Obligations.EveryStepIsTotal := by
  unfold Obligations.EveryStepIsTotal
  intro s h contract
  obtain ⟨t, e⟩ := step_answers h contract
  exact ⟨t, e, contract_of_step contract e⟩

end Sys2Proof.Machine
end

section
/-! RESET at any point (70_reset_and_hazards.md R290 to R292: O41). -/

namespace Sys2Proof.Machine

theorem step_reset {s : State} {rest : List Agent} {more : List HostStmt} (hs : s.env.sched = .host :: rest)
    (hp : s.env.script = .reset :: more) : step s = .next (resetBlock (hostMoved s rest more)) := by
  rw [step_host hs, hostStep]; simp only [hp, scriptAfter]; rfl

/-- STATUS is made of PHASE and the flags, which a reset leaves at their reset values (R45, R93). -/
theorem statusWord_resetBlock (s : State) : statusWord (resetBlock s) = 0#32 := by
  have same : statusWord (resetBlock s) = statusWord State.reset := rfl
  rw [same]; decide

/-- Settles O41: the step is the reset of the block in the environment the host's statement leaves. -/
theorem resetAtAnyPoint : Obligations.ResetAtAnyPoint := by
  unfold Obligations.ResetAtAnyPoint
  intro s rest more hs hp
  exact ⟨_, step_reset hs hp, rfl, rfl, rfl, rfl, rfl, rfl, rfl, statusWord_resetBlock _, rfl, rfl⟩

end Sys2Proof.Machine
end

section
/-! The durations of the two updates (70_reset_and_hazards.md R300, 60_exceptions.md R272: O58). A pace says, in each phase
that measures time, how far the clock or its mark T_MARK is past the clock reading at the update's start; once the whole
duration has passed nothing more is asked, because the clock never goes back. -/

namespace Sys2Proof.Safety
open Machine

/-- What an unchanged block in a later environment and every move of the sequencer keep, a busy run without RESET keeps. -/
theorem busyRun_keeps_of_moves {P : State → Prop} (stay : ∀ {s t}, P s → SameBlock s t → P t)
    (move : ∀ {s t}, Inv s → P s → seqStep s = .next t → P t) {k : Nat} {s t : State} {d : Draws} (h : Inv s)
    (noReset : NoReset s) (hs : P s) (run : busyRun k s = some (d, t)) : t.cfg = s.cfg ∧ P t := by
  have keep {e : Draws} {u v : State} (hu : Running s e u ∧ P u) (busy : u.phase ≠ Phase.idle)
      (hv : step u = .next v) : Running s (e.append (stepDraws u)) v ∧ P v := by
    obtain ⟨running, hu⟩ := hu
    refine ⟨running.step hv, ?_⟩
    rcases busyStep_cases hv running.noReset busy with ⟨-, moved⟩ | ⟨-, same⟩
    · have choice := sameBlock_nextAgent u
      exact move (running.inv.of_sameBlock choice) (stay hu choice) moved
    · exact stay hu same
  obtain ⟨running, ht⟩ :=
    busyRun_keeps (P := fun e u => Running s e u ∧ P u) keep ⟨⟨h, noReset, .refl s⟩, hs⟩ run
  exact ⟨running.drew.cfg, ht⟩

/-! ## FC_UPDATE: N - 1 intervals between N samples (R300 (a)) -/

/-- How the time of a FC_UPDATE that began at start has passed: T_MARK, after IDX samples, is IDX - 1 intervals on. -/
inductive FcPace (start : Nat) (s : State) : Prop
  | entering (hp : s.phase = Phase.fcCritEnter) (begun : start ≤ s.env.now)
  | acquiring (hp : s.phase = Phase.fcAcq) (begun : start ≤ s.env.now)
      (mark : 0 < s.idx → start + s.idx * s.cfg.tS ≤ s.tMark + s.cfg.tS)
  | elapsed (passed : start + (s.cfg.n - 1) * s.cfg.tS ≤ s.env.now)

section
variable {start : Nat} {s t : State}

theorem FcPace.of_sameBlock (f : FcPace start s) (same : SameBlock s t) : FcPace start t := by
  obtain ⟨cfg, phase, idx, tMark, flags, pub, fc, wa, blk, env⟩ := t
  obtain ⟨rfl, rfl, rfl, rfl, rfl, rfl, rfl, rfl, rfl, now⟩ := same
  cases f with
  | entering hp begun => exact .entering hp (begun.trans now)
  | acquiring hp begun mark => exact .acquiring hp (begun.trans now) mark
  | elapsed passed => exact .elapsed (passed.trans now)

/-- A sample taken IDX intervals after the start leaves T_MARK there, and the last one ends the acquisition. -/
theorem fcPace_takeSample (hp : s.phase = Phase.fcAcq) (due : start + s.idx * s.cfg.tS ≤ s.env.now) (c : Nat) :
    FcPace start (takeSample c s) := by
  by_cases last : s.idx + 1 = s.cfg.n
  · refine .elapsed ?_
    rw [takeSample_cfg, ← last]
    exact due
  · refine .acquiring (by simp [last, hp]) ((Nat.le_add_right _ _).trans due) fun _ => ?_
    simp only [takeSample_idx, takeSample_cfg, takeSample_tMark, last, decide_false, Bool.false_eq_true, if_false,
      Nat.succ_mul]
    omega

/-- Where the guard of FC_ACQ is open, IDX intervals have passed since the start. -/
theorem interval_passed (wf : s.cfg.wf = true) (begun : start ≤ s.env.now)
    (mark : 0 < s.idx → start + s.idx * s.cfg.tS ≤ s.tMark + s.cfg.tS) (guard : acqEnabled s = true) :
    start + s.idx * s.cfg.tS ≤ s.env.now := by
  rcases Nat.eq_zero_or_pos s.idx with first | later
  · simpa [first] using begun
  · have interval := ((acqEnabled_iff_interval wf).1 guard).resolve_left later.ne'
    exact (mark later).trans interval

theorem FcPace.seqStep (h : Inv s) (f : FcPace start s) (e : seqStep s = .next t) : FcPace start t := by
  cases f with
  | entering hp begun =>
    rw [seqStep_fcCritEnter hp] at e; cases e
    exact .acquiring rfl begun nofun
  | acquiring hp begun mark =>
    rw [seqStep_fcAcq hp] at e
    rcases execFcAcq_cases s with ⟨-, e'⟩ | ⟨guard, -, ⟨c, -, -, e'⟩ | ⟨c, -, -, e'⟩⟩ | ⟨-, -, e'⟩ <;>
      rw [e'] at e <;> cases e
    · exact .acquiring hp begun mark
    · exact fcPace_takeSample (s := afterRaw s) hp (interval_passed h.params begun mark guard) c
  | elapsed passed =>
    have m := seqMove_of_seqStep e
    exact .elapsed (by rwa [seqMove_cfg m, seqMove_now m])

end

/-! ## WA_UPDATE: two windows (R300 (b)) -/

/-- How the time of a WA_UPDATE that began at start has passed: T_MARK is the beginning of the pass that runs. -/
inductive WaPace (start : Nat) (s : State) : Prop
  | starting (hp : s.phase = Phase.waP1Start) (begun : start ≤ s.env.now)
  | pass1 (hp : s.phase = Phase.waP1Sample) (mark : start ≤ s.tMark)
  | pass1Over (hp : s.phase = Phase.waP1Finish) (passed : start + s.cfg.tPass1 ≤ s.env.now)
  | pass2 (hp : s.phase = Phase.waP2Sample) (mark : start + s.cfg.tPass1 ≤ s.tMark)
  | elapsed (passed : start + (s.cfg.tPass1 + s.cfg.tPass2) ≤ s.env.now)

section
variable {start : Nat} {s t : State}

theorem WaPace.of_sameBlock (f : WaPace start s) (same : SameBlock s t) : WaPace start t := by
  obtain ⟨cfg, phase, idx, tMark, flags, pub, fc, wa, blk, env⟩ := t
  obtain ⟨rfl, rfl, rfl, rfl, rfl, rfl, rfl, rfl, rfl, now⟩ := same
  cases f with
  | starting hp begun => exact .starting hp (begun.trans now)
  | pass1 hp mark => exact .pass1 hp mark
  | pass1Over hp passed => exact .pass1Over hp (passed.trans now)
  | pass2 hp mark => exact .pass2 hp mark
  | elapsed passed => exact .elapsed (passed.trans now)

/-- A pass window that is over has passed since the mark of the pass, which is not in the future (R212 (g)). -/
theorem window_passed {w : Nat} (mark : s.tMark ≤ s.env.now) (ended : windowOver w s = true) :
    s.tMark + w ≤ s.env.now := by
  have window := (windowOver_iff w s).1 ended
  omega

theorem waPace_tally1 (hp : s.phase = Phase.waP1Sample) (past : s.tMark ≤ s.env.now) (mark : start ≤ s.tMark)
    (c : Count10) : WaPace start (tally1 c s) := by
  by_cases ended : windowOver s.cfg.tPass1 s = true
  · exact .pass1Over (by simp [ended]) ((Nat.add_le_add_right mark _).trans (window_passed past ended))
  · exact .pass1 (by simp [ended, hp]) mark

theorem waPace_tally2 (hp : s.phase = Phase.waP2Sample) (past : s.tMark ≤ s.env.now)
    (mark : start + s.cfg.tPass1 ≤ s.tMark) (c : Count10) : WaPace start (tally2 c s) := by
  by_cases ended : windowOver s.cfg.tPass2 s = true
  · refine .elapsed ?_
    rw [← Nat.add_assoc]
    exact (Nat.add_le_add_right mark _).trans (window_passed past ended)
  · exact .pass2 (by simp [ended, hp]) mark

theorem WaPace.seqStep (h : Inv s) (f : WaPace start s) (e : seqStep s = .next t) : WaPace start t := by
  cases f with
  | starting hp begun =>
    rw [seqStep_waP1Start hp] at e; cases e
    exact .pass1 rfl begun
  | pass1 hp mark =>
    rw [seqStep_waP1Sample hp, execWaP1Sample_eq] at e; cases e
    exact waPace_tally1 (s := afterConv s) hp (h.passMark (by simp [hp])) mark _
  | pass1Over hp passed =>
    rw [seqStep_waP1Finish hp] at e; cases e
    exact .pass2 rfl passed
  | pass2 hp mark =>
    rw [seqStep_waP2Sample hp, execWaP2Sample_eq] at e; cases e
    exact waPace_tally2 (s := afterConv s) hp (h.passMark (by simp [hp])) mark _
  | elapsed passed =>
    have m := seqMove_of_seqStep e
    exact .elapsed (by rwa [seqMove_cfg m, seqMove_now m])

end

/-! ## Both durations -/

theorem fcUpdate_duration {k : Nat} {s t : State} {d : Draws} (h : Inv s) (noReset : NoReset s)
    (hp : s.phase = Phase.fcCritEnter) (run : busyRun k s = some (d, t)) (idle : t.phase = Phase.idle) :
    s.env.now + (s.cfg.n - 1) * s.cfg.tS ≤ t.env.now := by
  obtain ⟨cfg, pace⟩ :=
    busyRun_keeps_of_moves FcPace.of_sameBlock FcPace.seqStep h noReset (.entering hp (le_refl s.env.now)) run
  cases pace with
  | elapsed passed => rwa [cfg] at passed
  | _ busy => rw [idle] at busy; exact absurd busy (by decide)

theorem waUpdate_duration {k : Nat} {s t : State} {d : Draws} (h : Inv s) (noReset : NoReset s)
    (hp : s.phase = Phase.waP1Start) (run : busyRun k s = some (d, t)) (idle : t.phase = Phase.idle) :
    s.env.now + (s.cfg.tPass1 + s.cfg.tPass2) ≤ t.env.now := by
  obtain ⟨cfg, pace⟩ :=
    busyRun_keeps_of_moves WaPace.of_sameBlock WaPace.seqStep h noReset (.starting hp (le_refl s.env.now)) run
  cases pace with
  | elapsed passed => rwa [cfg] at passed
  | _ busy => rw [idle] at busy; exact absurd busy (by decide)

/-- Settles O58: at IDLE the pace of either update is elapsed. -/
theorem updatesTakeTheirTime : Obligations.UpdatesTakeTheirTime := by
  unfold Obligations.UpdatesTakeTheirTime
  intro k s t d h noReset run idle
  exact ⟨fun hp => fcUpdate_duration h noReset hp run idle, fun hp => waUpdate_duration h noReset hp run idle⟩

end Sys2Proof.Safety
end

section
/-! Every command can end (70_reset_and_hazards.md R297, 60_exceptions.md R272: O59). Under a schedule that lets the clock
pass every interval and window before each step of the sequencer, no sampling phase waits, and a bound on the steps of the
sequencer still to come falls with each round. -/

namespace Sys2Proof.Safety
open Machine

/-! ## The bound -/

/-- At most this many phases are left to run from phase p: within a unit the codes ascend in the order the phases run (R95),
and those of the frequency unit end at 0x0A, those of the waveform unit at 0x18. -/
def phasesLeft (p : BitVec 5) : Nat :=
  if p = Phase.idle then 0 else if p.getLsbD 4 then 0x19 - p.toNat else 0x0B - p.toNat

/-- The samples an acquisition has still to take (R141). -/
def samplesLeft (s : State) : Nat :=
  if s.phase = Phase.fcCritEnter then s.cfg.n else if s.phase = Phase.fcAcq then s.cfg.n - s.idx else 0

/-- A bound on the steps of the sequencer, none of them a wait, that end the command in progress. -/
def stepsLeft (s : State) : Nat := phasesLeft s.phase + samplesLeft s

/-- The clock lets the step of the sequencer do more than wait: the interval of FC_ACQ (R141) or the window of a pass (R212,
R215) is over. -/
structure Due (s : State) : Prop where
  acq   : s.phase = Phase.fcAcq → acqEnabled s = true
  pass1 : s.phase = Phase.waP1Sample → windowOver s.cfg.tPass1 s = true
  pass2 : s.phase = Phase.waP2Sample → windowOver s.cfg.tPass2 s = true

section
variable {s t : State}

theorem samplesLeft_eq_zero (enter : s.phase ≠ Phase.fcCritEnter) (acq : s.phase ≠ Phase.fcAcq) : samplesLeft s = 0 := by
  rw [samplesLeft, if_neg enter, if_neg acq]

theorem samplesLeft_fcCritEnter (hp : s.phase = Phase.fcCritEnter) : samplesLeft s = s.cfg.n := if_pos hp

theorem samplesLeft_fcAcq (hp : s.phase = Phase.fcAcq) : samplesLeft s = s.cfg.n - s.idx := by
  rw [samplesLeft, hp, if_neg (by decide), if_pos rfl]

theorem idle_of_stepsLeft_eq_zero (hp : s.phase ∈ phases) (ended : stepsLeft s = 0) : s.phase = Phase.idle := by
  have left : ∀ p ∈ phases, phasesLeft p = 0 → p = Phase.idle := by decide
  exact left _ hp (Nat.eq_zero_of_add_eq_zero_right ended)

theorem stepsLeft_of_sameBlock (same : SameBlock s t) : stepsLeft t = stepsLeft s := by
  simp only [stepsLeft, samplesLeft, same.phase, same.cfg, same.idx]

/-- A step between two phases outside the acquisition is a step down when the phases left are fewer. -/
theorem stepsLeft_lt {p q : BitVec 5} (hp : s.phase = p) (hq : t.phase = q)
    (fewer : phasesLeft q < phasesLeft p ∧ q ≠ Phase.fcCritEnter ∧ q ≠ Phase.fcAcq := by decide) :
    stepsLeft t < stepsLeft s := by
  subst hp hq
  obtain ⟨fewer, enter, acq⟩ := fewer
  rw [stepsLeft, samplesLeft_eq_zero enter acq]
  exact Nat.lt_of_lt_of_le fewer (Nat.le_add_right _ _)

theorem stepsLeft_takeSample (hp : s.phase = Phase.fcAcq) (hi : s.idx < s.cfg.n) (c : Nat) :
    stepsLeft (takeSample c s) < stepsLeft s := by
  by_cases last : s.idx + 1 = s.cfg.n
  · exact stepsLeft_lt hp (q := Phase.fcCritExit) (by simp [last])
  · have hq : (takeSample c s).phase = Phase.fcAcq := by simp [last, hp]
    have idx : (takeSample c s).idx = s.idx + 1 := by simp [last]
    rw [stepsLeft, stepsLeft, samplesLeft_fcAcq hp, samplesLeft_fcAcq hq, hp, hq, idx, takeSample_cfg]
    omega

/-- Each move of the sequencer that is due takes the command a step nearer to its end. -/
theorem stepsLeft_seqMove (m : SeqMove s t) (busy : s.phase ≠ Phase.idle) (due : Due s) : stepsLeft t < stepsLeft s := by
  cases m with
  | idle hp => exact absurd hp busy
  | fcCritEnter hp e =>
    cases e
    rw [stepsLeft, stepsLeft, samplesLeft_fcCritEnter hp, samplesLeft_fcAcq rfl, hp]
    have fewer : phasesLeft Phase.fcAcq < phasesLeft Phase.fcCritEnter := by decide
    exact Nat.add_lt_add_right fewer _
  | fcAcqWaits hp guard => rw [due.acq hp] at guard; cases guard
  | fcAcqSamples hp guard hi c hc drawn e => rw [e]; exact stepsLeft_takeSample (s := afterRaw s) hp hi c
  | waP1Sample hp e =>
    exact stepsLeft_lt hp (q := Phase.waP1Finish) (by rw [e]; exact if_pos (due.pass1 hp))
  | waP2Sample hp e =>
    exact stepsLeft_lt hp (q := Phase.waP2Finish) (by rw [e]; exact if_pos (due.pass2 hp))
  | _ hp e => cases e; refine stepsLeft_lt hp rfl ?_; dsimp only; decide

end

/-! ## The schedule -/

/-- A step of the clock of this many microseconds and one more is longer than any interval or window of the build. -/
def pause (c : Params) : Nat := c.tS + (c.tPass1 + c.tPass2)

theorem tS_le_pause (c : Params) : c.tS ≤ pause c := by rw [pause]; omega
theorem tPass1_le_pause (c : Params) : c.tPass1 ≤ pause c := by rw [pause]; omega
theorem tPass2_le_pause (c : Params) : c.tPass2 ≤ pause c := by rw [pause]; omega

/-- A pause of the clock and a step of the sequencer, m times over. -/
def rounds (c : Params) : Nat → List Agent
  | 0 => []
  | m + 1 => .clk (pause c) :: .seq :: rounds c m

theorem host_not_mem_rounds (c : Params) (m : Nat) : Agent.host ∉ rounds c m := by
  induction m with
  | zero => exact List.not_mem_nil
  | succ m ih => simpa [rounds] using ih

section
variable {s t u : State}

/-- The state after the pause, the schedule moved on to what is given. -/
def paused (s : State) (rest : List Agent) : State :=
  tick (pause s.cfg) { s with env := { s.env with sched := rest } }

theorem sameBlock_paused (s : State) (rest : List Agent) : SameBlock s (paused s rest) :=
  sameBlock_env s _ (Nat.le_add_right _ _)

/-- A mark that is not in the future is, after the pause, further back than any interval or window. -/
theorem pause_le_of_mark (rest : List Agent) (mark : s.tMark ≤ s.env.now) :
    pause s.cfg ≤ (paused s rest).env.now - s.tMark :=
  Nat.le_sub_of_add_le' (Nat.add_le_add mark (Nat.le_succ _))

theorem windowOver_paused {w : Nat} (rest : List Agent) (mark : s.tMark ≤ s.env.now) (within : w ≤ pause s.cfg) :
    windowOver w (paused s rest) = true :=
  (windowOver_iff w _).2 (within.trans (pause_le_of_mark rest mark))

/-- The invariant keeps the marks out of the future, so after the pause all that waits for the clock is due. -/
theorem due_paused (h : Inv s) (rest : List Agent) : Due (paused s rest) where
  acq hp := by
    rw [acqEnabled_iff, or_iff_not_imp_left]
    intro later
    have mark : s.tMark ≤ s.env.now := h.acqMark hp (Nat.pos_of_ne_zero later)
    exact (tS_le_pause s.cfg).trans (pause_le_of_mark rest mark)
  pass1 hp := by
    replace hp : s.phase = Phase.waP1Sample := hp
    exact windowOver_paused rest (h.passMark (by simp [hp])) (tPass1_le_pause s.cfg)
  pass2 hp := by
    replace hp : s.phase = Phase.waP2Sample := hp
    exact windowOver_paused rest (h.passMark (by simp [hp])) (tPass2_le_pause s.cfg)

theorem seqMove_sched (m : SeqMove s t) : t.env.sched = s.env.sched := by
  cases m with
  | _ => rename_i e; cases e; rfl

/-- A busy step before a busy run is a busy run. -/
theorem busyRun_cons {k : Nat} {d : Draws} (busy : s.phase ≠ Phase.idle) (first : step s = .next t)
    (run : busyRun k t = some (d, u)) : busyRun (k + 1) s = some ((stepDraws s).append d, u) := by
  have isBusy : Machine.busy s = true := decide_eq_true busy
  rw [busyRun, if_pos isBusy, first]
  simp only [run]

/-- One round from a busy state: the clock pauses and the sequencer makes a move that was due. -/
theorem round_progress {rest : List Agent} (h : Inv s) (contract : Contract s) (busy : s.phase ≠ Phase.idle)
    (hs : s.env.sched = .clk (pause s.cfg) :: .seq :: rest) :
    ∃ t u, step s = .next t ∧ step t = .next u ∧ t.phase = s.phase ∧ u.env.sched = rest ∧
      stepsLeft u < stepsLeft s := by
  have waited : step s = .next (paused s (.seq :: rest)) := clockStepAdvancesNow s _ _ hs
  have inv : Inv (paused s (.seq :: rest)) := h.of_sameBlock (sameBlock_paused s _)
  obtain ⟨u, moved⟩ := step_answers inv (contract_of_step contract waited)
  have m : SeqMove (paused s rest) u := by
    rw [step, nextAgent_cons _ .seq rest rfl] at moved
    exact seqMove_of_seqStep moved
  have fewer := stepsLeft_seqMove m busy (due_paused h rest)
  rw [stepsLeft_of_sameBlock (sameBlock_paused s rest)] at fewer
  exact ⟨_, u, waited, moved, rfl, seqMove_sched m, fewer⟩

/-- As many rounds as steps are left end the command. -/
theorem rounds_reach_idle {m : Nat} (h : Inv s) (contract : Contract s) (hs : s.env.sched = rounds s.cfg m)
    (enough : stepsLeft s ≤ m) :
    ∃ k d t, k ≤ (rounds s.cfg m).length ∧ busyRun k s = some (d, t) ∧ t.phase = Phase.idle := by
  induction m generalizing s with
  | zero =>
    exact ⟨0, Draws.none, s, Nat.zero_le _, rfl, idle_of_stepsLeft_eq_zero h.phase (Nat.le_zero.1 enough)⟩
  | succ m ih =>
    by_cases idle : s.phase = Phase.idle
    · exact ⟨0, Draws.none, s, Nat.zero_le _, rfl, idle⟩
    obtain ⟨t, u, waited, moved, phase, sched, fewer⟩ := round_progress h contract idle hs
    have cfg : u.cfg = s.cfg := (drew_step moved).cfg.trans (drew_step waited).cfg
    have hu : Inv u := (h.of_stepMove (stepMove_of_step waited)).of_stepMove (stepMove_of_step moved)
    have contract' := contract_of_step (contract_of_step contract waited) moved
    obtain ⟨k, d, v, short, run, ended⟩ := ih hu contract' (by rw [cfg]; exact sched) (by omega)
    rw [cfg] at short
    refine ⟨k + 2, _, v, ?_, busyRun_cons idle waited (busyRun_cons (by rwa [phase]) moved run), ended⟩
    exact Nat.add_le_add_right short 2

end

/-- Settles O59: the schedule is as many rounds as the command has steps left. -/
theorem everyCommandCanEnd : Obligations.EveryCommandCanEnd := by
  unfold Obligations.EveryCommandCanEnd
  intro s h contract
  have same := sameBlock_env s { s.env with sched := rounds s.cfg (stepsLeft s) } (le_refl _)
  obtain ⟨k, d, t, short, run, idle⟩ := rounds_reach_idle (h.of_sameBlock same) contract rfl (le_refl (stepsLeft s))
  exact ⟨_, k, d, t, host_not_mem_rounds s.cfg (stepsLeft s), short, run, idle⟩

end Sys2Proof.Safety
end
